-- ==== Sys2Proof/Word.lean ====
section
/-! DEFINITION. Word.lean: the word types of the Register Map, of the call packets and of the pin numbers
(spec rules R7, R10, R11). -/

namespace Sys2Proof

/-- A Register Map word: `REG_WIDTH = 32` bits, bit 0 the least significant (R7, R11). -/
abbrev Word := BitVec 32

/-- One byte of a call packet or of an attribute text. -/
abbrev Byte := BitVec 8

/-- Attribute text (`ATTRTEXT`, R85): its characters as ASCII codes, first character first. -/
abbrev Text := List Byte

/-- A register-defined pin number, 0..59 (R10, tiers 1 and 2). -/
abbrev Pin := Fin 60

/-- The line feed that ends what an attribute read returns (R85). -/
def lineFeed : Byte := 0x0A#8

/-- The text of a Lean string, for worked examples: the low byte of each character's code. -/
def Text.ofString (t : String) : Text := t.toList.map fun ch => BitVec.ofNat 8 ch.toNat

end Sys2Proof
end

