-- ==== Sys2Proof/Syntax.lean ====
section
/-! DEFINITION. Syntax.lean: the operands and the operations of the block, one constructor of `Instr` per row of
spec/opcode_table.json (rules R14, R84, R87). -/

namespace Sys2Proof

/-- A line level (R12, R14). -/
inductive Level
  | low
  | high
  deriving DecidableEq, Repr

/-- `true` is `high`, `false` is `low` (R12). -/
def Level.ofBool (b : Bool) : Level := if b then .high else .low

/-- A pin direction (R14). -/
inductive Direction
  | input
  | output
  deriving DecidableEq, Repr

/-- A DAC channel; `AB` is the document's "A-and-B" (R14, R120). The set is closed. -/
inductive Channel
  | A
  | B
  | AB
  deriving DecidableEq, Repr

/-- The three parameter attributes of the boundary (R6, R32). -/
inductive Attr
  | volume
  | bass
  | on
  deriving DecidableEq, Repr

/-- The operations of the block. Frame commands, function codes and register words are the encoded rows of the
table; the others are its CALL rows (R84). -/
inductive Instr
  /-- `LOAD_A`: the frame word `0x9000 | (m << 2)` (R79, R121). -/
  | loadA (m : BitVec 10)
  /-- `LOAD_B`: the frame word `0xA000 | (m << 2)` (R79, R121). -/
  | loadB (m : BitVec 10)
  /-- `LOAD_AB`: the frame word `0xF000 | (m << 2)` (R79, R121). -/
  | loadAB (m : BitVec 10)
  /-- `FSEL_INPUT`: the input code, placed in the field of a pin (R23, R72). -/
  | fselInput (pin : Nat)
  /-- `FSEL_OUTPUT`: the output code, placed in the field of a pin (R23, R72). -/
  | fselOutput (pin : Nat)
  /-- `FSEL_READ`: read of `FSEL[i]` (R90). -/
  | fselRead (i : Fin 6)
  /-- `FSEL_WRITE`: write of `FSEL[i]` (R92). -/
  | fselWrite (i : Fin 6) (v : Word)
  /-- `SET_WRITE`: write of `SET[k]` (R93). -/
  | setWrite (k : Fin 2) (v : Word)
  /-- `CLR_WRITE`: write of `CLR[k]` (R94). -/
  | clrWrite (k : Fin 2) (v : Word)
  /-- `SETCLR_READ`: read of logical register `6 + j`, a set or clear register (R91). -/
  | setclrRead (j : Fin 4)
  /-- `reg_read(i)` (R90, R91; any other index R95). -/
  | regRead (i : Nat)
  /-- `reg_write(i, v)` (R92, R93, R94; any other index R95). -/
  | regWrite (i : Nat) (v : Word)
  /-- `configure(pin, direction)`; the pin is an integer (R100, R103). -/
  | configure (pin : Int) (d : Direction)
  /-- `set_level(pin, level)`; the pin is an integer (R102, R103). -/
  | setLevel (pin : Int) (l : Level)
  /-- `settle()` (R110). -/
  | settle
  /-- `send_bit(value)` (R111). -/
  | sendBit (v : Bool)
  /-- `send_frame(bits)`, element 0 sent first (R113). -/
  | sendFrame (bits : List Bool)
  /-- `write(channel, magnitude)`; the magnitude is an integer (R121, R122). -/
  | write (ch : Channel) (m : Int)
  /-- `store_volume(text)` (R132). -/
  | storeVolume (t : Text)
  /-- `store_bass(text)` (R133). -/
  | storeBass (t : Text)
  /-- `store_on(text)` (R134). -/
  | storeOn (t : Text)
  /-- `show_volume()` (R135). -/
  | showVolume
  /-- `show_bass()` (R135). -/
  | showBass
  /-- `show_on()` (R135). -/
  | showOn
  /-- `start()` (R140). -/
  | start
  /-- `stop()` (R142). -/
  | stop
  /-- `lock_acquire()` (R144). -/
  | lockAcquire
  /-- `lock_release()` (R145). -/
  | lockRelease
  deriving DecidableEq, Repr

/-- Why a packet is no call: the decoder's rejections, each by its own name (R83). -/
inductive DecodeError
  /-- The packet is empty. -/
  | empty
  /-- The last two bits of a frame word are not the constant padding `00` (R81, R83). -/
  | framePadding
  /-- The 3-bit function code is one of the six reserved ones (R72, R83). -/
  | reservedCode
  /-- The first byte is neither a frame command, nor a function code, nor one of the model's call codes. -/
  | unknownCall (b : Byte)
  /-- The packet has not the length its first byte asks for. -/
  | badLength
  /-- An operand byte holds a value that its operand does not have. -/
  | badOperand
  deriving DecidableEq, Repr

end Sys2Proof
end

