-- ==== Sys2Proof/WellFormed.lean ====
section
/-! DEFINITION. WellFormed.lean: which operations a call packet can carry (notes/assumptions/8.md). The operands that are
typed (a magnitude field, a register number, a level) need no check; the three kinds of number that a caller may
hand over at any value do: an integer operand has 32 bits in a packet, a logical register index and the pin of a
function code have one byte. -/

namespace Sys2Proof

/-- An integer operand that a packet's four bytes can carry. -/
def intFits (n : Int) : Bool := decide (-2147483648 ≤ n ∧ n ≤ 2147483647)

/-- A number that a packet's one byte can carry. -/
def byteFits (n : Nat) : Bool := decide (n < 256)

/-- The operation can be written as a packet. Whether the block gives it a meaning (a pin in 0..59, a magnitude in
0..1023, an index in 0..9) is not asked here: a packet with such an operand reaches the operation, which refuses it. -/
def Instr.wellFormed : Instr → Bool
  | .loadA _ => true
  | .loadB _ => true
  | .loadAB _ => true
  | .fselInput pin => byteFits pin
  | .fselOutput pin => byteFits pin
  | .fselRead _ => true
  | .fselWrite _ _ => true
  | .setWrite _ _ => true
  | .clrWrite _ _ => true
  | .setclrRead _ => true
  | .regRead i => byteFits i
  | .regWrite i _ => byteFits i
  | .configure pin _ => intFits pin
  | .setLevel pin _ => intFits pin
  | .settle => true
  | .sendBit _ => true
  | .sendFrame _ => true
  | .write _ m => intFits m
  | .storeVolume _ => true
  | .storeBass _ => true
  | .storeOn _ => true
  | .showVolume => true
  | .showBass => true
  | .showOn => true
  | .start => true
  | .stop => true
  | .lockAcquire => true
  | .lockRelease => true

end Sys2Proof
end

