-- ==== Sys2Proof/Decode.lean ====
section
/-! DEFINITION. Decode.lean: a call packet read as an operation, and an operation written as a packet.

A packet is one whole message, a list of bytes. Two row formats of spec/opcode_table.json have bits of their own, and
a packet of theirs is those bits:

* `FRAME16` (R77, R79): the 16-bit frame word, the byte that is sent first (bits 15:8) first;
* `FSELFIELD` (R72): the 3-bit function code in a byte whose five high bits are 0, then one byte with the pin.

The other rows have no encoding in any source (R87). Their packets are the model's own: a call code, then the operands,
numbers with their most significant byte first, a text or a bit sequence as the rest of the packet
(DESIGN CHOICE, notes/assumptions/8.md; the byte order of a frame word is DEDUCED, notes/assumptions/9.md). -/

namespace Sys2Proof

/-! ### Operands as bytes -/

/-- The four bytes of a word, most significant first. -/
def wordBytes (v : Word) : List Byte :=
  [v.extractLsb' 24 8, v.extractLsb' 16 8, v.extractLsb' 8 8, v.extractLsb' 0 8]

/-- The word whose bytes, most significant first, are these. -/
def wordOfBytes (b3 b2 b1 b0 : Byte) : Word := b3 ++ b2 ++ b1 ++ b0

/-- An integer operand as four bytes, two's complement. -/
def intBytes (n : Int) : List Byte := wordBytes (BitVec.ofInt 32 n)

/-- A boolean as one byte. -/
def boolByte (b : Bool) : Byte := if b then 1#8 else 0#8

/-- The boolean a byte stands for. -/
def boolOfByte (b : Byte) : Option Bool :=
  if b = 0#8 then some false else if b = 1#8 then some true else none

/-- A bit sequence, one byte a bit. -/
def boolsOfBytes : List Byte → Option (List Bool)
  | [] => some []
  | b :: bs =>
    match boolOfByte b, boolsOfBytes bs with
    | some v, some vs => some (v :: vs)
    | _, _ => none

/-- A direction as one byte. -/
def directionByte : Direction → Byte
  | .input => 0#8
  | .output => 1#8

/-- The direction a byte stands for. -/
def directionOfByte (b : Byte) : Option Direction :=
  if b = 0#8 then some .input else if b = 1#8 then some .output else none

/-- A level as one byte. -/
def levelByte : Level → Byte
  | .low => 0#8
  | .high => 1#8

/-- The level a byte stands for. -/
def levelOfByte (b : Byte) : Option Level :=
  if b = 0#8 then some .low else if b = 1#8 then some .high else none

/-- A channel as one byte. -/
def channelByte : Channel → Byte
  | .A => 0#8
  | .B => 1#8
  | .AB => 2#8

/-- The channel a byte stands for. -/
def channelOfByte (b : Byte) : Option Channel :=
  if b = 0#8 then some .A else if b = 1#8 then some .B else if b = 2#8 then some .AB else none

/-- A number below `n` from a byte that holds it counted from `base`. -/
def finOfByte (n base : Nat) (b : Byte) : Option (Fin n) :=
  if h : base ≤ b.toNat ∧ b.toNat - base < n then some ⟨b.toNat - base, h.2⟩ else none

/-! ### The decoder -/

/-- A decoded operand, or the rejection of an operand byte without a value. -/
def operand (o : Option Instr) : Except DecodeError Instr :=
  match o with
  | some i => .ok i
  | none => .error .badOperand

/-- The frame word of a `FRAME16` packet. -/
def frameWordOf (hi lo : Byte) : BitVec 16 := hi ++ lo

/-- A frame word as an operation: the command of bits 15:12 picks the row, bits 1:0 must be the padding (R79, R82). -/
def decodeFrame (w : BitVec 16) : Except DecodeError Instr :=
  if w.extractLsb' 0 2 ≠ 0b00#2 then .error .framePadding
  else if w.extractLsb' 12 4 = 0b1001#4 then .ok (.loadA (w.extractLsb' 2 10))
  else if w.extractLsb' 12 4 = 0b1010#4 then .ok (.loadB (w.extractLsb' 2 10))
  else if w.extractLsb' 12 4 = 0b1111#4 then .ok (.loadAB (w.extractLsb' 2 10))
  else .error (.unknownCall (w.extractLsb' 8 8))

/-- A function code with the pin it is for (R72). -/
def decodeField (code : BitVec 3) (pin : Byte) : Except DecodeError Instr :=
  if code = 0b000#3 then .ok (.fselInput pin.toNat)
  else if code = 0b001#3 then .ok (.fselOutput pin.toNat)
  else .error .reservedCode

/-- A call without operands. -/
def bare (i : Instr) : List Byte → Except DecodeError Instr
  | [] => .ok i
  | _ => .error .badLength

/-- A call whose operand is one byte. -/
def oneByte (f : Byte → Option Instr) : List Byte → Except DecodeError Instr
  | [b] => operand (f b)
  | _ => .error .badLength

/-- A call whose operands are a byte and a word. -/
def byteWord (f : Byte → Word → Option Instr) : List Byte → Except DecodeError Instr
  | [b, b3, b2, b1, b0] => operand (f b (wordOfBytes b3 b2 b1 b0))
  | _ => .error .badLength

/-- A call whose operands are a word and a byte. -/
def wordByte (f : Word → Byte → Option Instr) : List Byte → Except DecodeError Instr
  | [b3, b2, b1, b0, b] => operand (f (wordOfBytes b3 b2 b1 b0) b)
  | _ => .error .badLength

/-- The rows without an encoding of the spec, by the model's call code. -/
def decodeCall (code : Byte) (args : List Byte) : Except DecodeError Instr :=
  match code.toNat with
  | 0x40 => oneByte (fun i => (finOfByte 6 0 i).map .fselRead) args
  | 0x41 => byteWord (fun i v => (finOfByte 6 0 i).map (.fselWrite · v)) args
  | 0x42 => byteWord (fun k v => (finOfByte 2 0 k).map (.setWrite · v)) args
  | 0x43 => byteWord (fun k v => (finOfByte 2 0 k).map (.clrWrite · v)) args
  | 0x44 => oneByte (fun i => (finOfByte 4 6 i).map .setclrRead) args
  | 0x50 => oneByte (fun i => some (.regRead i.toNat)) args
  | 0x51 => byteWord (fun i v => some (.regWrite i.toNat v)) args
  | 0x52 => wordByte (fun n d => (directionOfByte d).map (.configure n.toInt ·)) args
  | 0x53 => wordByte (fun n l => (levelOfByte l).map (.setLevel n.toInt ·)) args
  | 0x54 => bare .settle args
  | 0x55 => oneByte (fun v => (boolOfByte v).map .sendBit) args
  | 0x56 => operand ((boolsOfBytes args).map .sendFrame)
  | 0x57 => byteWord (fun c m => (channelOfByte c).map (.write · m.toInt)) args
  | 0x58 => .ok (.storeVolume args)
  | 0x59 => .ok (.storeBass args)
  | 0x5A => .ok (.storeOn args)
  | 0x5B => bare .showVolume args
  | 0x5C => bare .showBass args
  | 0x5D => bare .showOn args
  | 0x5E => bare .start args
  | 0x5F => bare .stop args
  | 0x60 => bare .lockAcquire args
  | 0x61 => bare .lockRelease args
  | _ => .error (.unknownCall code)

/-- A packet as an operation. The high half of the first byte tells a frame word (its command 9, 10 or 15) from a
function code (0, with bit 3 also 0) and from a call code. -/
def decode : List Byte → Except DecodeError Instr
  | [] => .error .empty
  | b :: rest =>
    if b.extractLsb' 4 4 = 0b1001#4 ∨ b.extractLsb' 4 4 = 0b1010#4 ∨ b.extractLsb' 4 4 = 0b1111#4 then
      match rest with
      | [lo] => decodeFrame (frameWordOf b lo)
      | _ => .error .badLength
    else if b.extractLsb' 3 5 = 0b00000#5 then
      match rest with
      | [pin] => decodeField (b.extractLsb' 0 3) pin
      | _ => .error .badLength
    else decodeCall b rest

/-! ### The encoder -/

/-- A frame word as a packet. -/
def frameBytes (w : BitVec 16) : List Byte := [w.extractLsb' 8 8, w.extractLsb' 0 8]

/-- The frame word of a command and a magnitude: `(command << 12) | (m << 2)` (R77, R79). -/
def encodeFrame (command : BitVec 4) (m : BitVec 10) : List Byte := frameBytes (command ++ m ++ 0b00#2)

/-- A function code and its pin as a packet. -/
def encodeField (code : BitVec 3) (pin : Nat) : List Byte := [0b00000#5 ++ code, BitVec.ofNat 8 pin]

/-- The packet of an operation. -/
def encode : Instr → List Byte
  | .loadA m => encodeFrame 0b1001#4 m
  | .loadB m => encodeFrame 0b1010#4 m
  | .loadAB m => encodeFrame 0b1111#4 m
  | .fselInput pin => encodeField 0b000#3 pin
  | .fselOutput pin => encodeField 0b001#3 pin
  | .fselRead i => [0x40#8, BitVec.ofNat 8 i.val]
  | .fselWrite i v => 0x41#8 :: BitVec.ofNat 8 i.val :: wordBytes v
  | .setWrite k v => 0x42#8 :: BitVec.ofNat 8 k.val :: wordBytes v
  | .clrWrite k v => 0x43#8 :: BitVec.ofNat 8 k.val :: wordBytes v
  | .setclrRead j => [0x44#8, BitVec.ofNat 8 (6 + j.val)]
  | .regRead i => [0x50#8, BitVec.ofNat 8 i]
  | .regWrite i v => 0x51#8 :: BitVec.ofNat 8 i :: wordBytes v
  | .configure pin d => 0x52#8 :: (intBytes pin ++ [directionByte d])
  | .setLevel pin l => 0x53#8 :: (intBytes pin ++ [levelByte l])
  | .settle => [0x54#8]
  | .sendBit v => [0x55#8, boolByte v]
  | .sendFrame bits => 0x56#8 :: bits.map boolByte
  | .write ch m => 0x57#8 :: channelByte ch :: intBytes m
  | .storeVolume t => 0x58#8 :: t
  | .storeBass t => 0x59#8 :: t
  | .storeOn t => 0x5A#8 :: t
  | .showVolume => [0x5B#8]
  | .showBass => [0x5C#8]
  | .showOn => [0x5D#8]
  | .start => [0x5E#8]
  | .stop => [0x5F#8]
  | .lockAcquire => [0x60#8]
  | .lockRelease => [0x61#8]

/-! ### The table's words -/

/-- The packet of an instruction whose bits are `w`, numbered as spec/opcode_table.json numbers them: a word of at most
8 bits is a function code, and its operand byte is 0; a longer one is a word stored most significant byte first. -/
def tablePacket (nbits w : Nat) : List Byte :=
  if nbits ≤ 8 then [BitVec.ofNat 8 w, 0#8]
  else ((List.range ((nbits + 7) / 8)).map fun j => BitVec.ofNat 8 (w >>> (8 * j))).reverse

/-- The instruction the decoder reads from a table word. -/
def decodeTableWord (nbits w : Nat) : Option Instr :=
  match decode (tablePacket nbits w) with
  | .ok i => some i
  | .error _ => none

end Sys2Proof
end

