-- ==== Sys2Proof/Config.lean ====
section
/-! DEFINITION. Config.lean: the parameters of the block (rules R7, R8, R9, R35) and the values that nothing states
(R27, R91, R117, R130). A `Config` is fixed for the machine: `State` holds one and no operation changes it, so a claim
is about every admissible binding (notes/assumptions/1.md). -/

namespace Sys2Proof

/-- `MIRROR_INIT`: the stored parameter values before the first accepted write (R8, R36). -/
structure MirrorInit where
  vol : Nat
  bas : Nat
  onv : Nat
  deriving DecidableEq, Repr

/-- The open and the decided parameters of R8. A role pin is in 0..31 by its type (R9). -/
structure Config where
  /-- `GPIO_BASE`, the physical base address (R8, R51). -/
  gpioBase : Nat
  /-- `OFF(i)`, i in 0..9 (R8, R51). -/
  off : Vector Nat 10
  /-- `FSEL_CODE_INPUT` (R72). -/
  codeInput : BitVec 3
  /-- `FSEL_CODE_OUTPUT` (R72). -/
  codeOutput : BitVec 3
  pinCs : Fin 32
  pinClk : Fin 32
  pinData : Fin 32
  pinEn : Fin 32
  /-- `T_SETTLE` in nanoseconds: a lower bound on a settle wait (R110). -/
  tSettle : Nat
  /-- `CONFIGURE_SPLIT`: `configure` as two read-modify-writes (R101) instead of one (R100). -/
  configureSplit : Bool
  /-- `ON_MAX`: the largest integer `on` accepts (R134). -/
  onMax : Nat
  mirrorInit : MirrorInit
  deriving DecidableEq, Repr

/-- What R8, R9 and R51 ask of the parameters: base and offsets multiples of 4, offsets strictly increasing, the two
codes distinct, the four role pins pairwise distinct, `T_SETTLE` positive, `ON_MAX` at least 1. -/
def Config.wf (cfg : Config) : Bool :=
  cfg.gpioBase % 4 == 0
    && cfg.off.toList.all (fun o => o % 4 == 0)
    && cfg.off[0] < cfg.off[1] && cfg.off[1] < cfg.off[2] && cfg.off[2] < cfg.off[3]
    && cfg.off[3] < cfg.off[4] && cfg.off[4] < cfg.off[5] && cfg.off[5] < cfg.off[6]
    && cfg.off[6] < cfg.off[7] && cfg.off[7] < cfg.off[8] && cfg.off[8] < cfg.off[9]
    && cfg.codeInput != cfg.codeOutput
    && cfg.pinCs != cfg.pinClk && cfg.pinCs != cfg.pinData && cfg.pinCs != cfg.pinEn
    && cfg.pinClk != cfg.pinData && cfg.pinClk != cfg.pinEn && cfg.pinData != cfg.pinEn
    && 0 < cfg.tSettle && 1 ≤ cfg.onMax

/-- The `packed` instance of `OFF` (R51). -/
def offPacked : Vector Nat 10 := #v[0x00, 0x04, 0x08, 0x0C, 0x10, 0x14, 0x18, 0x1C, 0x20, 0x24]

/-- The `gapped` instance of `OFF` (R51; the spec marks it general knowledge). -/
def offGapped : Vector Nat 10 := #v[0x00, 0x04, 0x08, 0x0C, 0x10, 0x14, 0x1C, 0x20, 0x28, 0x2C]

/-- The parameters `State.reset` carries: the default codes (D3), the example binding (D5), the defaults of R8 and,
where R8 gives none, values of the model's own. DESIGN CHOICE: notes/assumptions/1.md, 4.md to 7.md. -/
def Config.default : Config where
  gpioBase := 0
  off := offPacked
  codeInput := 0b000#3
  codeOutput := 0b001#3
  pinCs := 7
  pinClk := 11
  pinData := 10
  pinEn := 25
  tSettle := 50
  configureSplit := false
  onMax := 4294967295
  mirrorInit := { vol := 0, bas := 0, onv := 0 }

/-- The word the `n`-th read of a set or clear register returns: unspecified (R91, D10), a free value. -/
opaque freeLevelRead : Nat → Word

/-- What `parse_dec` makes of the texts that R130 (c) leaves open: a free value (notes/assumptions/16.md). -/
opaque openParse : Text → Option Int

/-- Whether the `n`-th position of a trace has the line of pin `p` high, where the block does not drive that line or
drives an unspecified level: "any value" (U6, U7, R27), a free value (notes/assumptions/41.md). -/
opaque freeLineLevel (n p : Nat) : Bool

/-- The bits the reference receiver holds when watching begins at the `n`-th position of a trace: R117 gives no initial
`s`, a free value (notes/assumptions/42.md). -/
opaque freeCollected (n : Nat) : List Bool

end Sys2Proof
end

