-- ==== Sys2Proof/Machine/State.lean ====
section
/-! DEFINITION. Machine/State.lean: the state of the block (rules R20 to R36), as plain data, the data its operations
record (events, actions, results), the reasons a step stops, and the state at reset. -/

namespace Sys2Proof.Machine

/-! ### The Register Map's registers -/

/-- The ten registers (R21): six function-select, two set, two clear. -/
inductive Reg
  | fsel (k : Fin 6)
  | set (k : Fin 2)
  | clr (k : Fin 2)
  deriving DecidableEq, Repr

/-! ### What a call returns -/

/-- The failures the block reports to a caller: the complete list of R151. -/
inductive Failure
  /-- An attribute write whose text does not parse or is out of range (R150). Raised by `store_*` only. -/
  | invalidArgument (name : Attr)
  /-- The attribute surface cannot be registered (R146). Raised by `start` only. -/
  | initFailure
  deriving DecidableEq, Repr

/-- What a context got back from its last call (notes/assumptions/14.md). -/
inductive Result
  /-- Nothing yet: no call has returned since this one began, or ever. -/
  | pending
  /-- The call returned, with no value. -/
  | done
  /-- A register read returned this word. -/
  | word (v : Word)
  /-- An attribute read returned this text. -/
  | text (t : Text)
  /-- The call ended with this failure. -/
  | failed (f : Failure)
  deriving DecidableEq, Repr

/-! ### Events and actions -/

/-- The events of R33, oldest first in a trace; `c` is the context. -/
inductive Event
  | rd (c : Nat) (r : Reg) (v : Word)
  | wr (c : Nat) (r : Reg) (v : Word)
  | settle (c : Nat)
  | acq (c : Nat)
  | rel (c : Nat)
  | accept (c : Nat) (name : Attr) (v : Nat)
  | reject (c : Nat) (name : Attr)
  deriving DecidableEq, Repr

/-- The indivisible actions the operations' pseudocode is made of (R56, R86). A call is a list of them; another
context's actions may fall between any two (R59). -/
inductive Action
  /-- One register read; the word goes to the context's `temp` (R90, R91). -/
  | read (r : Reg)
  /-- One register write (R92, R93, R94). -/
  | write (r : Reg) (v : Word)
  /-- The write of `configure`, its word computed from `temp` (R100). -/
  | writeField (p : Pin) (d : Direction)
  /-- The first write of the split `configure`: the field cleared in `temp` (R101). -/
  | clearField (p : Pin)
  /-- The second write of the split `configure`: the code or-ed into `temp` (R101). -/
  | orField (p : Pin) (d : Direction)
  /-- One settle wait (R110). -/
  | settle
  /-- Entry of `send_frame`: the frame is fixed and the context stands at `At(0)` (R113, R30). -/
  | enter (bits : List Bool)
  /-- `lock_acquire`, step 0 of `send_frame` (R144). -/
  | acquire
  /-- `lock_release`, the last step of `send_frame` (R145). -/
  | release
  /-- The store of an accepted value and its `Accept` event (R132, R133, R134); that the two are one action is a DESIGN
  CHOICE (notes/assumptions/40.md). -/
  | accept (name : Attr) (v : Nat)
  /-- A rejected value: the `Reject` event and `InvalidArgument` (R132, R133, R134, R156). -/
  | reject (name : Attr)
  /-- `life <- PinsConfigured` (R140). -/
  | pinsConfigured
  /-- Registration of the attribute surface, `life <- Operational` and the return of `start`, which R143 and D23 name as
  one event; or `InitFailure` (R140, R146). -/
  | register
  /-- `stop`: waits until nothing is in flight, then `life <- Uninitialized` (R142). -/
  | teardown
  /-- Return without a value. -/
  | ret
  /-- Return of the word last read (R90, R91). -/
  | retWord
  /-- Return of a stored value as text (R135). -/
  | retText (name : Attr)
  deriving DecidableEq, Repr

/-! ### Contexts -/

/-- The sequencer position (R31). -/
inductive Seq
  | idle
  | at (k : Nat)
  deriving DecidableEq, Repr

/-- What belongs to one calling context: its sequencer position and frame (R30, R31), and the model's own record of
the call it is inside (notes/assumptions/13.md, 14.md, 38.md). -/
structure Ctx where
  /-- `seq[c]` (R31). -/
  seq : Seq
  /-- `frame[c]` (R30). -/
  frame : Option (List Bool)
  /-- The call the context is inside, none between calls. MODEL. -/
  call : Option Instr
  /-- The actions a preempted or waiting call still has to do. MODEL. -/
  work : List Action
  /-- The word last read by the running call: `old` of `configure`, `v` of a register read (R90, R100). MODEL. -/
  temp : Word
  /-- What the last call returned. MODEL. -/
  result : Result
  deriving DecidableEq, Repr

/-- A context that has made no call. -/
def Ctx.fresh : Ctx where
  seq := .idle
  frame := none
  call := none
  work := []
  temp := 0
  result := .pending

/-- The contexts by label, sparse: labels strictly rising, no entry equal to `Ctx.fresh`, which is what an unlisted
label stands for. -/
abbrev Contexts := List (Nat × Ctx)

/-- The record of context `c`. -/
def Contexts.get : Contexts → Nat → Ctx
  | [], _ => Ctx.fresh
  | (d, x) :: rest, c => if d = c then x else Contexts.get rest c

/-- A record put at label `c`, at its place in the order. -/
def Contexts.insert : Contexts → Nat → Ctx → Contexts
  | [], c, x => [(c, x)]
  | (d, y) :: rest, c, x =>
    if c < d then (c, x) :: (d, y) :: rest
    else if c = d then (c, x) :: rest
    else (d, y) :: Contexts.insert rest c x

/-- `x` put at label `c`, keeping the canonical form: a fresh context is not listed. -/
def Contexts.set (m : Contexts) (c : Nat) (x : Ctx) : Contexts :=
  if x = Ctx.fresh then m.filter (fun e => decide (e.1 ≠ c)) else Contexts.insert m c x

/-- Every label of the list is above `lo`. -/
def Contexts.above (lo : Nat) (m : Contexts) : Bool := m.all fun e => decide (lo < e.1)

/-- The canonical form: labels strictly rising and no fresh entry. -/
def Contexts.wf : Contexts → Bool
  | [] => true
  | (d, x) :: rest => decide (x ≠ Ctx.fresh) && Contexts.above d rest && Contexts.wf rest

/-! ### Lifetime, lock, inputs -/

/-- The driver lifetime state machine (R28). -/
inductive Life
  | uninitialized
  | pinsConfigured
  | operational
  deriving DecidableEq, Repr

/-- The mutual-exclusion region (R29). -/
inductive Lock
  | free
  | held (c : Nat)
  deriving DecidableEq, Repr

/-- What callers and the host environment do next (R6, R17; notes/assumptions/11.md to 13.md). A quantum is how many
actions the context does before the environment preempts it; `none` means it is not preempted. -/
inductive Input
  /-- Context `c` makes the call in the packet. -/
  | call (c : Nat) (packet : List Byte) (quantum : Option Nat)
  /-- Context `c`, preempted or waiting, goes on. -/
  | resume (c : Nat) (quantum : Option Nat)
  /-- Context `c` makes a bus read of `n` bytes at a byte address (R13, R53). -/
  | busRead (c : Nat) (addr n : Nat)
  /-- Context `c` makes a bus write of `n` bytes at a byte address (R13, R53). -/
  | busWrite (c : Nat) (addr n : Nat) (v : Word)
  deriving DecidableEq, Repr

/-! ### State -/

/-- The state of the block. The fields from `fsel` to `trace` are the spec's (R20); `cfg` holds its parameters (R35);
the others are the model's own (INVENTORY.md, State). -/
structure State where
  /-- The parameters; no operation changes them (R35). -/
  cfg : Config
  /-- The function-select words (R22). -/
  fsel : Vector Word 6
  /-- The output latches (R25), one bit a pin as in the words of the set and clear registers: bit `p` is 1 when
  `latch[p]` is high. -/
  latch : BitVec 60
  /-- The lifetime state (R28). -/
  life : Life
  /-- The lock of the transmitter (R29). -/
  txLock : Lock
  /-- `seq[c]` and `frame[c]` of every context (R30, R31), with the model's record of its call. -/
  ctxs : Contexts
  /-- Last accepted `volume` (R32). -/
  vol : Nat
  /-- Last accepted `bass` (R32). -/
  bas : Nat
  /-- Last accepted `on`, the integer itself (R32). -/
  onv : Nat
  /-- The events performed so far, oldest first (R20, R33). It goes on over a later lifetime: DESIGN CHOICE
  (notes/assumptions/39.md). -/
  trace : List Event
  /-- The context that runs. MODEL. -/
  cur : Nat
  /-- Actions left to it before it is preempted; `none`: it is not. MODEL. -/
  quantum : Option Nat
  /-- What callers and environment do next. MODEL. -/
  inputs : List Input
  /-- Outcomes of the coming registrations of the attribute surface; when none is listed, it succeeds (U26). MODEL. -/
  surface : List Bool
  /-- How many reads of set or clear registers have drawn a word (R91). MODEL. -/
  draws : Nat
  deriving DecidableEq, Repr

/-! ### Why a step stops -/

/-- The block has no fault that stops it: its two failures are results of a call, after which it takes the next call
(R151, R157), hardware faults are invisible (R153), and there is no interrupt or trap (R154). So nothing raises one. -/
inductive Fault
  deriving DecidableEq, Repr

/-- The calls and accesses that have no meaning. The first five are the refusals of R152; each errs toward unprovable
(safe): the real block does something the sources do not say. -/
inductive Refusal
  /-- A pin outside 0..59: raised by `configure`, `set_level` and the function codes (R103, R152). Safe. -/
  | badPin
  /-- A magnitude outside 0..1023: raised by `write` (R122, R152). Safe. -/
  | badMagnitude
  /-- Not an aligned 32-bit access to one of the ten registers: raised by `reg_read`, `reg_write` and the bus
  (R53, R95, R152). Safe. -/
  | badAccess
  /-- A bit of 31:28 is 1 in a word for `SET[1]` or `CLR[1]`: raised by a register write (R73, R93, R94, R152). Safe. -/
  | reservedBits
  /-- The lifetime state does not allow the call: raised by `start`, `stop`, `store_*`, `show_*`, `write`, the frame
  commands, `send_frame`, `send_bit` (R131, R141, R143, R152). Safe. -/
  | badLifecycle
  /-- `lock_release` by a context that does not hold the lock: its `require` fails (R145). Safe. -/
  | notHolder
  /-- A call by a context that is still inside one: calls are synchronous (R17, R162). Raised by every call. Safe. -/
  | contextBusy
  /-- A packet that is no call (R83): raised by the step. Safe. -/
  | undecodable (e : DecodeError)
  /-- An operation without a meaning in this model: raised by `exec`. No arm raises it. Safe. -/
  | notModelled (mnemonic : String)
  deriving DecidableEq, Repr

/-- What performing one action does. -/
inductive Performed
  /-- It is done; the call goes on. -/
  | did (s : State)
  /-- It is not enabled yet: the context waits (R144, R142). -/
  | wait
  /-- It ended the call: a return or a failure. -/
  | ended (s : State)
  /-- It has no meaning. -/
  | refuse (r : Refusal)

/-! ### Reset -/

/-- The beginning of the first driver lifetime (R36, R170). `life`, `txLock`, the contexts and `trace` are at the
values R36 states; every function-select word is 0 and every latch low, DESIGN CHOICE where the spec says
"unspecified" (notes/assumptions/2.md, 3.md); the mirror is at `MIRROR_INIT` of the default parameters
(notes/assumptions/1.md, 4.md). -/
def State.reset : State where
  cfg := Config.default
  fsel := Vector.replicate 6 0
  latch := 0
  life := .uninitialized
  txLock := .free
  ctxs := []
  vol := Config.default.mirrorInit.vol
  bas := Config.default.mirrorInit.bas
  onv := Config.default.mirrorInit.onv
  trace := []
  cur := 0
  quantum := none
  inputs := []
  surface := []
  draws := 0

end Sys2Proof.Machine
end

