-- ==== Sys2Proof/Machine/Operands.lean ====
section
/-! DEFINITION. Machine/Operands.lean: operand assembly (rules R70 to R86): pins to register positions, the words of
`configure` and `set_level`, the serial frame and its decoding, and the attribute text. -/

namespace Sys2Proof.Machine

/-! ### Registers -/

/-- The logical index of a register in the ordered block (R21). -/
def Reg.index : Reg → Nat
  | .fsel k => k.val
  | .set k => 6 + k.val
  | .clr k => 8 + k.val

/-- The register of a logical index, 0..9 (R21). -/
def regOfIndex (i : Nat) : Option Reg :=
  if h : i < 6 then some (.fsel ⟨i, h⟩)
  else if h : i - 6 < 2 then some (.set ⟨i - 6, h⟩)
  else if h : i - 8 < 2 then some (.clr ⟨i - 8, h⟩)
  else none

/-- The set or clear register `6 + j` (R91). -/
def levelReg (j : Fin 4) : Reg :=
  if h : j.val < 2 then .set ⟨j.val, h⟩ else .clr ⟨j.val - 2, by omega⟩

/-- The byte address of logical register `i`, where there is one: `GPIO_BASE + OFF(i)` (R51). -/
def regAddress (cfg : Config) (r : Reg) : Nat :=
  cfg.gpioBase + cfg.off[r.index]'(by cases r <;> simp only [Reg.index] <;> omega)

/-- The register that an access of `n` bytes at a byte address reaches: only whole aligned registers (R53, R55, R95). -/
def busRegister (cfg : Config) (addr n : Nat) : Option Reg :=
  if n = 4 then
    ((List.range 10).filterMap regOfIndex).find? fun r => decide (regAddress cfg r = addr)
  else none

/-! ### Pins (R74) -/

/-- A pin operand: an integer that must be in 0..59 (R10, R103). -/
def pinOf (p : Int) : Option Pin :=
  if h : 0 ≤ p ∧ p ≤ 59 then some ⟨p.toNat, by omega⟩ else none

/-- A role pin, 0..31, as a register-defined pin. -/
def rolePin (p : Fin 32) : Pin := ⟨p.val, by omega⟩

def csPin (cfg : Config) : Pin := rolePin cfg.pinCs
def clkPin (cfg : Config) : Pin := rolePin cfg.pinClk
def dataPin (cfg : Config) : Pin := rolePin cfg.pinData
def enPin (cfg : Config) : Pin := rolePin cfg.pinEn

/-- `pin div 10` (R74). -/
def fselIndex (p : Pin) : Fin 6 := ⟨p.val / 10, by omega⟩

/-- `(pin mod 10) * 3` (R74). -/
def fselOffset (p : Pin) : Nat := p.val % 10 * 3

/-- `0b111 << fsel_offset(pin)` (R74). -/
def fselMask (p : Pin) : Word := 0b111#32 <<< fselOffset p

/-- `pin div 32` (R74). -/
def levelIndex (p : Pin) : Fin 2 := ⟨p.val / 32, by omega⟩

/-- `pin mod 32` (R74). -/
def levelBit (p : Pin) : Nat := p.val % 32

/-- `1 << level_bit(pin)` (R74, R76). -/
def levelWord (p : Pin) : Word := 1#32 <<< levelBit p

/-- The register that drives a pin to a level: `SET[k]` for high, `CLR[k]` for low (R76). -/
def levelTarget (p : Pin) : Level → Reg
  | .high => .set (levelIndex p)
  | .low => .clr (levelIndex p)

/-! ### Function-select words (R71, R72, R75) -/

/-- `code(direction)` (R14). -/
def code (cfg : Config) : Direction → BitVec 3
  | .input => cfg.codeInput
  | .output => cfg.codeOutput

/-- The field of a pin in a function-select word: bits `[off+2 : off]` (R22, R24). -/
def fieldOf (w : Word) (p : Pin) : BitVec 3 := w.extractLsb' (fselOffset p) 3

/-- A 3-bit code at a pin's field position, other bits 0: `code << off` (R75). -/
def fieldValue (p : Pin) (c : BitVec 3) : Word := c.setWidth 32 <<< fselOffset p

/-- The word with a pin's field cleared: `old & ~mask` (R75, R101). -/
def clearedField (old : Word) (p : Pin) : Word := old &&& ~~~fselMask p

/-- The word `configure` writes: `(old & ~mask) | (code << off)` (R75, R100). -/
def updatedField (old : Word) (p : Pin) (c : BitVec 3) : Word := clearedField old p ||| fieldValue p c

/-! ### Set and clear words (R73) -/

/-- Bits 31:28 of a word for `SET[1]` or `CLR[1]` are reserved (R73). -/
def reservedLevelBits (k : Fin 2) (v : Word) : Bool := decide (k = 1) && decide (v.extractLsb' 28 4 ≠ 0#4)

/-- The word written to register `k` of a pair names pin `p`: bit `p mod 32` is 1 and `p div 32` is `k` (R73). -/
def namesPin (k : Fin 2) (v : Word) (p : Pin) : Bool := decide (levelIndex p = k) && v.getLsbD (levelBit p)

/-- The pins a word written to register `k` of a pair names, as bits 0..59: bit `b` of the word is pin `32k + b` (R73). -/
def namedPins (k : Fin 2) (v : Word) : BitVec 60 := v.setWidth 60 <<< (32 * k.val)

/-- An access that R93 and R94 refuse: a reserved bit in a set or clear word. -/
def reservedWrite : Reg → Word → Bool
  | .fsel _, _ => false
  | .set k, v => reservedLevelBits k v
  | .clr k, v => reservedLevelBits k v

/-! ### The serial frame (R77 to R82) -/

/-- `command(channel)`, the 4-bit load command (R14, R79, R120). -/
def command : Channel → BitVec 4
  | .A => 9#4
  | .B => 10#4
  | .AB => 15#4

/-- `bitsN(v)`: the bits of a field, most significant first (R12). -/
def bitsMsb {n : Nat} (v : BitVec n) : List Bool := (List.range n).map v.getMsbD

/-- A magnitude operand: an integer that must be in 0..1023 (R122). -/
def magnitudeOf (m : Int) : Option (BitVec 10) :=
  if 0 ≤ m ∧ m ≤ 1023 then some (BitVec.ofNat 10 m.toNat) else none

/-- `frame_bits(c, m) = bits4(command(c)) ++ bits10(m) ++ [0, 0]` (R78, R123). -/
def frameBits (ch : Channel) (m : BitVec 10) : List Bool :=
  bitsMsb (command ch) ++ bitsMsb m ++ [false, false]

/-- The frame word `W = (command << 12) | (magnitude << 2)` (R77, R79). -/
def frameWord (ch : Channel) (m : BitVec 10) : BitVec 16 :=
  ((command ch).setWidth 16 <<< 12) ||| (m.setWidth 16 <<< 2)

/-- The number formed by bits, the most significant first. -/
def numberOf (bits : List Bool) : Nat := bits.foldl (fun n b => 2 * n + b.toNat) 0

/-- What 16 samples of the data line mean (R82). -/
structure FrameFields where
  command : Nat
  magnitude : Nat
  pad : Bool × Bool
  deriving DecidableEq, Repr

/-- Reading a frame back from its 16 samples (R82). -/
def frameFields (s : List Bool) : Option FrameFields :=
  if s.length = 16 then
    some { command := numberOf (s.take 4), magnitude := numberOf ((s.drop 4).take 10),
           pad := (s.getD 14 false, s.getD 15 false) }
  else none

/-- The frame is one the encoder can emit (R82). -/
def FrameFields.emittable (f : FrameFields) : Bool :=
  (f.command == 9 || f.command == 10 || f.command == 15) && f.pad == (false, false)

/-! ### Attribute text (R85, R130) -/

/-- A decimal digit. -/
def isDigit (b : Byte) : Bool := decide (0x30 ≤ b.toNat ∧ b.toNat ≤ 0x39)

/-- A sign, `+` or `-`. -/
def isSign (b : Byte) : Bool := b == 0x2B#8 || b == 0x2D#8

/-- White space: space, tab, line feed, vertical tab, form feed, carriage return (notes/assumptions/17.md). -/
def isSpace (b : Byte) : Bool := b == 0x20#8 || decide (0x09 ≤ b.toNat ∧ b.toNat ≤ 0x0D)

/-- The number decimal digits denote. -/
def digitsValue (t : Text) : Nat := t.foldl (fun n b => 10 * n + (b.toNat - 0x30)) 0

/-- The strings R130 (a) requires to parse: digits only, at least one, no leading zero but in `0` itself. -/
def isPlainDecimal (t : Text) : Bool :=
  match t with
  | [] => false
  | [b] => isDigit b
  | b :: rest => isDigit b && b != 0x30#8 && rest.all isDigit

/-- The strings R130 (b) requires not to parse: the empty one, and those with a character that is neither a digit nor
a sign nor white space. -/
def isNonNumeric (t : Text) : Bool :=
  t.isEmpty || t.any fun b => !(isDigit b || isSign b || isSpace b)

/-- A text without the white space around it. -/
def trimmed (t : Text) : Text := ((t.dropWhile isSpace).reverse.dropWhile isSpace).reverse

/-- The text is a negative decimal number, with blanks around it or none: a `-`, then digits that are not all `0`. -/
def isNegative (t : Text) : Bool :=
  match trimmed t with
  | [] => false
  | b :: digits => b == 0x2D#8 && digits.all isDigit && digits.any fun d => d != 0x30#8

/-- What the open parser makes of a negative decimal number: nothing, or some number below 0. "-1" is rejected, by the
parser or by the range check (R130, R132 to R134, R138; notes/assumptions/16.md). -/
def negativeParse (t : Text) : Option Int := (openParse t).map fun v => -(v.natAbs : Int) - 1

/-- `parse_dec` (R130): (a) and (b) as required; a negative decimal number never denotes one in a range; the rest the
open function. -/
def parseDec (t : Text) : Option Int :=
  if isPlainDecimal t then some (digitsValue t)
  else if isNonNumeric t then none
  else if isNegative t then negativeParse t
  else openParse t

/-- The digits of a number, the least significant first; `fuel` bounds their count. -/
def digitsLow : Nat → Nat → Text
  | 0, _ => []
  | fuel + 1, n =>
    BitVec.ofNat 8 (0x30 + n % 10) :: (if n < 10 then [] else digitsLow fuel (n / 10))

/-- `decimal(n)`: the minimal decimal string (R85, R135). -/
def decimal (n : Nat) : Text := (digitsLow (n.log2 + 1) n).reverse

/-- What an attribute read returns: the decimal string and a line feed (R85, R135). -/
def shownText (n : Nat) : Text := decimal n ++ [lineFeed]

/-- The largest value an attribute accepts (R132, R133, R134). -/
def attrMax (cfg : Config) : Attr → Nat
  | .volume => 1023
  | .bass => 1023
  | .on => cfg.onMax

/-- Parsing and range check of an attribute write: the accepted value, if there is one (R132, R133, R134, R155). -/
def acceptedValue (cfg : Config) (name : Attr) (t : Text) : Option Nat :=
  match parseDec t with
  | none => none
  | some v => if v < 0 ∨ (attrMax cfg name : Int) < v then none else some v.toNat

/-- An integer handed to `set_level`: zero is low, any other high (R102 corner case 5, R134). -/
def levelOfNat (v : Nat) : Level := if v ≠ 0 then .high else .low

end Sys2Proof.Machine
end

