-- ==== Sys2Proof/Machine/Flags.lean ====
section
/-! DEFINITION. Machine/Flags.lean: the block has no condition codes; its only status flag is `life` (rule R28), and the
views of the state that decide what is allowed are here: a pin's function, direction and line (R24, R27), the record
of a context, the lifetime checks (R131, R141, R143), and whether something is in flight (R142). -/

namespace Sys2Proof.Machine

/-! ### Views of the Register Map -/

/-- `latch[p]` (R25). -/
def State.latchAt (s : State) (p : Pin) : Level := Level.ofBool (s.latch.getLsbD p.val)

/-- `fn(p)`, the function code of a pin (R24). -/
def State.fn (s : State) (p : Pin) : BitVec 3 := fieldOf (s.fsel[(fselIndex p).val]) p

/-- What a function code selects (R23, R24). -/
inductive PinDir
  | output
  | input
  | reserved
  deriving DecidableEq, Repr

/-- `dir(p)` (R24). -/
def State.dir (s : State) (p : Pin) : PinDir :=
  if s.fn p = s.cfg.codeOutput then .output
  else if s.fn p = s.cfg.codeInput then .input
  else .reserved

/-- What the outside sees on a pin (R27): a level the block drives, no drive at all, or an unspecified level. -/
inductive Line
  | driven (l : Level)
  | undriven
  | unspecified
  deriving DecidableEq, Repr

/-- `line(p)` (R27). -/
def State.line (s : State) (p : Pin) : Line :=
  match s.dir p with
  | .output => .driven (s.latchAt p)
  | .input => .undriven
  | .reserved => .unspecified

/-! ### Contexts -/

/-- The record of context `c`. -/
def State.ctx (s : State) (c : Nat) : Ctx := s.ctxs.get c

/-- Some context is inside a call of a kind. -/
def State.anyCall (s : State) (kind : Instr → Bool) : Bool :=
  s.ctxs.any fun e => match e.2.call with
    | some i => kind i
    | none => false

/-- The boundary calls (R131 to R135). -/
def isBoundary : Instr → Bool
  | .storeVolume _ => true
  | .storeBass _ => true
  | .storeOn _ => true
  | .showVolume => true
  | .showBass => true
  | .showOn => true
  | _ => false

/-- `start()`. -/
def isStart : Instr → Bool
  | .start => true
  | _ => false

/-! ### The lifetime flag -/

/-- `life = Operational`: the precondition of the boundary and of a transmission (R131, R143, R152). -/
def State.operational (s : State) : Bool := decide (s.life = .operational)

/-- What `start` requires: `life = Uninitialized`, and no other `start` in progress (R141, U19). -/
def State.startable (s : State) : Bool := decide (s.life = .uninitialized) && !s.anyCall isStart

/-- What keeps `stop` waiting: the lock is held, a context stands inside `send_frame`, or a boundary call is in
progress (R142, D24). -/
def State.inFlight (s : State) : Bool :=
  decide (s.txLock ≠ .free) || s.ctxs.any (fun e => decide (e.2.seq ≠ .idle)) || s.anyCall isBoundary

end Sys2Proof.Machine
end

