-- ==== Sys2Proof/Machine/Ops.lean ====
section
/-! DEFINITION. Machine/Ops.lean: the named operations every meaning is made of: the register accesses (rules R90 to
R94), the lock (R144, R145), the mirror (R32), the failures and the returns (R151, R156, R157), one action of a
context (R56, R59), and the run of a call until it returns, waits or is preempted (R17, R110). -/

namespace Sys2Proof.Machine

/-! ### Records and trace -/

/-- `emit e` (R13, R33). -/
def State.emit (s : State) (e : Event) : State := { s with trace := s.trace ++ [e] }

/-- The record of context `c` replaced. -/
def State.setCtx (s : State) (c : Nat) (x : Ctx) : State := { s with ctxs := s.ctxs.set c x }

/-- The record of context `c` changed. -/
def State.mapCtx (s : State) (c : Nat) (f : Ctx → Ctx) : State := s.setCtx c (f (s.ctx c))

/-- A word read goes to the local variable of the running call. -/
def State.keep (s : State) (c : Nat) (v : Word) : State := s.mapCtx c fun x => { x with temp := v }

/-- `pc <- At(k+1)` after a step of `send_frame` behind the acquire (R31). Between calls, in a call that sends no
frame, and before the lock is held, the position stands. -/
def Ctx.advance (x : Ctx) : Ctx :=
  match x.frame, x.seq with
  | some _, .at (k + 1) => { x with seq := .at (k + 2) }
  | _, _ => x

/-- The sequencer of context `c` advances (R31). -/
def State.advance (s : State) (c : Nat) : State := s.mapCtx c Ctx.advance

/-- The lock in another state (R29). -/
def State.putLock (s : State) (l : Lock) : State := { s with txLock := l }

/-- Another lifetime state (R28). -/
def State.putLife (s : State) (l : Life) : State := { s with life := l }

/-- The outcomes of the registrations still to come. -/
def State.putSurface (s : State) (rest : List Bool) : State := { s with surface := rest }

/-- One more word was drawn (R91). -/
def State.drawn (s : State) : State := { s with draws := s.draws + 1 }

/-! ### Register accesses (R90 to R94) -/

/-- `fsel[k] <- v`, all 32 bits (R92). -/
def State.putFsel (s : State) (k : Fin 6) (v : Word) : State := { s with fsel := s.fsel.set k.val v }

/-- The latches of the named pins at a level, the others as they were (R93, R94). -/
def driven (latch named : BitVec 60) : Level → BitVec 60
  | .high => latch ||| named
  | .low => latch &&& ~~~named

/-- The latches a word names go to a level, all at one point; the others keep theirs (R93, R94). -/
def State.drive (s : State) (k : Fin 2) (v : Word) (l : Level) : State :=
  { s with latch := driven s.latch (namedPins k v) l }

/-- What a register write does to the stored words and the latches (R92, R93, R94). -/
def State.applyWrite (s : State) : Reg → Word → State
  | .fsel k, v => s.putFsel k v
  | .set k, v => s.drive k v .high
  | .clr k, v => s.drive k v .low

/-- One register write by context `c`, with its event (R92, R93, R94); in a frame, one step of it (R31). -/
def State.regWrite (s : State) (c : Nat) (r : Reg) (v : Word) : State :=
  ((s.applyWrite r v).emit (.wr c r v)).advance c

/-- One register read by context `c`: a function-select register returns its stored word (R90); a set or clear
register returns an unspecified word, a fresh draw (R91). -/
def State.regRead (s : State) (c : Nat) (r : Reg) : State :=
  match r with
  | .fsel k => (s.emit (.rd c r (s.fsel[k.val]))).keep c (s.fsel[k.val])
  | .set _ => (s.drawn.emit (.rd c r (freeLevelRead s.draws))).keep c (freeLevelRead s.draws)
  | .clr _ => (s.drawn.emit (.rd c r (freeLevelRead s.draws))).keep c (freeLevelRead s.draws)

/-- A register write, or the refusal of reserved bits (R93, R94, R152). -/
def State.tryWrite (s : State) (c : Nat) (r : Reg) (v : Word) : Performed :=
  if reservedWrite r v then .refuse .reservedBits else .did (s.regWrite c r v)

/-! ### The sequencer and the lock (R31, R113, R144, R145) -/

/-- Context `c` stands before step 0 of a frame (R31). -/
def State.await (s : State) (c : Nat) : State := s.mapCtx c fun x => { x with seq := .at 0 }

/-- `frame[c] <- bits`, and context `c` stands before step 0 (R30, R113). -/
def State.enterFrame (s : State) (c : Nat) (bits : List Bool) : State :=
  s.mapCtx c fun x => { x with seq := .at 0, frame := some bits }

/-- The indivisible test and assignment of `lock_acquire` (R144). -/
def State.acquire (s : State) (c : Nat) : Performed :=
  if s.txLock = .free then
    .did (((s.putLock (.held c)).emit (.acq c)).mapCtx c fun x => { x with seq := .at 1 })
  else .wait

/-- `lock_release` (R145). The frame is over with it (R30). -/
def State.release (s : State) (c : Nat) : Performed :=
  if s.txLock = .held c then
    .did (((s.putLock .free).emit (.rel c)).mapCtx c fun x => { x with seq := .idle, frame := none })
  else .refuse .notHolder

/-! ### The mirror (R32) -/

/-- The stored value of an attribute. -/
def State.stored (s : State) : Attr → Nat
  | .volume => s.vol
  | .bass => s.bas
  | .on => s.onv

/-- The stored value of an attribute replaced. -/
def State.store (s : State) (name : Attr) (v : Nat) : State :=
  match name with
  | .volume => { s with vol := v }
  | .bass => { s with bas := v }
  | .on => { s with onv := v }

/-- The mirror at `MIRROR_INIT`: what a lifetime begins with (R36, R142). The trace is not emptied when a later lifetime
begins: DESIGN CHOICE (notes/assumptions/39.md). -/
def State.initMirror (s : State) : State :=
  { s with vol := s.cfg.mirrorInit.vol, bas := s.cfg.mirrorInit.bas, onv := s.cfg.mirrorInit.onv }

/-! ### Returns and failures (R151, R156, R157) -/

/-- The call of context `c` is over and its caller has the result. Control goes nowhere else: the block has no handler
and no return from a failure (R156, R157). -/
def State.finish (s : State) (c : Nat) (r : Result) : State :=
  s.mapCtx c fun x => { x with call := none, work := [], temp := 0, result := r }

/-- TAKING A FAILURE, the block's counterpart of trap entry (R13 `raise`, R156): the call ends at once, the failure is
returned to its caller, nothing is saved, no mode changes and no later action of the call runs. -/
def State.raise (s : State) (c : Nat) (f : Failure) : State := s.finish c (.failed f)

/-- Registration of the attribute surface, the last action of `start`: its outcome is the next of `surface`, success
when none is listed. With success `start` returns and the block is operational, one event (R143, D23); failure raises
`InitFailure`, `life` goes back and the registers stay (R140, R146). -/
def State.registerSurface (s : State) (c : Nat) : Performed :=
  if s.surface.head? = some false then
    .ended (((s.putLife .uninitialized).putSurface s.surface.tail).raise c .initFailure)
  else .ended (((s.putLife .operational).putSurface s.surface.tail).finish c .done)

/-- `stop`: requires `Operational`, waits while something is in flight, then ends the lifetime (R142). -/
def State.tearDown (s : State) : Performed :=
  if s.operational = false then .refuse .badLifecycle
  else if s.inFlight then .wait
  else .did (s.putLife .uninitialized)

/-! ### One action of a context -/

/-- Context `c` performs one action (R56, R59). That an accepted value and its `Accept` event are one action, with nothing
between them, is a DESIGN CHOICE (notes/assumptions/40.md). -/
def perform (c : Nat) (a : Action) (s : State) : Performed :=
  match a with
  | .read r => .did (s.regRead c r)
  | .write r v => s.tryWrite c r v
  | .writeField p d => s.tryWrite c (.fsel (fselIndex p)) (updatedField (s.ctx c).temp p (code s.cfg d))
  | .clearField p => s.tryWrite c (.fsel (fselIndex p)) (clearedField (s.ctx c).temp p)
  | .orField p d => s.tryWrite c (.fsel (fselIndex p)) ((s.ctx c).temp ||| fieldValue p (code s.cfg d))
  | .settle => .did ((s.emit (.settle c)).advance c)
  | .enter bits => .did (s.enterFrame c bits)
  | .acquire => s.acquire c
  | .release => s.release c
  | .accept name v => .did ((s.store name v).emit (.accept c name v))
  | .reject name => .ended ((s.emit (.reject c name)).raise c (.invalidArgument name))
  | .pinsConfigured => .did (s.putLife .pinsConfigured)
  | .register => s.registerSurface c
  | .teardown => s.tearDown
  | .ret => .ended (s.finish c .done)
  | .retWord => .ended (s.finish c (.word (s.ctx c).temp))
  | .retText name => .ended (s.finish c (.text (shownText (s.stored name))))

/-! ### The run of a call -/

/-- The call of context `c` stops here, preempted or waiting, with this work left. -/
def State.suspend (s : State) (c : Nat) (work : List Action) : State := s.mapCtx c fun x => { x with work := work }

/-- One action of a quantum is used up. -/
def spend (q : Option Nat) : Option Nat := q.map (· - 1)

/-- Context `c` performs its work, in order, until the call ends, an action has to wait, or the quantum is used up: the
environment's preemption, whose only effect is that the rest is done later (R17, R59 (a), R110). -/
def runWork (c : Nat) : List Action → Option Nat → State → Host.Outcome State Fault Refusal
  | [], _, s => .next s
  | a :: rest, q, s =>
    if q = some 0 then .next (s.suspend c (a :: rest))
    else
      match perform c a s with
      | .did s' => runWork c rest (spend q) s'
      | .wait => .next (s.suspend c (a :: rest))
      | .ended s' => .next s'
      | .refuse r => .refused r

/-- The running context is now inside a call. -/
def State.beginCall (s : State) (i : Instr) : State :=
  s.mapCtx s.cur fun x => { x with call := some i, result := .pending }

/-- The running context makes a call: it must not be inside one (calls are synchronous, R17, R162); `entry` is what
happens at the call itself, `work` what the call then does. -/
def runCall (i : Instr) (entry : State → State) (work : List Action) (s : State) : Host.Outcome State Fault Refusal :=
  if (s.ctx s.cur).call = none then runWork s.cur work s.quantum (entry (s.beginCall i))
  else .refused .contextBusy

/-- A preempted or waiting call goes on. A context with no work left does nothing. -/
def resumeCall (s : State) : Host.Outcome State Fault Refusal := runWork s.cur (s.ctx s.cur).work s.quantum s

/-! ### The sequences of R86 -/

/-- `set_level(p, l)`: one register write (R102). -/
def setLevelActions (p : Pin) (l : Level) : List Action := [.write (levelTarget p l) (levelWord p)]

/-- `configure(p, d)`: one read and one write (R100), or two of each when `CONFIGURE_SPLIT` is true (R101). -/
def configureActions (cfg : Config) (p : Pin) (d : Direction) : List Action :=
  if cfg.configureSplit then
    [.read (.fsel (fselIndex p)), .clearField p, .read (.fsel (fselIndex p)), .orField p d]
  else [.read (.fsel (fselIndex p)), .writeField p d]

/-- `send_bit(v)`: data, clock high, clock low, a settle wait after each (R111). -/
def sendBitActions (cfg : Config) (v : Bool) : List Action :=
  setLevelActions (dataPin cfg) (Level.ofBool v) ++ [.settle]
    ++ setLevelActions (clkPin cfg) .high ++ [.settle]
    ++ setLevelActions (clkPin cfg) .low ++ [.settle]

/-- `send_frame(bits)` after its entry: steps 0 to `4 + 6n` of R31 (R113). -/
def frameActions (cfg : Config) (bits : List Bool) : List Action :=
  [.acquire] ++ setLevelActions (csPin cfg) .low ++ [.settle]
    ++ bits.flatMap (sendBitActions cfg)
    ++ setLevelActions (csPin cfg) .high ++ [.release]

/-- A whole frame sent by a direct call: it is entered at the call, and the call then returns. -/
def runFrame (i : Instr) (bits : List Bool) (s : State) : Host.Outcome State Fault Refusal :=
  runCall i (fun t => t.enterFrame t.cur bits) (frameActions s.cfg bits ++ [.ret]) s

/-- What an accepted attribute write sends: a frame for `volume` (channel A) and `bass` (channel B), the enable level
for `on` (R132, R133, R134). -/
def forwardActions (cfg : Config) (name : Attr) (v : Nat) : List Action :=
  match name with
  | .volume => .enter (frameBits .A (BitVec.ofNat 10 v)) :: frameActions cfg (frameBits .A (BitVec.ofNat 10 v))
  | .bass => .enter (frameBits .B (BitVec.ofNat 10 v)) :: frameActions cfg (frameBits .B (BitVec.ofNat 10 v))
  | .on => setLevelActions (enPin cfg) (levelOfNat v)

/-- `store_*`: store and `Accept`, then forward; or `Reject` and `InvalidArgument`, before any hardware access
(R132, R133, R134, R136). -/
def storeActions (cfg : Config) (name : Attr) (t : Text) : List Action :=
  match acceptedValue cfg name t with
  | some v => .accept name v :: (forwardActions cfg name v ++ [.ret])
  | none => [.reject name]

/-- `start()`: the four pins made outputs, chip-select high, clock low, then `PinsConfigured`, and the registration with
which `start` returns and the block is `Operational` (R140, R143). -/
def startActions (cfg : Config) : List Action :=
  configureActions cfg (csPin cfg) .output ++ configureActions cfg (clkPin cfg) .output
    ++ configureActions cfg (dataPin cfg) .output ++ configureActions cfg (enPin cfg) .output
    ++ setLevelActions (csPin cfg) .high ++ setLevelActions (clkPin cfg) .low
    ++ [.pinsConfigured, .register]

end Sys2Proof.Machine
end

