-- ==== Sys2Proof/Machine/Boundary.lean ====
section
/-! DEFINITION. Machine/Boundary.lean: the Parameter State Mirror (rules R130 to R138). Every call needs
`life = Operational`; otherwise the attribute surface is not registered and the call has no step (R131). -/

namespace Sys2Proof.Machine

/-- `store_volume(text)`: stores and sends to channel A, or rejects (R132). -/
def execStoreVolume (t : Text) (s : State) : Host.Outcome State Fault Refusal :=
  if s.operational then runCall (.storeVolume t) id (storeActions s.cfg .volume t) s else .refused .badLifecycle

/-- `store_bass(text)`: stores and sends to channel B, or rejects (R133). -/
def execStoreBass (t : Text) (s : State) : Host.Outcome State Fault Refusal :=
  if s.operational then runCall (.storeBass t) id (storeActions s.cfg .bass t) s else .refused .badLifecycle

/-- `store_on(text)`: stores and sets the enable level, or rejects (R134). -/
def execStoreOn (t : Text) (s : State) : Host.Outcome State Fault Refusal :=
  if s.operational then runCall (.storeOn t) id (storeActions s.cfg .on t) s else .refused .badLifecycle

/-- `show_volume()` (R135). -/
def execShowVolume (s : State) : Host.Outcome State Fault Refusal :=
  if s.operational then runCall .showVolume id [.retText .volume] s else .refused .badLifecycle

/-- `show_bass()` (R135). -/
def execShowBass (s : State) : Host.Outcome State Fault Refusal :=
  if s.operational then runCall .showBass id [.retText .bass] s else .refused .badLifecycle

/-- `show_on()` (R135). -/
def execShowOn (s : State) : Host.Outcome State Fault Refusal :=
  if s.operational then runCall .showOn id [.retText .on] s else .refused .badLifecycle

end Sys2Proof.Machine
end

