-- ==== Sys2Proof/Machine/Encoder.lean ====
section
/-! DEFINITION. Machine/Encoder.lean: the DAC Command Encoder and its three frame commands (rules R79, R120 to R124).
Called directly they need `life = Operational` (R152, U22). -/

namespace Sys2Proof.Machine

/-- `write(channel, magnitude)` (R121); a magnitude outside 0..1023 is refused (R122). -/
def execWrite (ch : Channel) (m : Int) (s : State) : Host.Outcome State Fault Refusal :=
  if s.operational then
    match magnitudeOf m with
    | some mag => runFrame (.write ch m) (frameBits ch mag) s
    | none => .refused .badMagnitude
  else .refused .badLifecycle

/-- `LOAD_A`: the bits of the frame word `0x9000 | (m << 2)`, bit 15 first (R77, R79, R121). -/
def execLoadA (m : BitVec 10) (s : State) : Host.Outcome State Fault Refusal :=
  if s.operational then runFrame (.loadA m) (bitsMsb (frameWord .A m)) s else .refused .badLifecycle

/-- `LOAD_B`: the bits of the frame word `0xA000 | (m << 2)`, bit 15 first (R77, R79, R121). -/
def execLoadB (m : BitVec 10) (s : State) : Host.Outcome State Fault Refusal :=
  if s.operational then runFrame (.loadB m) (bitsMsb (frameWord .B m)) s else .refused .badLifecycle

/-- `LOAD_AB`: the bits of the frame word `0xF000 | (m << 2)`, bit 15 first (R77, R79, R121). -/
def execLoadAB (m : BitVec 10) (s : State) : Host.Outcome State Fault Refusal :=
  if s.operational then runFrame (.loadAB m) (bitsMsb (frameWord .AB m)) s else .refused .badLifecycle

end Sys2Proof.Machine
end

