-- ==== Sys2Proof/Machine/GpioPrimitives.lean ====
section
/-! DEFINITION. Machine/GpioPrimitives.lean: the GPIO Controller's primitives and the function codes (rules R23, R72,
R100 to R106). They have no lifetime check: `start` uses them before the block is operational, and R152 does not
list them under `BadLifecycle`. -/

namespace Sys2Proof.Machine

/-- `configure(pin, direction)` (R100, R101); a pin outside 0..59 is refused (R103). -/
def execConfigure (pin : Int) (d : Direction) (s : State) : Host.Outcome State Fault Refusal :=
  match pinOf pin with
  | some p => runCall (.configure pin d) id (configureActions s.cfg p d ++ [.ret]) s
  | none => .refused .badPin

/-- `set_level(pin, level)` (R102); a pin outside 0..59 is refused (R103). -/
def execSetLevel (pin : Int) (l : Level) (s : State) : Host.Outcome State Fault Refusal :=
  match pinOf pin with
  | some p => runCall (.setLevel pin l) id (setLevelActions p l ++ [.ret]) s
  | none => .refused .badPin

/-- `FSEL_INPUT` at a pin: the input code is placed in the pin's field, which only the read-modify-write of R75 can do
(R23, R72, R100; notes/assumptions/10.md). -/
def execFselInput (pin : Nat) (s : State) : Host.Outcome State Fault Refusal :=
  match pinOf pin with
  | some p => runCall (.fselInput pin) id (configureActions s.cfg p .input ++ [.ret]) s
  | none => .refused .badPin

/-- `FSEL_OUTPUT` at a pin: the output code is placed in the pin's field (R23, R72, R100; notes/assumptions/10.md). -/
def execFselOutput (pin : Nat) (s : State) : Host.Outcome State Fault Refusal :=
  match pinOf pin with
  | some p => runCall (.fselOutput pin) id (configureActions s.cfg p .output ++ [.ret]) s
  | none => .refused .badPin

end Sys2Proof.Machine
end

