-- ==== Sys2Proof/Machine/Lifecycle.lean ====
section
/-! DEFINITION. Machine/Lifecycle.lean: `start`, `stop` and the two steps of the mutual-exclusion region (rules R140 to
R146). -/

namespace Sys2Proof.Machine

/-- `start()` (R140, R146); refused in any lifetime state but `Uninitialized`, and while another `start` is in progress
(R141, U19). -/
def execStart (s : State) : Host.Outcome State Fault Refusal :=
  if s.startable then runCall .start id (startActions s.cfg) s else .refused .badLifecycle

/-- `stop()` (R142); its lifetime check and its wait are one action. -/
def execStop (s : State) : Host.Outcome State Fault Refusal := runCall .stop id [.teardown, .ret] s

/-- `lock_acquire()` on its own: the context stands at `At(0)`, then step 0 (R62, R144). -/
def execLockAcquire (s : State) : Host.Outcome State Fault Refusal :=
  runCall .lockAcquire (fun t => t.await t.cur) [.acquire, .ret] s

/-- `lock_release()` on its own (R145). -/
def execLockRelease (s : State) : Host.Outcome State Fault Refusal := runCall .lockRelease id [.release, .ret] s

end Sys2Proof.Machine
end

