-- ==== Sys2Proof/Machine/RegisterAccess.lean ====
section
/-! DEFINITION. Machine/RegisterAccess.lean: the register-level operations (rules R90 to R96). -/

namespace Sys2Proof.Machine

/-- `FSEL_READ i`: returns `fsel[i]` (R90). -/
def execFselRead (i : Fin 6) (s : State) : Host.Outcome State Fault Refusal :=
  runCall (.fselRead i) id [.read (.fsel i), .retWord] s

/-- `FSEL_WRITE i, v`: `fsel[i] <- v` (R92). -/
def execFselWrite (i : Fin 6) (v : Word) (s : State) : Host.Outcome State Fault Refusal :=
  runCall (.fselWrite i v) id [.write (.fsel i) v, .ret] s

/-- `SET_WRITE k, v`: the latches `v` names go high (R93). -/
def execSetWrite (k : Fin 2) (v : Word) (s : State) : Host.Outcome State Fault Refusal :=
  runCall (.setWrite k v) id [.write (.set k) v, .ret] s

/-- `CLR_WRITE k, v`: the latches `v` names go low (R94). -/
def execClrWrite (k : Fin 2) (v : Word) (s : State) : Host.Outcome State Fault Refusal :=
  runCall (.clrWrite k v) id [.write (.clr k) v, .ret] s

/-- `SETCLR_READ j`: returns an unspecified word, no side effect (R91). -/
def execSetclrRead (j : Fin 4) (s : State) : Host.Outcome State Fault Refusal :=
  runCall (.setclrRead j) id [.read (levelReg j), .retWord] s

/-- `reg_read(i)`: the read of logical register `i` (R90, R91); an index outside 0..9 is refused (R95). -/
def execRegRead (i : Nat) (s : State) : Host.Outcome State Fault Refusal :=
  match regOfIndex i with
  | some r => runCall (.regRead i) id [.read r, .retWord] s
  | none => .refused .badAccess

/-- `reg_write(i, v)`: the write of logical register `i` (R92, R93, R94); an index outside 0..9 is refused (R95). -/
def execRegWrite (i : Nat) (v : Word) (s : State) : Host.Outcome State Fault Refusal :=
  match regOfIndex i with
  | some r => runCall (.regWrite i v) id [.write r v, .ret] s
  | none => .refused .badAccess

/-- The register-level read that a bus read of a register is (R13, R53). -/
def busReadInstr : Reg → Instr
  | .fsel k => .fselRead k
  | .set k => .setclrRead ⟨k.val, by omega⟩
  | .clr k => .setclrRead ⟨2 + k.val, by omega⟩

/-- The register-level write that a bus write of a register is (R13, R53). -/
def busWriteInstr (v : Word) : Reg → Instr
  | .fsel k => .fselWrite k v
  | .set k => .setWrite k v
  | .clr k => .clrWrite k v

end Sys2Proof.Machine
end

