-- ==== Sys2Proof/Machine/Transmitter.lean ====
section
/-! DEFINITION. Machine/Transmitter.lean: the Timed Serial Transmitter (rules R110 to R118). `send_bit` and `send_frame`
called directly need `life = Operational` (R152, U22). -/

namespace Sys2Proof.Machine

/-- `settle()` (R110). -/
def execSettle (s : State) : Host.Outcome State Fault Refusal := runCall .settle id [.settle, .ret] s

/-- `send_bit(value)` (R111). -/
def execSendBit (v : Bool) (s : State) : Host.Outcome State Fault Refusal :=
  if s.operational then runCall (.sendBit v) id (sendBitActions s.cfg v ++ [.ret]) s
  else .refused .badLifecycle

/-- `send_frame(bits)` (R113); any finite sequence is sent as given (D27). -/
def execSendFrame (bits : List Bool) (s : State) : Host.Outcome State Fault Refusal :=
  if s.operational then runFrame (.sendFrame bits) bits s else .refused .badLifecycle

end Sys2Proof.Machine
end

