-- ==== Sys2Proof/Machine/Dispatch.lean ====
section
/-! DEFINITION. Machine/Dispatch.lean: one arm per row of spec/opcode_table.json. -/

namespace Sys2Proof.Machine

def exec (i : Instr) (s : State) : Host.Outcome State Fault Refusal :=
  match i with
  | .loadA m => Sys2Proof.Machine.execLoadA m s
  | .loadB m => Sys2Proof.Machine.execLoadB m s
  | .loadAB m => Sys2Proof.Machine.execLoadAB m s
  | .fselInput pin => Sys2Proof.Machine.execFselInput pin s
  | .fselOutput pin => Sys2Proof.Machine.execFselOutput pin s
  | .fselRead n => Sys2Proof.Machine.execFselRead n s
  | .fselWrite n v => Sys2Proof.Machine.execFselWrite n v s
  | .setWrite k v => Sys2Proof.Machine.execSetWrite k v s
  | .clrWrite k v => Sys2Proof.Machine.execClrWrite k v s
  | .setclrRead j => Sys2Proof.Machine.execSetclrRead j s
  | .regRead n => Sys2Proof.Machine.execRegRead n s
  | .regWrite n v => Sys2Proof.Machine.execRegWrite n v s
  | .configure pin d => Sys2Proof.Machine.execConfigure pin d s
  | .setLevel pin l => Sys2Proof.Machine.execSetLevel pin l s
  | .settle => Sys2Proof.Machine.execSettle s
  | .sendBit v => Sys2Proof.Machine.execSendBit v s
  | .sendFrame bits => Sys2Proof.Machine.execSendFrame bits s
  | .write ch m => Sys2Proof.Machine.execWrite ch m s
  | .storeVolume t => Sys2Proof.Machine.execStoreVolume t s
  | .storeBass t => Sys2Proof.Machine.execStoreBass t s
  | .storeOn t => Sys2Proof.Machine.execStoreOn t s
  | .showVolume => Sys2Proof.Machine.execShowVolume s
  | .showBass => Sys2Proof.Machine.execShowBass s
  | .showOn => Sys2Proof.Machine.execShowOn s
  | .start => Sys2Proof.Machine.execStart s
  | .stop => Sys2Proof.Machine.execStop s
  | .lockAcquire => Sys2Proof.Machine.execLockAcquire s
  | .lockRelease => Sys2Proof.Machine.execLockRelease s

end Sys2Proof.Machine
end

