-- ==== Sys2Proof/Machine/Fetch.lean ====
section
/-! DEFINITION. Machine/Fetch.lean: how the block takes an input of its callers and of the host environment (rules R6,
R17, R53; notes/assumptions/11.md, 12.md). -/

namespace Sys2Proof.Machine

/-- The next input is consumed, and its context runs with its quantum. -/
def State.taking (s : State) (c : Nat) (quantum : Option Nat) (rest : List Input) : State :=
  { s with cur := c, quantum := quantum, inputs := rest }

/-- A lifetime begins with the call of a `start` that the block accepts: the mirror is then at `MIRROR_INIT`, before
`start` does anything (R36, R142; R38 lets `start` itself write no mirror value; notes/assumptions/20.md). -/
def State.newLifetime (s : State) (i : Instr) : State := if isStart i && s.startable then s.initMirror else s

/-- A packet is decoded and its operation executed, a `start` in the lifetime it begins. -/
def runPacket (packet : List Byte) (s : State) : Host.Outcome State Fault Refusal :=
  match decode packet with
  | .ok i => exec i (s.newLifetime i)
  | .error e => .refused (.undecodable e)

/-- A bus read: the register-level read of the register it reaches, or refused (R53, R95). -/
def runBusRead (addr n : Nat) (s : State) : Host.Outcome State Fault Refusal :=
  match busRegister s.cfg addr n with
  | some r => exec (busReadInstr r) s
  | none => .refused .badAccess

/-- A bus write: the register-level write of the register it reaches, or refused (R53, R95). -/
def runBusWrite (addr n : Nat) (v : Word) (s : State) : Host.Outcome State Fault Refusal :=
  match busRegister s.cfg addr n with
  | some r => exec (busWriteInstr v r) s
  | none => .refused .badAccess

/-- What the next input makes the block do. With no input the block, which does nothing on its own (R17), stays as it
is. -/
def takeInput (s : State) : Host.Outcome State Fault Refusal :=
  match s.inputs with
  | [] => .next s
  | .call c packet quantum :: rest => runPacket packet (s.taking c quantum rest)
  | .resume c quantum :: rest => resumeCall (s.taking c quantum rest)
  | .busRead c addr n :: rest => runBusRead addr n (s.taking c none rest)
  | .busWrite c addr n v :: rest => runBusWrite addr n v (s.taking c none rest)

end Sys2Proof.Machine
end

