-- ==== Sys2Proof/Machine/Step.lean ====
section
/-! DEFINITION. Machine/Step.lean: one step of the block, and how an instruction word is placed where it is fetched. -/

namespace Sys2Proof.Machine

/-- One step: the next of the inputs (R6, R17). -/
def step (s : State) : Host.Outcome State Fault Refusal := takeInput s

/-- The state with a table word, as a packet, at the head of the inputs: the next step of the running context reads and
executes it, and is not preempted (notes/assumptions/11.md). -/
def State.withFetchWord (s : State) (nbits w : Nat) : State :=
  { s with inputs := .call s.cur (tablePacket nbits w) none :: s.inputs }

end Sys2Proof.Machine
end

