-- ==== Sys2Proof/Machine/Observe.lean ====
section
/-! DEFINITION. Machine/Observe.lean: what the outside can see of a run: the line trace (rule R34), the reference
receiver (R117), and the counts and the least duration of a stretch of trace (R114). Nothing here is state of the
block, and nothing here is said of the real DAC beyond the phrases R117 quotes. -/

namespace Sys2Proof.Machine

/-! ### The line trace (R34) -/

/-- What an event does to the stored words and the latches: a register write does what R92 to R94 say, no other event
touches them. -/
def State.replay (s : State) : Event → State
  | .wr _ r v => s.applyWrite r v
  | _ => s

/-- The lines of the four role pins at one position (R34). -/
structure Lines where
  cs : Line
  clk : Line
  data : Line
  en : Line
  deriving DecidableEq, Repr

/-- The role lines of a state (R27). -/
def State.lines (s : State) : Lines where
  cs := s.line (csPin s.cfg)
  clk := s.line (clkPin s.cfg)
  data := s.line (dataPin s.cfg)
  en := s.line (enPin s.cfg)

/-- The line trace: the role lines after each event, from an initial state (R34). -/
def lineTrace : State → List Event → List Lines
  | _, [] => []
  | s, e :: es => (s.replay e).lines :: lineTrace (s.replay e) es

/-- An edge: two consecutive positions at which the line differs, as where it begins or ceases to be driven (R34). -/
def isEdge (before after : Line) : Bool := decide (before ≠ after)

/-! ### The level on a line -/

/-- The level on the line of pin `p` at the `n`-th position of a trace: the one the block drives, else any (R27, U6, U7;
notes/assumptions/41.md). -/
def Line.levelAt (n : Nat) (p : Pin) : Line → Level
  | .driven l => l
  | .undriven => Level.ofBool (freeLineLevel n p.val)
  | .unspecified => Level.ofBool (freeLineLevel n p.val)

/-- A rising edge: low, then high (R34). A line that becomes driven may rise with it (R178). -/
def isRising (before after : Level) : Bool := decide (before = .low) && decide (after = .high)

/-- A falling edge: high, then low (R34). -/
def isFalling (before after : Level) : Bool := decide (before = .high) && decide (after = .low)

/-- The levels on the role lines at one position. -/
structure Levels where
  cs : Level
  clk : Level
  data : Level
  en : Level
  deriving DecidableEq, Repr

/-- The levels on the role lines at the `n`-th position of a trace. -/
def Lines.levelsAt (cfg : Config) (n : Nat) (l : Lines) : Levels where
  cs := l.cs.levelAt n (csPin cfg)
  clk := l.clk.levelAt n (clkPin cfg)
  data := l.data.levelAt n (dataPin cfg)
  en := l.en.levelAt n (enPin cfg)

/-- The levels over a line trace, its first lines at the `n`-th position. -/
def levelTrace (cfg : Config) : Nat → List Lines → List Levels
  | _, [] => []
  | n, l :: rest => l.levelsAt cfg n :: levelTrace cfg (n + 1) rest

/-! ### The reference receiver (R117) -/

/-- What the receiver does with the bits of one chip-select bracket (R117). -/
inductive Delivery
  /-- A complete frame of 16 bits. -/
  | frame (s : List Bool)
  /-- A partial frame, discarded. -/
  | discarded (s : List Bool)
  /-- More than 16 bits: not in the source. -/
  | unspecified (s : List Bool)
  deriving DecidableEq, Repr

/-- The receiver: the bits collected since the last falling edge of chip-select, and what it did with each bracket. -/
structure Receiver where
  collected : List Bool
  deliveries : List Delivery
  deriving DecidableEq, Repr

/-- The receiver when watching begins, at the `n`-th position of a trace. What it has collected before the first falling
edge of chip-select is open: R117 gives no initial `s` (R178; DESIGN CHOICE of a free value, notes/assumptions/42.md). -/
def Receiver.start (n : Nat) : Receiver where
  collected := freeCollected n
  deliveries := []

/-- What becomes of the collected bits at a rising edge of chip-select (R117). -/
def deliver (s : List Bool) : Delivery :=
  if s.length = 16 then .frame s else if s.length < 16 then .discarded s else .unspecified s

/-- A falling edge of chip-select starts collecting. -/
def Receiver.onFrameStart (x : Receiver) (before after : Levels) : Receiver :=
  if isFalling before.cs after.cs then { x with collected := [] } else x

/-- A rising clock edge while chip-select is low samples the data line: a level the block drives, or any level where it
drives none (notes/assumptions/41.md). -/
def Receiver.onClock (x : Receiver) (before after : Levels) : Receiver :=
  if isRising before.clk after.clk && decide (after.cs = .low) then
    { x with collected := x.collected ++ [decide (after.data = .high)] }
  else x

/-- A rising edge of chip-select ends the frame. -/
def Receiver.onFrameEnd (x : Receiver) (before after : Levels) : Receiver :=
  if isRising before.cs after.cs then { x with deliveries := x.deliveries ++ [deliver x.collected] } else x

/-- One position of the trace, seen by the receiver. When one register write moves chip-select and the clock at once, the
frame start is seen before the clock edge and the frame end after it (notes/assumptions/28.md). -/
def Receiver.observe (x : Receiver) (before after : Levels) : Receiver :=
  ((x.onFrameStart before after).onClock before after).onFrameEnd before after

/-- The receiver over the levels of a trace. -/
def Receiver.watch : Receiver → Levels → List Levels → Receiver
  | x, _, [] => x
  | x, before, after :: rest => Receiver.watch (x.observe before after) after rest

/-- The levels on the role lines in a state, the last position of its trace. -/
def State.levels (s : State) : Levels := s.lines.levelsAt s.cfg s.trace.length

/-- The receiver `x`, watching the events `es` that follow state `s`. -/
def Receiver.over (x : Receiver) (s : State) (es : List Event) : Receiver :=
  x.watch s.levels (levelTrace s.cfg (s.trace.length + 1) (lineTrace s es))

/-- What the reference receiver did over the events `es` that follow state `s`, watching from there (R117). -/
def received (s : State) (es : List Event) : Receiver := (Receiver.start s.trace.length).over s es

/-! ### Counts (R114) -/

/-- A register write event. -/
def isWrite : Event → Bool
  | .wr _ _ _ => true
  | _ => false

/-- A register read event. -/
def isRead : Event → Bool
  | .rd _ _ _ => true
  | _ => false

/-- A settle event. -/
def isSettle : Event → Bool
  | .settle _ => true
  | _ => false

/-- The least time the settle waits of a stretch of trace take, in nanoseconds: each at least `T_SETTLE` (R110, R114).
There is no upper bound. -/
def minDuration (cfg : Config) (es : List Event) : Nat := cfg.tSettle * es.countP isSettle

end Sys2Proof.Machine
end

