-- ==== Sys2Proof/Safety.lean ====
section
/-! DEFINITION. Safety.lean: the terms claims are stated in: when a call can run to its end, what it returns and what it
leaves alone, the events the spec lists for a sequence, the invariant of the machine, the access matrix, when a trace is
a sequentially consistent account of the registers, and which call a step is of. -/

namespace Sys2Proof.Machine

/-! ### Calls that run to their end -/

/-- The running context can make a call that nothing interrupts: it is inside no call and no frame, and the environment
does not preempt it. -/
structure Ready (s : State) : Prop where
  idle : (s.ctx s.cur).call = none
  noFrame : (s.ctx s.cur).frame = none
  whole : s.quantum = none

/-- A context record after its call returned `r`. -/
def Ctx.returned (x : Ctx) (r : Result) : Ctx := { x with call := none, work := [], temp := 0, result := r }

/-- A context record outside `send_frame`. -/
def Ctx.atRest (x : Ctx) : Ctx := { x with seq := .idle, frame := none }

/-- The call of the running context returned `r`, having added the events `es`; `x` is its record but for that. No
other context, no parameter and no input is touched. -/
structure Returns (s t : State) (x : Ctx) (r : Result) (es : List Event) : Prop where
  caller : t.ctx s.cur = x.returned r
  others : ∀ d, d ≠ s.cur → t.ctx d = s.ctx d
  trace : t.trace = s.trace ++ es
  cfg : t.cfg = s.cfg
  cur : t.cur = s.cur
  quantum : t.quantum = s.quantum
  inputs : t.inputs = s.inputs

/-- The lifetime state, the lock, the mirror and the model's own registers are as before. -/
structure SameControl (s t : State) : Prop where
  life : t.life = s.life
  txLock : t.txLock = s.txLock
  vol : t.vol = s.vol
  bas : t.bas = s.bas
  onv : t.onv = s.onv
  surface : t.surface = s.surface

/-- The function-select words and the latches are as before. -/
structure SameRegisters (s t : State) : Prop where
  fsel : t.fsel = s.fsel
  latch : t.latch = s.latch

/-! ### Attribute text -/

/-- The decimal string of an integer: a `-` before the digits of a negative one. -/
def decimalInt (m : Int) : Text := if m < 0 then 0x2D#8 :: decimal m.natAbs else decimal m.natAbs

/-! ### The events the spec lists -/

/-- The event of `set_level(p, l)` by context `c` (R102). -/
def setLevelEvent (c : Nat) (p : Pin) (l : Level) : Event := .wr c (levelTarget p l) (levelWord p)

/-- The events of `send_bit(v)` (R111). -/
def sendBitEvents (cfg : Config) (c : Nat) (v : Bool) : List Event :=
  [setLevelEvent c (dataPin cfg) (Level.ofBool v), .settle c, setLevelEvent c (clkPin cfg) .high, .settle c,
    setLevelEvent c (clkPin cfg) .low, .settle c]

/-- The events of `send_frame(bits)` (R113). -/
def frameEvents (cfg : Config) (c : Nat) (bits : List Bool) : List Event :=
  [.acq c, setLevelEvent c (csPin cfg) .low, .settle c] ++ bits.flatMap (sendBitEvents cfg c)
    ++ [setLevelEvent c (csPin cfg) .high, .rel c]

/-- The latches `send_frame(bits)` leaves: chip-select high, clock low, data at the last bit sent, unchanged when there
is none; every other latch as before (R113). -/
def FrameLatches (s t : State) (bits : List Bool) : Prop :=
  t.latchAt (csPin s.cfg) = .high
    ∧ t.latchAt (dataPin s.cfg) = (match bits.getLast? with
        | some v => Level.ofBool v
        | none => s.latchAt (dataPin s.cfg))
    ∧ (bits ≠ [] → t.latchAt (clkPin s.cfg) = .low)
    ∧ (bits = [] → t.latchAt (clkPin s.cfg) = s.latchAt (clkPin s.cfg))
    ∧ ∀ p, p ≠ csPin s.cfg → p ≠ clkPin s.cfg → p ≠ dataPin s.cfg → t.latchAt p = s.latchAt p

/-- What is known once `start` has completed (R37): the block is operational, the role pins are outputs, chip-select is
high and the clock is low. -/
structure Started (s : State) : Prop where
  life : s.life = .operational
  cs : s.fn (csPin s.cfg) = s.cfg.codeOutput
  clk : s.fn (clkPin s.cfg) = s.cfg.codeOutput
  data : s.fn (dataPin s.cfg) = s.cfg.codeOutput
  en : s.fn (enPin s.cfg) = s.cfg.codeOutput
  csHigh : s.latchAt (csPin s.cfg) = .high
  clkLow : s.latchAt (clkPin s.cfg) = .low

/-! ### The invariant -/

/-- The actions of a whole call, from its first to its return: its straight-line sequence (R86, R115). An operation
that is refused outright has none. -/
def program (cfg : Config) : Instr → List Action
  | .loadA m => frameActions cfg (bitsMsb (frameWord .A m)) ++ [.ret]
  | .loadB m => frameActions cfg (bitsMsb (frameWord .B m)) ++ [.ret]
  | .loadAB m => frameActions cfg (bitsMsb (frameWord .AB m)) ++ [.ret]
  | .fselInput pin => match pinOf pin with
    | some p => configureActions cfg p .input ++ [.ret]
    | none => []
  | .fselOutput pin => match pinOf pin with
    | some p => configureActions cfg p .output ++ [.ret]
    | none => []
  | .fselRead i => [.read (.fsel i), .retWord]
  | .fselWrite i v => [.write (.fsel i) v, .ret]
  | .setWrite k v => [.write (.set k) v, .ret]
  | .clrWrite k v => [.write (.clr k) v, .ret]
  | .setclrRead j => [.read (levelReg j), .retWord]
  | .regRead i => match regOfIndex i with
    | some r => [.read r, .retWord]
    | none => []
  | .regWrite i v => match regOfIndex i with
    | some r => [.write r v, .ret]
    | none => []
  | .configure pin d => match pinOf pin with
    | some p => configureActions cfg p d ++ [.ret]
    | none => []
  | .setLevel pin l => match pinOf pin with
    | some p => setLevelActions p l ++ [.ret]
    | none => []
  | .settle => [.settle, .ret]
  | .sendBit v => sendBitActions cfg v ++ [.ret]
  | .sendFrame bits => frameActions cfg bits ++ [.ret]
  | .write ch m => match magnitudeOf m with
    | some mag => frameActions cfg (frameBits ch mag) ++ [.ret]
    | none => []
  | .storeVolume t => storeActions cfg .volume t
  | .storeBass t => storeActions cfg .bass t
  | .storeOn t => storeActions cfg .on t
  | .showVolume => [.retText .volume]
  | .showBass => [.retText .bass]
  | .showOn => [.retText .on]
  | .start => startActions cfg
  | .stop => [.teardown, .ret]
  | .lockAcquire => [.acquire, .ret]
  | .lockRelease => [.release, .ret]

/-- A context record is one that calls leave: between calls nothing is left to do and no frame is held; inside one, what
is left is the rest of its sequence; and inside a frame the position `At(k)` of R31 says exactly what is left. -/
structure Ctx.Ok (cfg : Config) (x : Ctx) : Prop where
  between : x.call = none → x.work = [] ∧ x.frame = none
  inside : ∀ i, x.call = some i → x.work <:+ program cfg i
  position : ∀ bits, x.frame = some bits →
    ∃ k, x.seq = .at k ∧ k ≤ 4 + 6 * bits.length ∧ x.work = (frameActions cfg bits).drop k ++ [.ret]

/-- The invariant of the machine: the contexts are in canonical form and each is as calls leave it; a context past the
acquire step of a region holds the lock, so at most one is (R62); and each mirror value is in its range or still the
initial one (R32). -/
structure Inv (s : State) : Prop where
  contexts : s.ctxs.wf = true
  calls : ∀ c, (s.ctx c).Ok s.cfg
  region : ∀ c k, (s.ctx c).seq = .at (k + 1) → s.txLock = .held c
  vol : s.vol ≤ 1023 ∨ s.vol = s.cfg.mirrorInit.vol
  bas : s.bas ≤ 1023 ∨ s.bas = s.cfg.mirrorInit.bas
  onv : s.onv ≤ s.cfg.onMax ∨ s.onv = s.cfg.mirrorInit.onv

/-- The lifetime side of the invariant: a frame is in flight and a boundary call is in progress only while the block is
operational (R131, R142, R143); a context is inside `start` only while it is not, since the block becomes operational as
`start` returns (R143); and at most one context is inside `start` (R141). -/
structure LifeInv (s : State) : Prop where
  sending : ∀ c bits, (s.ctx c).frame = some bits → s.life = .operational
  boundary : ∀ c i, (s.ctx c).call = some i → isBoundary i = true → s.life = .operational
  starting : ∀ c, (s.ctx c).call = some .start → s.life ≠ .operational
  oneStart : ∀ c d, (s.ctx c).call = some .start → (s.ctx d).call = some .start → c = d

/-! ### The access matrix (R38) -/

/-- What the matrix of R38 lets an operation write ("w"). Its last column is split by attribute, as R132 to R134 do. -/
structure Writes where
  fsel : Bool := false
  latch : Bool := false
  life : Bool := false
  txLock : Bool := false
  frames : Bool := false
  vol : Bool := false
  bas : Bool := false
  onv : Bool := false
  deriving DecidableEq, Repr

/-- The rows of `send_frame` and `write`, which the frame commands are too. -/
def writesOfFrame : Writes := { latch := true, txLock := true, frames := true }

/-- The row of an operation (R38). A function code is a `configure` (log 10), `reg_write` the write of its register, and
the two lock steps have what `send_frame` has through them (R86). -/
def writes : Instr → Writes
  | .loadA _ | .loadB _ | .loadAB _ | .sendFrame _ | .write _ _ => writesOfFrame
  | .fselInput _ | .fselOutput _ | .configure _ _ | .fselWrite _ _ => { fsel := true }
  | .fselRead _ | .setclrRead _ | .regRead _ | .settle | .showVolume | .showBass | .showOn => {}
  | .setWrite _ _ | .clrWrite _ _ | .setLevel _ _ | .sendBit _ => { latch := true }
  | .regWrite n _ => if n < 6 then { fsel := true } else { latch := true }
  | .storeVolume _ => { writesOfFrame with vol := true }
  | .storeBass _ => { writesOfFrame with bas := true }
  | .storeOn _ => { latch := true, onv := true }
  | .start => { fsel := true, latch := true, life := true }
  | .stop => { life := true }
  | .lockAcquire | .lockRelease => { txLock := true, frames := true }

/-- What the matrix does not let be written is as before; the column `seq`, `frame` is `KeepsFrames`. -/
structure Keeps (w : Writes) (s t : State) : Prop where
  fsel : w.fsel = false → t.fsel = s.fsel
  latch : w.latch = false → t.latch = s.latch
  life : w.life = false → t.life = s.life
  txLock : w.txLock = false → t.txLock = s.txLock
  vol : w.vol = false → t.vol = s.vol
  bas : w.bas = false → t.bas = s.bas
  onv : w.onv = false → t.onv = s.onv

/-- Every context's sequencer position and frame is as before, where the matrix does not let them be written. -/
def KeepsFrames (w : Writes) (s t : State) : Prop :=
  w.frames = false → ∀ c, (t.ctx c).seq = (s.ctx c).seq ∧ (t.ctx c).frame = (s.ctx c).frame

/-! ### Sequential consistency (R59) -/

/-- The events `es` are a sequentially consistent account of the registers from state `s`: every read of a
function-select register returns what the latest write before it stored, or what `s` holds (R59 (c)). -/
def Consistent : State → List Event → Prop
  | _, [] => True
  | s, e :: es =>
    (match e with
      | .rd _ (.fsel k) v => v = s.fsel[k.val]
      | _ => True) ∧ Consistent (s.replay e) es

/-- What a run of events does to the registers. -/
def State.replayAll (s : State) (es : List Event) : State := es.foldl State.replay s

/-! ### Whose step -/

/-- The operation that the next step performs or goes on with, where there is one: of a packet the operation it decodes
to, of a resumption the call its context is inside, of a bus access the register access it is. -/
def State.acting (s : State) : Option Instr :=
  match s.inputs with
  | [] => none
  | .call _ packet _ :: _ => match decode packet with
    | .ok i => some i
    | .error _ => none
  | .resume c _ :: _ => (s.ctx c).call
  | .busRead _ addr n :: _ => (busRegister s.cfg addr n).map busReadInstr
  | .busWrite _ addr n v :: _ => (busRegister s.cfg addr n).map (busWriteInstr v)

/-! ### Continuing a call -/

/-- What follows a next state; a fault or a refusal stays. -/
def andThen (o : Host.Outcome State Fault Refusal) (f : State → Host.Outcome State Fault Refusal) :
    Host.Outcome State Fault Refusal :=
  match o with
  | .next s => f s
  | .fault r => .fault r
  | .refused r => .refused r

/-- The environment lets context `c` run with a quantum. -/
def State.scheduled (s : State) (c : Nat) (quantum : Option Nat) : State := { s with cur := c, quantum := quantum }

end Sys2Proof.Machine
end

