-- ==== Sys2Proof/Certificates/Slice0/Obligations.lean ====
section
/-! DEFINITION. Certificates/Slice0/Obligations.lean: the statements for the provers. Each docstring names the rule of
spec/ a statement formalises; where a clause rests on a choice of the model, it names the log entry. -/

open Sys2Proof Sys2Proof.Machine

/-! ## Encodings -/

/-- Every operation that a packet can carry is read back from its packet, with every operand. The packets of the CALL
rows are the model's own (log 8). -/
def Obligations.DecodeReadsBackEncode : Prop :=
  ∀ i : Instr, i.wellFormed = true → decode (encode i) = .ok i

/-- Every packet that is a call is the packet of that call: each packet has one meaning, and no bit of it is dropped
(log 8). -/
def Obligations.EncodeReadsBackDecode : Prop :=
  ∀ (packet : List Byte) (i : Instr), decode packet = .ok i → i.wellFormed = true ∧ encode i = packet

/-- R79, R72: the table's words are the rows they stand for: `0x9000 | (m << 2)`, `0xA000 | (m << 2)`,
`0xF000 | (m << 2)` for every magnitude, and the function codes `000` and `001` (their pin byte 0, log 10). -/
def Obligations.TableWordsDecodeToTheirRows : Prop :=
  (∀ m : Fin 1024,
      decodeTableWord 16 (0x9000 + 4 * m.val) = some (.loadA (BitVec.ofNat 10 m.val))
        ∧ decodeTableWord 16 (0xA000 + 4 * m.val) = some (.loadB (BitVec.ofNat 10 m.val))
        ∧ decodeTableWord 16 (0xF000 + 4 * m.val) = some (.loadAB (BitVec.ofNat 10 m.val)))
    ∧ decodeTableWord 8 0 = some (.fselInput 0)
    ∧ decodeTableWord 8 1 = some (.fselOutput 0)

/-- The model's choice (log 26; the packets: log 8) where R83 says only that `write` cannot produce such an encoding: read
as a frame word, a word with a command other than 9, 10, 15 or a padding other than `00` is no call; nor is it as a
packet, but for commands 0, 4, 5 and 6, whose bytes begin packets of other rows; and the six reserved function codes
(R72) are no call. -/
def Obligations.UnusedEncodingsAreNoCall : Prop :=
  (∀ (w : BitVec 16) (i : Instr), decodeFrame w = .ok i →
      w.extractLsb' 0 2 = 0b00#2
        ∧ (w.extractLsb' 12 4 = 9#4 ∨ w.extractLsb' 12 4 = 10#4 ∨ w.extractLsb' 12 4 = 15#4))
    ∧ (∀ (w : BitVec 16) (i : Instr), decode (frameBytes w) = .ok i →
        w.extractLsb' 12 4 ≠ 0#4 → w.extractLsb' 12 4 ≠ 4#4 → w.extractLsb' 12 4 ≠ 5#4 → w.extractLsb' 12 4 ≠ 6#4 →
        decodeFrame w = .ok i)
    ∧ ∀ (c : BitVec 3) (pin : Nat), c ≠ 0b000#3 → c ≠ 0b001#3 →
        decode (encodeField c pin) = .error .reservedCode

/-- R78: the frame of a channel and a magnitude is 16 bits, command then magnitude then two zeros, most significant
bit first; R79: the three commands. The rest are inferences the spec marks as its own in R123: the frame is the word
`command * 4096 + m * 4`, and different arguments give different frames. -/
def Obligations.FrameIsCommandMagnitudePadding : Prop :=
  (∀ (ch : Channel) (m : BitVec 10),
      (frameBits ch m).length = 16
        ∧ frameBits ch m = bitsMsb (command ch) ++ bitsMsb m ++ [false, false]
        ∧ bitsMsb (frameWord ch m) = frameBits ch m
        ∧ (frameWord ch m).toNat = (command ch).toNat * 4096 + m.toNat * 4)
    ∧ (command .A = 9#4 ∧ command .B = 10#4 ∧ command .AB = 15#4)
    ∧ ∀ ch m ch' m', frameBits ch m = frameBits ch' m' → ch = ch' ∧ m = m'

/-- R82: the 16 samples of an encoder frame read back as its command, its magnitude and the padding; and samples that
read back as a frame the encoder can emit are the encoder's frame of those values. (The spec marks R82 as an
inference of its own.) -/
def Obligations.SamplesReadBackAsTheirFrame : Prop :=
  (∀ (ch : Channel) (m : BitVec 10),
      frameFields (frameBits ch m) =
        some { command := (command ch).toNat, magnitude := m.toNat, pad := (false, false) })
    ∧ ∀ (bits : List Bool) (f : FrameFields), frameFields bits = some f → f.emittable = true →
        ∃ ch, (command ch).toNat = f.command ∧ f.magnitude < 1024
          ∧ bits = frameBits ch (BitVec.ofNat 10 f.magnitude)

/-- R85, R130 (a), (b): the decimal string of a number parses to that number, and is neither empty nor starts with a
zero unless the number is 0; the empty string and any string with a character that is neither a digit nor a sign nor
white space do not parse (which characters are white space: log 17). The decimal string of a negative number does not
parse, or parses to a negative number (log 16). -/
def Obligations.DecimalTextParsesBack : Prop :=
  (∀ n : Nat, parseDec (decimal n) = some (n : Int) ∧ isPlainDecimal (decimal n) = true)
    ∧ parseDec [] = none
    ∧ (∀ n : Nat, parseDec (0x2D#8 :: decimal (n + 1)) = none
        ∨ ∃ v, parseDec (0x2D#8 :: decimal (n + 1)) = some v ∧ v < 0)
    ∧ ∀ (t : Text) (b : Byte), b ∈ t → isDigit b = false → isSign b = false → isSpace b = false → parseDec t = none

/-! ## Reset and step -/

/-- R36: at reset the lifetime state is `Uninitialized`, the lock free, every sequencer idle with no frame, the trace
empty and the mirror at `MIRROR_INIT`. (The function-select words and latches are the model's choice, log 2 and 3; this
says nothing of them.) -/
def Obligations.ResetIsTheStartOfALifetime : Prop :=
  State.reset.life = .uninitialized
    ∧ State.reset.txLock = .free
    ∧ (∀ c, (State.reset.ctx c).seq = .idle ∧ (State.reset.ctx c).frame = none)
    ∧ State.reset.trace = []
    ∧ State.reset.vol = State.reset.cfg.mirrorInit.vol
    ∧ State.reset.bas = State.reset.cfg.mirrorInit.bas
    ∧ State.reset.onv = State.reset.cfg.mirrorInit.onv

/-- A step with a call at the head of the inputs executes the operation its packet decodes to, at that state with the
input consumed, its context running and its quantum set (log 11, 12). With a `start` that the block accepts a lifetime
begins, so the mirror is at `MIRROR_INIT` before `start` executes (R36, R142; log 20); a `start` that it does not accept
is refused (R141). -/
def Obligations.StepRunsTheDecodedInstruction : Prop :=
  ∀ (s : State) (c : Nat) (packet : List Byte) (q : Option Nat) (rest : List Input) (i : Instr),
    s.inputs = .call c packet q :: rest → decode packet = .ok i →
    let u := { s with cur := c, quantum := q, inputs := rest }
    let init := s.cfg.mirrorInit
    (i ≠ .start → step s = exec i u)
      ∧ (i = .start → s.life = .uninitialized → s.anyCall isStart = false →
          step s = exec .start { u with vol := init.vol, bas := init.bas, onv := init.onv })
      ∧ (i = .start → (s.life ≠ .uninitialized ∨ s.anyCall isStart = true) → step s = .refused .badLifecycle)

/-- A step without an input changes nothing; a packet that is no call is refused by its decoder's reason; a resumption
runs the work its context has left (log 11, 12, 26, 33). -/
def Obligations.StepTakesTheOtherInputs : Prop :=
  ∀ s : State,
    (s.inputs = [] → step s = .next s)
      ∧ (∀ c packet q rest e, s.inputs = .call c packet q :: rest → decode packet = .error e →
          step s = .refused (.undecodable e))
      ∧ (∀ c q rest, s.inputs = .resume c q :: rest →
          step s = runWork c (s.ctx c).work q { s with cur := c, quantum := q, inputs := rest })

/-- R53, R95: with admissible parameters a bus access of `n` bytes at an address is the register-level access of a
register when `n` is 4 and the address is that register's, and is refused when it is no register's or `n` is not 4. -/
def Obligations.BusReachesTheTenRegistersOnly : Prop :=
  ∀ s : State, s.cfg.wf = true →
    (∀ c (r : Reg) rest, s.inputs = .busRead c (regAddress s.cfg r) 4 :: rest →
        step s = exec (busReadInstr r) { s with cur := c, quantum := none, inputs := rest })
      ∧ (∀ c (r : Reg) v rest, s.inputs = .busWrite c (regAddress s.cfg r) 4 v :: rest →
        step s = exec (busWriteInstr v r) { s with cur := c, quantum := none, inputs := rest })
      ∧ (∀ c addr n rest, (n ≠ 4 ∨ ∀ r : Reg, addr ≠ regAddress s.cfg r) →
          s.inputs = .busRead c addr n :: rest → step s = .refused .badAccess)
      ∧ (∀ c addr n v rest, (n ≠ 4 ∨ ∀ r : Reg, addr ≠ regAddress s.cfg r) →
          s.inputs = .busWrite c addr n v :: rest → step s = .refused .badAccess)

/-! ## Register access -/

/-- R90: a read of `FSEL[k]`, by either operation, returns the stored word, records it, and changes nothing. (The
spec marks R90 as an inference of its own.) -/
def Obligations.FselReadReturnsTheStoredWord : Prop :=
  ∀ (s : State) (k : Fin 6) (i : Instr), Ready s → (i = .fselRead k ∨ i = .regRead k.val) →
    ∃ t, exec i s = .next t
      ∧ Returns s t (s.ctx s.cur) (.word (s.fsel[k.val])) [.rd s.cur (.fsel k) (s.fsel[k.val])]
      ∧ SameRegisters s t ∧ SameControl s t ∧ t.draws = s.draws

/-- R91: a read of a set or clear register, by either operation, returns some word, which nothing constrains, records it,
and changes no register, latch or other state. -/
def Obligations.LevelReadReturnsSomeWord : Prop :=
  ∀ (s : State) (j : Fin 4) (i : Instr), Ready s → (i = .setclrRead j ∨ i = .regRead (6 + j.val)) →
    ∃ t v, exec i s = .next t
      ∧ Returns s t (s.ctx s.cur) (.word v) [.rd s.cur (levelReg j) v]
      ∧ SameRegisters s t ∧ SameControl s t

/-- R92: a write of `FSEL[k]`, by either operation, replaces the stored word; the function of pin `10k + j` becomes
bits `3j+2 : 3j` of it; every other word, pin function and latch is as before. (The spec marks R92 as an inference of
its own.) -/
def Obligations.FselWriteReplacesTheWord : Prop :=
  ∀ (s : State) (k : Fin 6) (v : Word) (i : Instr), Ready s → (i = .fselWrite k v ∨ i = .regWrite k.val v) →
    ∃ t, exec i s = .next t
      ∧ Returns s t (s.ctx s.cur) .done [.wr s.cur (.fsel k) v]
      ∧ t.fsel[k.val] = v
      ∧ (∀ j : Fin 6, j ≠ k → t.fsel[j.val] = s.fsel[j.val])
      ∧ (∀ j : Fin 10, t.fn ⟨10 * k.val + j.val, by omega⟩ = v.extractLsb' (3 * j.val) 3)
      ∧ (∀ p : Pin, p.val / 10 ≠ k.val → t.fn p = s.fn p)
      ∧ t.latch = s.latch ∧ SameControl s t ∧ t.draws = s.draws

/-- R93: a write of `SET[k]`, by either operation, makes high the latch of every pin its 1 bits name and leaves every
other latch; a word for `SET[1]` with a bit of 31:28 set is refused. -/
def Obligations.SetWriteRaisesTheNamedLatches : Prop :=
  ∀ (s : State) (k : Fin 2) (v : Word) (i : Instr), Ready s → (i = .setWrite k v ∨ i = .regWrite (6 + k.val) v) →
    if k = 1 ∧ v.extractLsb' 28 4 ≠ 0#4 then exec i s = .refused .reservedBits
    else ∃ t, exec i s = .next t
      ∧ Returns s t (s.ctx s.cur) .done [.wr s.cur (.set k) v]
      ∧ (∀ p : Pin, t.latchAt p = if p.val / 32 = k.val ∧ v.getLsbD (p.val % 32) = true then .high else s.latchAt p)
      ∧ t.fsel = s.fsel ∧ SameControl s t ∧ t.draws = s.draws

/-- R94: a write of `CLR[k]`, by either operation, makes low the latch of every pin its 1 bits name and leaves every other
latch; a word for `CLR[1]` with a bit of 31:28 set is refused. -/
def Obligations.ClrWriteLowersTheNamedLatches : Prop :=
  ∀ (s : State) (k : Fin 2) (v : Word) (i : Instr), Ready s → (i = .clrWrite k v ∨ i = .regWrite (8 + k.val) v) →
    if k = 1 ∧ v.extractLsb' 28 4 ≠ 0#4 then exec i s = .refused .reservedBits
    else ∃ t, exec i s = .next t
      ∧ Returns s t (s.ctx s.cur) .done [.wr s.cur (.clr k) v]
      ∧ (∀ p : Pin, t.latchAt p = if p.val / 32 = k.val ∧ v.getLsbD (p.val % 32) = true then .low else s.latchAt p)
      ∧ t.fsel = s.fsel ∧ SameControl s t ∧ t.draws = s.draws

/-- R95, R152: a logical index outside 0..9 is refused, read or written, in every state. -/
def Obligations.IndexOutsideTheMapIsRefused : Prop :=
  ∀ (s : State) (n : Nat) (v : Word), 10 ≤ n →
    exec (.regRead n) s = .refused .badAccess ∧ exec (.regWrite n v) s = .refused .badAccess

/-! ## GPIO Controller -/

/-- R100: `configure` of a pin 0..59 reads its function-select register once and writes it once, with the word
`(old & ~(0b111 << off)) | (code << off)`; afterwards the pin has the direction's code, and every other pin's function,
bits 31:30, every other register and every latch are as before. -/
def Obligations.ConfigureWritesOneField : Prop :=
  ∀ (s : State) (p : Pin) (d : Direction), Ready s → s.cfg.configureSplit = false →
    let old := s.fsel[p.val / 10]
    let off := p.val % 10 * 3
    let new := (old &&& ~~~(0b111#32 <<< off)) ||| ((code s.cfg d).setWidth 32 <<< off)
    ∃ t, exec (.configure p.val d) s = .next t
      ∧ Returns s t (s.ctx s.cur) .done
          [.rd s.cur (.fsel (fselIndex p)) old, .wr s.cur (.fsel (fselIndex p)) new]
      ∧ t.fsel[p.val / 10] = new
      ∧ (∀ j : Fin 6, j.val ≠ p.val / 10 → t.fsel[j.val] = s.fsel[j.val])
      ∧ t.fn p = code s.cfg d
      ∧ (∀ q : Pin, q ≠ p → t.fn q = s.fn q)
      ∧ new.extractLsb' 30 2 = old.extractLsb' 30 2
      ∧ t.latch = s.latch ∧ SameControl s t ∧ t.draws = s.draws

/-- R101: with `CONFIGURE_SPLIT` true, `configure` reads and writes twice: the field is `0b000` in the first word written,
and the end state has the same function-select words as R100 gives. -/
def Obligations.SplitConfigureClearsThenSets : Prop :=
  ∀ (s : State) (p : Pin) (d : Direction), Ready s → s.cfg.configureSplit = true →
    let r := Reg.fsel (fselIndex p)
    let old := s.fsel[p.val / 10]
    let off := p.val % 10 * 3
    let cleared := old &&& ~~~(0b111#32 <<< off)
    let new := cleared ||| ((code s.cfg d).setWidth 32 <<< off)
    ∃ t, exec (.configure p.val d) s = .next t
      ∧ Returns s t (s.ctx s.cur) .done
          [.rd s.cur r old, .wr s.cur r cleared, .rd s.cur r cleared, .wr s.cur r new]
      ∧ fieldOf cleared p = 0b000#3
      ∧ t.fsel[p.val / 10] = new
      ∧ (∀ j : Fin 6, j.val ≠ p.val / 10 → t.fsel[j.val] = s.fsel[j.val])
      ∧ t.fn p = code s.cfg d
      ∧ (∀ q : Pin, q ≠ p → t.fn q = s.fn q)
      ∧ t.latch = s.latch ∧ SameControl s t ∧ t.draws = s.draws

/-- R23, R72 as the table's rows `FSEL_INPUT` and `FSEL_OUTPUT`: the named code ends in the pin's field; every other pin's
function and every latch are as before. That the code is placed by `configure`'s read-modify-write is the model's
reading (log 10). -/
def Obligations.FunctionCodeEndsInItsField : Prop :=
  ∀ (s : State) (p : Pin) (d : Direction) (i : Instr), Ready s →
    (i = .fselInput p.val ∧ d = .input ∨ i = .fselOutput p.val ∧ d = .output) →
    ∃ t es, exec i s = .next t
      ∧ Returns s t (s.ctx s.cur) .done es
      ∧ t.fn p = code s.cfg d
      ∧ (∀ q : Pin, q ≠ p → t.fn q = s.fn q)
      ∧ (∀ j : Fin 6, j.val ≠ p.val / 10 → t.fsel[j.val] = s.fsel[j.val])
      ∧ t.fsel[p.val / 10].extractLsb' 30 2 = (s.fsel[p.val / 10]).extractLsb' 30 2
      ∧ t.latch = s.latch ∧ SameControl s t ∧ t.draws = s.draws

/-- R102: `set_level` of a pin 0..59 performs one write, of `1 << (pin mod 32)`, to `SET[pin div 32]` for high and
`CLR[pin div 32]` for low, and reads nothing; the pin's latch has the level, every other latch and every
function-select word is as before; and an output pin's line shows the level. -/
def Obligations.SetLevelDrivesOneLatch : Prop :=
  ∀ (s : State) (p : Pin) (l : Level), Ready s →
    ∃ t, exec (.setLevel p.val l) s = .next t
      ∧ Returns s t (s.ctx s.cur) .done
          [.wr s.cur (match l with
              | .high => .set (levelIndex p)
              | .low => .clr (levelIndex p)) (1#32 <<< (p.val % 32))]
      ∧ t.latchAt p = l
      ∧ (∀ q : Pin, q ≠ p → t.latchAt q = s.latchAt q)
      ∧ t.fsel = s.fsel
      ∧ (s.dir p = .output → t.line p = .driven l)
      ∧ SameControl s t ∧ t.draws = s.draws

/-- R103, R152: a pin below 0 or above 59 is refused by `configure` and `set_level`, in every state. That the function
codes refuse a pin above 59 too (theirs is never below 0) is the model's choice (log 10). -/
def Obligations.PinOutsideTheMapIsRefused : Prop :=
  ∀ s : State,
    (∀ (n : Int) (d : Direction) (l : Level), (n < 0 ∨ 59 < n) →
        exec (.configure n d) s = .refused .badPin ∧ exec (.setLevel n l) s = .refused .badPin)
      ∧ ∀ n : Nat, 59 < n →
        exec (.fselInput n) s = .refused .badPin ∧ exec (.fselOutput n) s = .refused .badPin

/-- R176: two contexts configure different pins of one function-select register, each read before each write. The
word of the second write holds the first pin's old field: the first update is lost. (The spec marks R176 as an
inference of its own.) -/
def Obligations.UnserialisedConfigureLosesAnUpdate : Prop :=
  ∀ (s : State) (c d : Nat) (p q : Pin) (a b : Direction), s.cfg.configureSplit = false → c ≠ d →
    (s.ctx c).call = none → (s.ctx c).frame = none → (s.ctx d).call = none → (s.ctx d).frame = none →
    fselIndex p = fselIndex q → p ≠ q →
      ∃ t1 t2 t3 t4,
        exec (.configure p.val a) (s.scheduled c (some 1)) = .next t1
          ∧ exec (.configure q.val b) (t1.scheduled d (some 1)) = .next t2
          ∧ resumeCall (t2.scheduled c none) = .next t3
          ∧ resumeCall (t3.scheduled d none) = .next t4
          ∧ t3.fn p = code s.cfg a
          ∧ t4.fn q = code s.cfg b
          ∧ t4.fn p = s.fn p

/-- R60 (1): `set_level` calls on different pins by two contexts, different or the same, leave the same latches in
either order. (The spec marks R60 as an inference of its own.) -/
def Obligations.SetLevelsOnDifferentPinsCommute : Prop :=
  ∀ (s : State) (c d : Nat) (p q : Pin) (a b : Level), (s.ctx c).call = none → (s.ctx d).call = none → p ≠ q →
    ∃ t u,
      andThen (exec (.setLevel p.val a) (s.scheduled c none)) (fun v => exec (.setLevel q.val b) (v.scheduled d none))
          = .next t
        ∧ andThen (exec (.setLevel q.val b) (s.scheduled d none))
            (fun v => exec (.setLevel p.val a) (v.scheduled c none)) = .next u
        ∧ t.latch = u.latch ∧ t.fsel = u.fsel ∧ t.fsel = s.fsel
        ∧ t.latchAt p = a ∧ t.latchAt q = b
        ∧ ∀ r : Pin, r ≠ p → r ≠ q → t.latchAt r = s.latchAt r

/-! ## Transmitter -/

/-- R110: `settle` records one `Settle` event and changes nothing else. -/
def Obligations.SettleRecordsOneWait : Prop :=
  ∀ s : State, Ready s →
    ∃ t, exec .settle s = .next t
      ∧ Returns s t (s.ctx s.cur) .done [.settle s.cur]
      ∧ SameRegisters s t ∧ SameControl s t ∧ t.draws = s.draws

/-- R111: `send_bit` drives the data pin, pulses the clock high and low, with a settle wait after each, and reads nothing;
afterwards the data latch has the value, the clock latch is low, every other latch and every function-select word is as
before. -/
def Obligations.SendBitPulsesTheClockOnce : Prop :=
  ∀ (s : State) (v : Bool), Ready s → s.cfg.wf = true → s.life = .operational →
    ∃ t, exec (.sendBit v) s = .next t
      ∧ Returns s t (s.ctx s.cur) .done
          [setLevelEvent s.cur (dataPin s.cfg) (if v then .high else .low), .settle s.cur,
            setLevelEvent s.cur (clkPin s.cfg) .high, .settle s.cur,
            setLevelEvent s.cur (clkPin s.cfg) .low, .settle s.cur]
      ∧ t.latchAt (dataPin s.cfg) = (if v then .high else .low)
      ∧ t.latchAt (clkPin s.cfg) = .low
      ∧ (∀ p : Pin, p ≠ dataPin s.cfg → p ≠ clkPin s.cfg → t.latchAt p = s.latchAt p)
      ∧ t.fsel = s.fsel ∧ SameControl s t ∧ t.draws = s.draws

/-- R113: with the lock free, `send_frame` takes the lock, lowers chip-select, settles, sends every bit in order, raises
chip-select and frees the lock; the latches are as R113 says, the sequencer is idle, everything else is as before. -/
def Obligations.SendFrameSendsEveryBitInOrder : Prop :=
  ∀ (s : State) (bits : List Bool), Ready s → s.cfg.wf = true → s.life = .operational → s.txLock = .free →
    ∃ t, exec (.sendFrame bits) s = .next t
      ∧ Returns s t (s.ctx s.cur).atRest .done (frameEvents s.cfg s.cur bits)
      ∧ FrameLatches s t bits
      ∧ t.fsel = s.fsel ∧ SameControl s t ∧ t.draws = s.draws

/-- R114, the counts: a frame of length `n` makes `2 + 3n` register writes, `1 + 3n` settle waits, no register read,
and lasts at least `(1 + 3n) * T_SETTLE`. (The spec marks R114 as an inference of its own.) -/
def Obligations.FrameCountsWritesAndSettles : Prop :=
  ∀ (s t : State) (bits : List Bool), Ready s → s.life = .operational → s.txLock = .free →
    exec (.sendFrame bits) s = .next t →
    ∃ es, t.trace = s.trace ++ es
      ∧ es.countP isWrite = 2 + 3 * bits.length
      ∧ es.countP isSettle = 1 + 3 * bits.length
      ∧ es.countP isRead = 0
      ∧ minDuration s.cfg es = (1 + 3 * bits.length) * s.cfg.tSettle

/-- R31, the table: step `k` of a frame is the action the table lists for `k`. (The spec marks R31 as an inference of
its own.) -/
def Obligations.FrameStepsAreTheTable : Prop :=
  ∀ (cfg : Config) (bits : List Bool),
    let n := bits.length
    let steps := frameActions cfg bits
    steps.length = 5 + 6 * n
      ∧ steps[0]? = some .acquire
      ∧ steps[1]? = some (.write (levelTarget (csPin cfg) .low) (levelWord (csPin cfg)))
      ∧ steps[2]? = some .settle
      ∧ (∀ i (h : i < n),
          steps[3 + 6 * i]? =
              some (.write (levelTarget (dataPin cfg) (Level.ofBool bits[i])) (levelWord (dataPin cfg)))
            ∧ steps[4 + 6 * i]? = some .settle
            ∧ steps[5 + 6 * i]? = some (.write (levelTarget (clkPin cfg) .high) (levelWord (clkPin cfg)))
            ∧ steps[6 + 6 * i]? = some .settle
            ∧ steps[7 + 6 * i]? = some (.write (levelTarget (clkPin cfg) .low) (levelWord (clkPin cfg)))
            ∧ steps[8 + 6 * i]? = some .settle)
      ∧ steps[3 + 6 * n]? = some (.write (levelTarget (csPin cfg) .high) (levelWord (csPin cfg)))
      ∧ steps[4 + 6 * n]? = some .release

/-- R31: after `k` steps of a frame, preempted there, the context stands at `At(k)` with the frame unchanged and the
steps from `k` on still to do. (The spec marks R31 as an inference of its own.) -/
def Obligations.SequencerCountsTheStepsDone : Prop :=
  ∀ (s : State) (bits : List Bool) (k : Nat), (s.ctx s.cur).call = none → s.life = .operational →
    s.txLock = .free → s.quantum = some k → k ≤ 4 + 6 * bits.length →
    ∃ t, exec (.sendFrame bits) s = .next t
      ∧ (t.ctx s.cur).seq = .at k
      ∧ (t.ctx s.cur).frame = some bits
      ∧ (t.ctx s.cur).work = (frameActions s.cfg bits).drop k ++ [.ret]
      ∧ t.txLock = (if k = 0 then .free else .held s.cur)

/-- R118, R117: once started, with the lock free and no other context between its actions, `send_frame` makes the
reference receiver deliver exactly the bits sent when they are 16, discard them when they are fewer, and deliver
nothing else. (The spec marks R118 as an inference of its own.) -/
def Obligations.ReceiverGetsTheFrameSent : Prop :=
  ∀ (s : State) (bits : List Bool), Ready s → s.cfg.wf = true → Started s → s.txLock = .free →
    ∃ t es, exec (.sendFrame bits) s = .next t
      ∧ t.trace = s.trace ++ es
      ∧ (received s es).deliveries = [deliver bits]
      ∧ (received s es).collected = bits

/-- R62, R144: a context that stands before the acquire step of a frame while another holds the lock, let run, performs
nothing: no event, no register, no latch, and it stands where it stood. -/
def Obligations.WaitingContextDoesNothing : Prop :=
  ∀ (s : State) (d : Nat) (q : Option Nat) (rest : List Input) (bits : List Bool), Inv s →
    s.inputs = .resume d q :: rest → (s.ctx d).frame = some bits → (s.ctx d).seq = .at 0 → s.txLock ≠ .free →
    ∃ t, step s = .next t
      ∧ t.trace = s.trace
      ∧ SameRegisters s t ∧ SameControl s t
      ∧ ∀ c, t.ctx c = s.ctx c

/-- R144, R113 (corner case 3): a transmission called while the lock is held, by whatever operation, waits at `At(0)` with
its frame fixed and every step of it still to do; no event occurs and nothing else changes (the caller's own lock: log
22). -/
def Obligations.TransmissionWaitsForTheLock : Prop :=
  ∀ (s : State) (i : Instr) (bits : List Bool), Ready s → s.life = .operational → s.txLock ≠ .free →
    (i = .sendFrame bits
      ∨ (∃ (ch : Channel) (m : Fin 1024), i = .write ch m.val ∧ bits = frameBits ch (BitVec.ofNat 10 m.val))
      ∨ (∃ m, i = .loadA m ∧ bits = frameBits .A m)
      ∨ (∃ m, i = .loadB m ∧ bits = frameBits .B m)
      ∨ ∃ m, i = .loadAB m ∧ bits = frameBits .AB m) →
    ∃ t, exec i s = .next t
      ∧ t.ctx s.cur =
          { s.ctx s.cur with
            seq := .at 0, frame := some bits, call := some i, work := frameActions s.cfg bits ++ [.ret],
            result := .pending }
      ∧ (∀ d, d ≠ s.cur → t.ctx d = s.ctx d)
      ∧ t.trace = s.trace
      ∧ SameRegisters s t ∧ SameControl s t ∧ t.draws = s.draws

/-- R144, R113: a context that waits before the acquire step of its frame, let run once the lock is free, acquires it and
sends the whole frame, and its call returns. -/
def Obligations.WaitingFrameIsSentOnceTheLockIsFree : Prop :=
  ∀ (s : State) (d : Nat) (rest : List Input) (bits : List Bool), Inv s → s.cfg.wf = true →
    s.inputs = .resume d none :: rest → (s.ctx d).frame = some bits → (s.ctx d).seq = .at 0 → s.txLock = .free →
    ∃ t, step s = .next t
      ∧ t.trace = s.trace ++ frameEvents s.cfg d bits
      ∧ FrameLatches s t bits
      ∧ t.ctx d = (s.ctx d).atRest.returned .done
      ∧ (∀ c, c ≠ d → t.ctx c = s.ctx c)
      ∧ t.fsel = s.fsel ∧ SameControl s t ∧ t.draws = s.draws

/-! ## Encoder -/

/-- R121, R123: `write` of a magnitude 0..1023 has the effect of `send_frame` of
`bits4(command) ++ bits10(magnitude) ++ [0, 0]`. -/
def Obligations.WriteSendsTheEncodedFrame : Prop :=
  ∀ (s : State) (ch : Channel) (m : Fin 1024), Ready s → s.cfg.wf = true → s.life = .operational →
    s.txLock = .free →
    let bits := bitsMsb (command ch) ++ bitsMsb (BitVec.ofNat 10 m.val) ++ [false, false]
    ∃ t, exec (.write ch m.val) s = .next t
      ∧ Returns s t (s.ctx s.cur).atRest .done (frameEvents s.cfg s.cur bits)
      ∧ FrameLatches s t bits
      ∧ t.fsel = s.fsel ∧ SameControl s t ∧ t.draws = s.draws

/-- R79, R121 as the table's rows `LOAD_A`, `LOAD_B`, `LOAD_AB`: each sends the 16 bits of its frame word, bit 15 first. -/
def Obligations.FrameCommandSendsItsWord : Prop :=
  ∀ (s : State) (m : BitVec 10) (i : Instr) (w : BitVec 16), Ready s → s.cfg.wf = true → s.life = .operational →
    s.txLock = .free →
    (i = .loadA m ∧ w = 0x9000#16 ||| (m.setWidth 16 <<< 2)
      ∨ i = .loadB m ∧ w = 0xA000#16 ||| (m.setWidth 16 <<< 2)
      ∨ i = .loadAB m ∧ w = 0xF000#16 ||| (m.setWidth 16 <<< 2)) →
    ∃ t, exec i s = .next t
      ∧ Returns s t (s.ctx s.cur).atRest .done (frameEvents s.cfg s.cur (bitsMsb w))
      ∧ FrameLatches s t (bitsMsb w)
      ∧ t.fsel = s.fsel ∧ SameControl s t ∧ t.draws = s.draws

/-- R122, R152: `write` of a magnitude outside 0..1023 is refused. -/
def Obligations.MagnitudeOutOfRangeIsRefused : Prop :=
  ∀ (s : State) (ch : Channel) (m : Int), s.life = .operational → (m < 0 ∨ 1023 < m) →
    exec (.write ch m) s = .refused .badMagnitude

/-! ## Boundary -/

/-- R132: `store_volume` of a text that parses to 0..1023 stores the value, records `Accept`, and sends the frame to
channel A; of any other text it records `Reject`, returns `InvalidArgument` and changes nothing else; outside
`Operational` it has no step. -/
def Obligations.StoreVolumeStoresAndSends : Prop :=
  ∀ (s : State) (x : Text),
    (∀ m : Fin 1024, Ready s → s.cfg.wf = true → s.life = .operational → s.txLock = .free →
        parseDec x = some (m.val : Int) →
        ∃ t, exec (.storeVolume x) s = .next t
          ∧ Returns s t (s.ctx s.cur).atRest .done
              (.accept s.cur .volume m.val :: frameEvents s.cfg s.cur (frameBits .A (BitVec.ofNat 10 m.val)))
          ∧ FrameLatches s t (frameBits .A (BitVec.ofNat 10 m.val))
          ∧ t.vol = m.val ∧ t.bas = s.bas ∧ t.onv = s.onv
          ∧ t.fsel = s.fsel ∧ t.life = s.life ∧ t.txLock = s.txLock ∧ t.surface = s.surface ∧ t.draws = s.draws)
      ∧ (Ready s → s.life = .operational →
          (parseDec x = none ∨ ∃ v, parseDec x = some v ∧ (v < 0 ∨ 1023 < v)) →
          ∃ t, exec (.storeVolume x) s = .next t
            ∧ Returns s t (s.ctx s.cur) (.failed (.invalidArgument .volume)) [.reject s.cur .volume]
            ∧ SameRegisters s t ∧ SameControl s t ∧ t.draws = s.draws)
      ∧ (s.life ≠ .operational → exec (.storeVolume x) s = .refused .badLifecycle)

/-- R133: as `store_volume`, with `bass` and channel B. -/
def Obligations.StoreBassStoresAndSends : Prop :=
  ∀ (s : State) (x : Text),
    (∀ m : Fin 1024, Ready s → s.cfg.wf = true → s.life = .operational → s.txLock = .free →
        parseDec x = some (m.val : Int) →
        ∃ t, exec (.storeBass x) s = .next t
          ∧ Returns s t (s.ctx s.cur).atRest .done
              (.accept s.cur .bass m.val :: frameEvents s.cfg s.cur (frameBits .B (BitVec.ofNat 10 m.val)))
          ∧ FrameLatches s t (frameBits .B (BitVec.ofNat 10 m.val))
          ∧ t.bas = m.val ∧ t.vol = s.vol ∧ t.onv = s.onv
          ∧ t.fsel = s.fsel ∧ t.life = s.life ∧ t.txLock = s.txLock ∧ t.surface = s.surface ∧ t.draws = s.draws)
      ∧ (Ready s → s.life = .operational →
          (parseDec x = none ∨ ∃ v, parseDec x = some v ∧ (v < 0 ∨ 1023 < v)) →
          ∃ t, exec (.storeBass x) s = .next t
            ∧ Returns s t (s.ctx s.cur) (.failed (.invalidArgument .bass)) [.reject s.cur .bass]
            ∧ SameRegisters s t ∧ SameControl s t ∧ t.draws = s.draws)
      ∧ (s.life ≠ .operational → exec (.storeBass x) s = .refused .badLifecycle)

/-- R132, R133 (the order of their steps): with the lock held, an accepted `store_volume` or `store_bass` stores the value
and records `Accept` at once, then waits at `At(0)` with the value's frame; no register access occurs. -/
def Obligations.ValueIsStoredBeforeTheLockIsTaken : Prop :=
  ∀ (s : State) (x : Text) (m : Fin 1024) (i : Instr) (name : Attr) (ch : Channel), Ready s → s.life = .operational →
    s.txLock ≠ .free → parseDec x = some (m.val : Int) →
    (i = .storeVolume x ∧ name = .volume ∧ ch = .A ∨ i = .storeBass x ∧ name = .bass ∧ ch = .B) →
    ∃ t, exec i s = .next t
      ∧ t.trace = s.trace ++ [.accept s.cur name m.val]
      ∧ t.stored name = m.val
      ∧ (∀ other, other ≠ name → t.stored other = s.stored other)
      ∧ (t.ctx s.cur).call = some i
      ∧ (t.ctx s.cur).seq = .at 0
      ∧ (t.ctx s.cur).frame = some (frameBits ch (BitVec.ofNat 10 m.val))
      ∧ (∀ d, d ≠ s.cur → t.ctx d = s.ctx d)
      ∧ SameRegisters s t ∧ t.txLock = s.txLock ∧ t.life = s.life

/-- R134: `store_on` of a text that parses to 0..`ON_MAX` stores the integer, records `Accept`, and sets the enable pin
high when it is not 0 and low when it is, in one register write, with no frame, no lock and no settle; any other text is
rejected as R134 says; outside `Operational` it has no step. -/
def Obligations.StoreOnSetsTheEnablePin : Prop :=
  ∀ (s : State) (x : Text),
    (∀ v : Nat, Ready s → s.life = .operational → parseDec x = some (v : Int) → v ≤ s.cfg.onMax →
        ∃ t, exec (.storeOn x) s = .next t
          ∧ Returns s t (s.ctx s.cur) .done
              [.accept s.cur .on v, setLevelEvent s.cur (enPin s.cfg) (if v ≠ 0 then .high else .low)]
          ∧ t.latchAt (enPin s.cfg) = (if v ≠ 0 then .high else .low)
          ∧ (∀ p : Pin, p ≠ enPin s.cfg → t.latchAt p = s.latchAt p)
          ∧ t.onv = v ∧ t.vol = s.vol ∧ t.bas = s.bas
          ∧ t.fsel = s.fsel ∧ t.life = s.life ∧ t.txLock = s.txLock ∧ t.surface = s.surface ∧ t.draws = s.draws)
      ∧ (Ready s → s.life = .operational →
          (parseDec x = none ∨ ∃ v, parseDec x = some v ∧ (v < 0 ∨ (s.cfg.onMax : Int) < v)) →
          ∃ t, exec (.storeOn x) s = .next t
            ∧ Returns s t (s.ctx s.cur) (.failed (.invalidArgument .on)) [.reject s.cur .on]
            ∧ SameRegisters s t ∧ SameControl s t ∧ t.draws = s.draws)
      ∧ (s.life ≠ .operational → exec (.storeOn x) s = .refused .badLifecycle)

/-- R138 (a), for every value, and R134 for `on`: the decimal string of an integer outside 0..1023 is rejected by
`store_volume` and `store_bass`, that of one outside 0..`ON_MAX` by `store_on`: the call returns `InvalidArgument`, the
stored values stay, and nothing is sent (negative numbers: log 16). -/
def Obligations.ValueOutOfRangeIsRejected : Prop :=
  ∀ (s : State) (m : Int) (i : Instr) (name : Attr), Ready s → s.life = .operational →
    ((m < 0 ∨ 1023 < m)
        ∧ (i = .storeVolume (decimalInt m) ∧ name = .volume ∨ i = .storeBass (decimalInt m) ∧ name = .bass)
      ∨ (m < 0 ∨ (s.cfg.onMax : Int) < m) ∧ i = .storeOn (decimalInt m) ∧ name = .on) →
    ∃ t, exec i s = .next t
      ∧ Returns s t (s.ctx s.cur) (.failed (.invalidArgument name)) [.reject s.cur name]
      ∧ SameRegisters s t ∧ SameControl s t ∧ t.draws = s.draws

/-- R135: each `show_*` returns the stored value as a decimal string and a line feed, with no event and no change; outside
`Operational` it has no step. -/
def Obligations.ShowReturnsTheStoredValue : Prop :=
  ∀ (s : State) (i : Instr) (v : Nat),
    (i = .showVolume ∧ v = s.vol ∨ i = .showBass ∧ v = s.bas ∨ i = .showOn ∧ v = s.onv) →
    (Ready s → s.life = .operational →
        ∃ t, exec i s = .next t
          ∧ Returns s t (s.ctx s.cur) (.text (decimal v ++ [0x0A#8])) []
          ∧ SameRegisters s t ∧ SameControl s t ∧ t.draws = s.draws)
      ∧ (s.life ≠ .operational → exec i s = .refused .badLifecycle)

/-- R138 (b), for every value: after a `store_volume` of the decimal string of a value 0..1023, `show_volume` returns that
string and a line feed; the same for `bass`. -/
def Obligations.StoredValueIsShown : Prop :=
  ∀ (s : State) (m : Fin 1024), Ready s → s.cfg.wf = true → s.life = .operational → s.txLock = .free →
    (∃ t, andThen (exec (.storeVolume (decimal m.val)) s) (exec .showVolume) = .next t
        ∧ (t.ctx s.cur).result = .text (decimal m.val ++ [0x0A#8]))
      ∧ ∃ t, andThen (exec (.storeBass (decimal m.val)) s) (exec .showBass) = .next t
        ∧ (t.ctx s.cur).result = .text (decimal m.val ++ [0x0A#8])

/-- R118, R132, R82 together: once started, with the lock free, what the reference receiver gets from an accepted
`store_volume` is one frame, which reads back as command 9, the accepted value and padding 00; from an accepted
`store_bass`, command 10. (The spec marks R82, R118 as an inference of its own.) -/
def Obligations.AcceptedValueReachesTheReceiver : Prop :=
  ∀ (s : State) (x : Text) (m : Fin 1024) (i : Instr) (n : Nat), Ready s → s.cfg.wf = true → Started s →
    s.txLock = .free → parseDec x = some (m.val : Int) →
    (i = .storeVolume x ∧ n = 9 ∨ i = .storeBass x ∧ n = 10) →
    ∃ t es bits, exec i s = .next t
      ∧ t.trace = s.trace ++ es
      ∧ (received s es).deliveries = [.frame bits]
      ∧ frameFields bits = some { command := n, magnitude := m.val, pad := (false, false) }

/-! ## Lifecycle -/

/-- R140, R37: `start` from `Uninitialized`, when the registration succeeds: the four role pins are outputs,
chip-select is high and the clock low, the block is operational; every other latch and pin function is as before; no
settle and no lock event occurs, and with one read-modify-write a pin there are 4 reads and 6 writes. The mirror,
which R38 does not let `start` write, is as before. (The spec marks R37 as an inference of its own.) -/
def Obligations.StartMakesTheBlockOperational : Prop :=
  ∀ s : State, Ready s → s.cfg.wf = true → s.life = .uninitialized → s.anyCall isStart = false →
    s.surface.head? ≠ some false →
    ∃ t es, exec .start s = .next t
      ∧ Returns s t (s.ctx s.cur) .done es
      ∧ Started t
      ∧ (∀ p : Pin, p ≠ csPin s.cfg → p ≠ clkPin s.cfg → t.latchAt p = s.latchAt p)
      ∧ (∀ p : Pin, p ≠ csPin s.cfg → p ≠ clkPin s.cfg → p ≠ dataPin s.cfg → p ≠ enPin s.cfg → t.fn p = s.fn p)
      ∧ (∀ k : Fin 6, t.fsel[k.val].extractLsb' 30 2 = (s.fsel[k.val]).extractLsb' 30 2)
      ∧ es.countP isSettle = 0
      ∧ (∀ c, Event.acq c ∉ es ∧ Event.rel c ∉ es)
      ∧ (s.cfg.configureSplit = false → es.countP isRead = 4 ∧ es.countP isWrite = 6)
      ∧ t.txLock = s.txLock
      ∧ t.vol = s.vol ∧ t.bas = s.bas ∧ t.onv = s.onv
      ∧ t.surface = s.surface.tail ∧ t.draws = s.draws

/-- R146: `start` when the registration fails returns `InitFailure`; the block is `Uninitialized` again and the pins stay
configured, chip-select high and the clock low; every other latch, pin function and the mirror are as before. -/
def Obligations.FailedRegistrationEndsTheStart : Prop :=
  ∀ s : State, Ready s → s.cfg.wf = true → s.life = .uninitialized → s.anyCall isStart = false →
    s.surface.head? = some false →
    ∃ t es, exec .start s = .next t
      ∧ Returns s t (s.ctx s.cur) (.failed .initFailure) es
      ∧ t.life = .uninitialized
      ∧ t.fn (csPin s.cfg) = s.cfg.codeOutput ∧ t.fn (clkPin s.cfg) = s.cfg.codeOutput
      ∧ t.fn (dataPin s.cfg) = s.cfg.codeOutput ∧ t.fn (enPin s.cfg) = s.cfg.codeOutput
      ∧ t.latchAt (csPin s.cfg) = .high ∧ t.latchAt (clkPin s.cfg) = .low
      ∧ (∀ p : Pin, p ≠ csPin s.cfg → p ≠ clkPin s.cfg → t.latchAt p = s.latchAt p)
      ∧ (∀ p : Pin, p ≠ csPin s.cfg → p ≠ clkPin s.cfg → p ≠ dataPin s.cfg → p ≠ enPin s.cfg → t.fn p = s.fn p)
      ∧ (∀ k : Fin 6, t.fsel[k.val].extractLsb' 30 2 = (s.fsel[k.val]).extractLsb' 30 2)
      ∧ t.vol = s.vol ∧ t.bas = s.bas ∧ t.onv = s.onv
      ∧ t.txLock = s.txLock ∧ t.surface = s.surface.tail ∧ t.draws = s.draws

/-- R141, R143, R152: `start` outside `Uninitialized`, or while a context is inside `start` (U19; log 24), and the
transmissions outside `Operational`, are refused; so is `stop`, by a context that can make a call. That the frame
commands are refused as `write` is, and `write` with this reason whatever its magnitude, is the model's reading
(log 23). -/
def Obligations.LifetimeStateGuardsTheCalls : Prop :=
  ∀ s : State,
    (s.life ≠ .uninitialized → exec .start s = .refused .badLifecycle)
      ∧ (∀ c, (s.ctx c).call = some .start → exec .start s = .refused .badLifecycle)
      ∧ (s.life ≠ .operational →
          (∀ v, exec (.sendBit v) s = .refused .badLifecycle)
            ∧ (∀ bits, exec (.sendFrame bits) s = .refused .badLifecycle)
            ∧ (∀ ch m, exec (.write ch m) s = .refused .badLifecycle)
            ∧ (∀ m, exec (.loadA m) s = .refused .badLifecycle ∧ exec (.loadB m) s = .refused .badLifecycle
                ∧ exec (.loadAB m) s = .refused .badLifecycle)
            ∧ (Ready s → exec .stop s = .refused .badLifecycle))

/-- R142: `stop` of an operational block with the lock free, every sequencer idle and no boundary call in progress ends the
lifetime: `life` is `Uninitialized` and no register, latch, mirror value or event changes. -/
def Obligations.StopEndsTheLifetime : Prop :=
  ∀ s : State, Ready s → s.ctxs.wf = true → s.life = .operational → s.txLock = .free →
    (∀ c, (s.ctx c).seq = .idle) → (∀ c i, (s.ctx c).call = some i → isBoundary i = false) →
    ∃ t, exec .stop s = .next t
      ∧ Returns s t (s.ctx s.cur) .done []
      ∧ t.life = .uninitialized
      ∧ SameRegisters s t
      ∧ t.txLock = .free ∧ t.vol = s.vol ∧ t.bas = s.bas ∧ t.onv = s.onv
      ∧ t.surface = s.surface ∧ t.draws = s.draws

/-- R142, U20: `stop` while the lock is held, a context stands inside `send_frame`, or a boundary call is in progress has
no effect yet: the caller waits, and nothing of the block changes. -/
def Obligations.StopWaitsForTheFrame : Prop :=
  ∀ s : State, Ready s → s.life = .operational →
    (s.txLock ≠ .free ∨ (∃ c, (s.ctx c).seq ≠ .idle)
      ∨ ∃ c i, (s.ctx c).call = some i ∧ isBoundary i = true) →
    ∃ t, exec .stop s = .next t
      ∧ (t.ctx s.cur).call = some .stop
      ∧ (t.ctx s.cur).work = [.teardown, .ret]
      ∧ (∀ c, (t.ctx c).seq = (s.ctx c).seq ∧ (t.ctx c).frame = (s.ctx c).frame)
      ∧ (∀ d, d ≠ s.cur → t.ctx d = s.ctx d)
      ∧ t.trace = s.trace
      ∧ SameRegisters s t ∧ SameControl s t ∧ t.draws = s.draws

/-- R144: `lock_acquire` takes a free lock, records `Acq` and stands at `At(1)`; while another context, or its own, holds
the lock the caller waits at `At(0)` and performs nothing. -/
def Obligations.LockAcquireTakesOrWaits : Prop :=
  ∀ s : State, Ready s →
    (s.txLock = .free →
        ∃ t, exec .lockAcquire s = .next t
          ∧ Returns s t { s.ctx s.cur with seq := .at 1 } .done [.acq s.cur]
          ∧ t.txLock = .held s.cur
          ∧ SameRegisters s t ∧ t.life = s.life ∧ t.vol = s.vol ∧ t.bas = s.bas ∧ t.onv = s.onv
          ∧ t.surface = s.surface ∧ t.draws = s.draws)
      ∧ (s.txLock ≠ .free →
        ∃ t, exec .lockAcquire s = .next t
          ∧ (t.ctx s.cur).seq = .at 0
          ∧ (t.ctx s.cur).work = [.acquire, .ret]
          ∧ t.trace = s.trace
          ∧ (∀ d, d ≠ s.cur → t.ctx d = s.ctx d)
          ∧ SameRegisters s t ∧ SameControl s t ∧ t.draws = s.draws)

/-- R145: `lock_release` by the holder frees the lock, records `Rel` and leaves its sequencer idle; by a context that does
not hold the lock it is refused (log 22). -/
def Obligations.LockReleaseFreesTheHoldersLock : Prop :=
  ∀ s : State, Ready s →
    (s.txLock = .held s.cur →
        ∃ t, exec .lockRelease s = .next t
          ∧ Returns s t (s.ctx s.cur).atRest .done [.rel s.cur]
          ∧ t.txLock = .free
          ∧ SameRegisters s t ∧ t.life = s.life ∧ t.vol = s.vol ∧ t.bas = s.bas ∧ t.onv = s.onv
          ∧ t.surface = s.surface ∧ t.draws = s.draws)
      ∧ (s.txLock ≠ .held s.cur → exec .lockRelease s = .refused .notHolder)

/-! ## The whole machine -/

/-- The invariants hold at reset. -/
def Obligations.InvariantsHoldAtReset : Prop := Inv State.reset ∧ LifeInv State.reset

/-- R62, R31, R32: every step keeps the invariant: contexts as calls leave them, at most one past the acquire step of
a region and it holds the lock, mirror values in range or still initial. (The spec marks R31 as an inference of its
own.) -/
def Obligations.StepKeepsTheInvariant : Prop := ∀ s t : State, Inv s → step s = .next t → Inv t

/-- R131, R142, R143, R181: every step keeps the lifetime invariant: frames are in flight and boundary calls in progress
only while the block is operational. -/
def Obligations.StepKeepsTheLifetimeInvariant : Prop :=
  ∀ s t : State, Inv s → LifeInv s → step s = .next t → LifeInv t

/-- R35: no step changes a parameter: the pin binding, the base, the offsets, the codes, the settle time. -/
def Obligations.ParametersNeverChange : Prop := ∀ s t : State, step s = .next t → t.cfg = s.cfg

/-- R59, R56, R58: whatever a step does, its events explain it: the trace grows by them, the function-select words
and the latches are what the register writes among them leave, and every read of a function-select register returned
the latest word written before it. (The spec marks R56 as an inference of its own.) -/
def Obligations.TraceExplainsTheRegisters : Prop :=
  ∀ s t : State, step s = .next t →
    ∃ es, t.trace = s.trace ++ es
      ∧ Consistent s es
      ∧ t.fsel = (s.replayAll es).fsel
      ∧ t.latch = (s.replayAll es).latch

/-- R143, R159: no operation but `start` and `stop` changes the lifetime state; and in a state that satisfies the
invariant a step that changes it is one of a context inside `start` or `stop`, from its call or resumed. -/
def Obligations.OnlyStartAndStopChangeLife : Prop :=
  (∀ (s t : State) (i : Instr), exec i s = .next t → i ≠ .start → i ≠ .stop → t.life = s.life)
    ∧ ∀ s t : State, Inv s → step s = .next t → t.life ≠ s.life →
        s.acting = some .start ∨ s.acting = some .stop

/-- R38, the access matrix (`writes`): an operation leaves alone the function-select words, the latches, `life`, the lock
and the mirror values that its row does not let it write, whatever state it starts in and wherever it is preempted. In
a state that satisfies the invariant so does every step, of a call or a resumed one, and it leaves `seq` and `frame` alone
too where the row says so; a step of no operation changes none of these. The call of a `start` begins a lifetime, whose
mirror is at `MIRROR_INIT` (R36; log 20). (The spec marks R38 as an inference of its own.) -/
def Obligations.OperationsKeepToTheirState : Prop :=
  (∀ (s t : State) (i : Instr), exec i s = .next t → Keeps (writes i) s t)
    ∧ ∀ s t : State, Inv s → step s = .next t →
        (s.acting = none → Keeps {} s t ∧ KeepsFrames {} s t)
          ∧ ∀ i, s.acting = some i →
              (Keeps (writes i) s t ∨ i = .start ∧ Keeps (writes .start) s.initMirror t) ∧ KeepsFrames (writes i) s t

/-- R17, R110: preempting a call after any number of its actions and letting it go on later, with nothing between,
gives what it gives when it is not preempted: preemption only delays. (The spec marks R17 as an inference of its
own.) -/
def Obligations.PreemptionOnlyDelays : Prop :=
  ∀ (s : State) (i : Instr) (n : Nat), s.ctxs.wf = true →
    andThen (exec i (s.scheduled s.cur (some n))) (fun t => resumeCall (t.scheduled s.cur none))
      = exec i (s.scheduled s.cur none)
end

