-- ==== Sys2Proof/Laws/State.lean ====
section
/-! SUPPORT. Laws/State.lean: one lemma per field per update of the state, true by rfl, and the laws of the sparse record of
contexts: reading back what was put, and the canonical form kept. No later proof unfolds a record update. -/

namespace Sys2Proof.Machine

/-! ### `State.emit` -/

@[simp] theorem State.emit_cfg (s : State) (e : Event) : (s.emit e).cfg = s.cfg := rfl
@[simp] theorem State.emit_fsel (s : State) (e : Event) : (s.emit e).fsel = s.fsel := rfl
@[simp] theorem State.emit_latch (s : State) (e : Event) : (s.emit e).latch = s.latch := rfl
@[simp] theorem State.emit_life (s : State) (e : Event) : (s.emit e).life = s.life := rfl
@[simp] theorem State.emit_txLock (s : State) (e : Event) : (s.emit e).txLock = s.txLock := rfl
@[simp] theorem State.emit_ctxs (s : State) (e : Event) : (s.emit e).ctxs = s.ctxs := rfl
@[simp] theorem State.emit_vol (s : State) (e : Event) : (s.emit e).vol = s.vol := rfl
@[simp] theorem State.emit_bas (s : State) (e : Event) : (s.emit e).bas = s.bas := rfl
@[simp] theorem State.emit_onv (s : State) (e : Event) : (s.emit e).onv = s.onv := rfl
@[simp] theorem State.emit_trace (s : State) (e : Event) : (s.emit e).trace = s.trace ++ [e] := rfl
@[simp] theorem State.emit_cur (s : State) (e : Event) : (s.emit e).cur = s.cur := rfl
@[simp] theorem State.emit_quantum (s : State) (e : Event) : (s.emit e).quantum = s.quantum := rfl
@[simp] theorem State.emit_inputs (s : State) (e : Event) : (s.emit e).inputs = s.inputs := rfl
@[simp] theorem State.emit_surface (s : State) (e : Event) : (s.emit e).surface = s.surface := rfl
@[simp] theorem State.emit_draws (s : State) (e : Event) : (s.emit e).draws = s.draws := rfl
@[simp] theorem State.emit_ctx (s : State) (e : Event) (d : Nat) : (s.emit e).ctx d = s.ctx d := rfl

/-! ### `State.setCtx` -/

@[simp] theorem State.setCtx_cfg (s : State) (c : Nat) (x : Ctx) : (s.setCtx c x).cfg = s.cfg := rfl
@[simp] theorem State.setCtx_fsel (s : State) (c : Nat) (x : Ctx) : (s.setCtx c x).fsel = s.fsel := rfl
@[simp] theorem State.setCtx_latch (s : State) (c : Nat) (x : Ctx) : (s.setCtx c x).latch = s.latch := rfl
@[simp] theorem State.setCtx_life (s : State) (c : Nat) (x : Ctx) : (s.setCtx c x).life = s.life := rfl
@[simp] theorem State.setCtx_txLock (s : State) (c : Nat) (x : Ctx) : (s.setCtx c x).txLock = s.txLock := rfl
@[simp] theorem State.setCtx_ctxs (s : State) (c : Nat) (x : Ctx) : (s.setCtx c x).ctxs = s.ctxs.set c x := rfl
@[simp] theorem State.setCtx_vol (s : State) (c : Nat) (x : Ctx) : (s.setCtx c x).vol = s.vol := rfl
@[simp] theorem State.setCtx_bas (s : State) (c : Nat) (x : Ctx) : (s.setCtx c x).bas = s.bas := rfl
@[simp] theorem State.setCtx_onv (s : State) (c : Nat) (x : Ctx) : (s.setCtx c x).onv = s.onv := rfl
@[simp] theorem State.setCtx_trace (s : State) (c : Nat) (x : Ctx) : (s.setCtx c x).trace = s.trace := rfl
@[simp] theorem State.setCtx_cur (s : State) (c : Nat) (x : Ctx) : (s.setCtx c x).cur = s.cur := rfl
@[simp] theorem State.setCtx_quantum (s : State) (c : Nat) (x : Ctx) : (s.setCtx c x).quantum = s.quantum := rfl
@[simp] theorem State.setCtx_inputs (s : State) (c : Nat) (x : Ctx) : (s.setCtx c x).inputs = s.inputs := rfl
@[simp] theorem State.setCtx_surface (s : State) (c : Nat) (x : Ctx) : (s.setCtx c x).surface = s.surface := rfl
@[simp] theorem State.setCtx_draws (s : State) (c : Nat) (x : Ctx) : (s.setCtx c x).draws = s.draws := rfl

/-! ### `State.mapCtx` -/

@[simp] theorem State.mapCtx_cfg (s : State) (c : Nat) (f : Ctx → Ctx) : (s.mapCtx c f).cfg = s.cfg := rfl
@[simp] theorem State.mapCtx_fsel (s : State) (c : Nat) (f : Ctx → Ctx) : (s.mapCtx c f).fsel = s.fsel := rfl
@[simp] theorem State.mapCtx_latch (s : State) (c : Nat) (f : Ctx → Ctx) : (s.mapCtx c f).latch = s.latch := rfl
@[simp] theorem State.mapCtx_life (s : State) (c : Nat) (f : Ctx → Ctx) : (s.mapCtx c f).life = s.life := rfl
@[simp] theorem State.mapCtx_txLock (s : State) (c : Nat) (f : Ctx → Ctx) : (s.mapCtx c f).txLock = s.txLock := rfl
@[simp] theorem State.mapCtx_ctxs (s : State) (c : Nat) (f : Ctx → Ctx) : (s.mapCtx c f).ctxs = s.ctxs.set c (f (s.ctx c)) := rfl
@[simp] theorem State.mapCtx_vol (s : State) (c : Nat) (f : Ctx → Ctx) : (s.mapCtx c f).vol = s.vol := rfl
@[simp] theorem State.mapCtx_bas (s : State) (c : Nat) (f : Ctx → Ctx) : (s.mapCtx c f).bas = s.bas := rfl
@[simp] theorem State.mapCtx_onv (s : State) (c : Nat) (f : Ctx → Ctx) : (s.mapCtx c f).onv = s.onv := rfl
@[simp] theorem State.mapCtx_trace (s : State) (c : Nat) (f : Ctx → Ctx) : (s.mapCtx c f).trace = s.trace := rfl
@[simp] theorem State.mapCtx_cur (s : State) (c : Nat) (f : Ctx → Ctx) : (s.mapCtx c f).cur = s.cur := rfl
@[simp] theorem State.mapCtx_quantum (s : State) (c : Nat) (f : Ctx → Ctx) : (s.mapCtx c f).quantum = s.quantum := rfl
@[simp] theorem State.mapCtx_inputs (s : State) (c : Nat) (f : Ctx → Ctx) : (s.mapCtx c f).inputs = s.inputs := rfl
@[simp] theorem State.mapCtx_surface (s : State) (c : Nat) (f : Ctx → Ctx) : (s.mapCtx c f).surface = s.surface := rfl
@[simp] theorem State.mapCtx_draws (s : State) (c : Nat) (f : Ctx → Ctx) : (s.mapCtx c f).draws = s.draws := rfl

/-! ### `State.putFsel` -/

@[simp] theorem State.putFsel_cfg (s : State) (k : Fin 6) (v : Word) : (s.putFsel k v).cfg = s.cfg := rfl
@[simp] theorem State.putFsel_fsel (s : State) (k : Fin 6) (v : Word) : (s.putFsel k v).fsel = s.fsel.set k.val v := rfl
@[simp] theorem State.putFsel_latch (s : State) (k : Fin 6) (v : Word) : (s.putFsel k v).latch = s.latch := rfl
@[simp] theorem State.putFsel_life (s : State) (k : Fin 6) (v : Word) : (s.putFsel k v).life = s.life := rfl
@[simp] theorem State.putFsel_txLock (s : State) (k : Fin 6) (v : Word) : (s.putFsel k v).txLock = s.txLock := rfl
@[simp] theorem State.putFsel_ctxs (s : State) (k : Fin 6) (v : Word) : (s.putFsel k v).ctxs = s.ctxs := rfl
@[simp] theorem State.putFsel_vol (s : State) (k : Fin 6) (v : Word) : (s.putFsel k v).vol = s.vol := rfl
@[simp] theorem State.putFsel_bas (s : State) (k : Fin 6) (v : Word) : (s.putFsel k v).bas = s.bas := rfl
@[simp] theorem State.putFsel_onv (s : State) (k : Fin 6) (v : Word) : (s.putFsel k v).onv = s.onv := rfl
@[simp] theorem State.putFsel_trace (s : State) (k : Fin 6) (v : Word) : (s.putFsel k v).trace = s.trace := rfl
@[simp] theorem State.putFsel_cur (s : State) (k : Fin 6) (v : Word) : (s.putFsel k v).cur = s.cur := rfl
@[simp] theorem State.putFsel_quantum (s : State) (k : Fin 6) (v : Word) : (s.putFsel k v).quantum = s.quantum := rfl
@[simp] theorem State.putFsel_inputs (s : State) (k : Fin 6) (v : Word) : (s.putFsel k v).inputs = s.inputs := rfl
@[simp] theorem State.putFsel_surface (s : State) (k : Fin 6) (v : Word) : (s.putFsel k v).surface = s.surface := rfl
@[simp] theorem State.putFsel_draws (s : State) (k : Fin 6) (v : Word) : (s.putFsel k v).draws = s.draws := rfl
@[simp] theorem State.putFsel_ctx (s : State) (k : Fin 6) (v : Word) (d : Nat) : (s.putFsel k v).ctx d = s.ctx d := rfl

/-! ### `State.drive` -/

@[simp] theorem State.drive_cfg (s : State) (k : Fin 2) (v : Word) (l : Level) : (s.drive k v l).cfg = s.cfg := rfl
@[simp] theorem State.drive_fsel (s : State) (k : Fin 2) (v : Word) (l : Level) : (s.drive k v l).fsel = s.fsel := rfl
@[simp] theorem State.drive_life (s : State) (k : Fin 2) (v : Word) (l : Level) : (s.drive k v l).life = s.life := rfl
@[simp] theorem State.drive_txLock (s : State) (k : Fin 2) (v : Word) (l : Level) : (s.drive k v l).txLock = s.txLock := rfl
@[simp] theorem State.drive_ctxs (s : State) (k : Fin 2) (v : Word) (l : Level) : (s.drive k v l).ctxs = s.ctxs := rfl
@[simp] theorem State.drive_vol (s : State) (k : Fin 2) (v : Word) (l : Level) : (s.drive k v l).vol = s.vol := rfl
@[simp] theorem State.drive_bas (s : State) (k : Fin 2) (v : Word) (l : Level) : (s.drive k v l).bas = s.bas := rfl
@[simp] theorem State.drive_onv (s : State) (k : Fin 2) (v : Word) (l : Level) : (s.drive k v l).onv = s.onv := rfl
@[simp] theorem State.drive_trace (s : State) (k : Fin 2) (v : Word) (l : Level) : (s.drive k v l).trace = s.trace := rfl
@[simp] theorem State.drive_cur (s : State) (k : Fin 2) (v : Word) (l : Level) : (s.drive k v l).cur = s.cur := rfl
@[simp] theorem State.drive_quantum (s : State) (k : Fin 2) (v : Word) (l : Level) : (s.drive k v l).quantum = s.quantum := rfl
@[simp] theorem State.drive_inputs (s : State) (k : Fin 2) (v : Word) (l : Level) : (s.drive k v l).inputs = s.inputs := rfl
@[simp] theorem State.drive_surface (s : State) (k : Fin 2) (v : Word) (l : Level) : (s.drive k v l).surface = s.surface := rfl
@[simp] theorem State.drive_draws (s : State) (k : Fin 2) (v : Word) (l : Level) : (s.drive k v l).draws = s.draws := rfl
@[simp] theorem State.drive_ctx (s : State) (k : Fin 2) (v : Word) (l : Level) (d : Nat) : (s.drive k v l).ctx d = s.ctx d := rfl

@[simp] theorem State.drive_latch (s : State) (k : Fin 2) (v : Word) (l : Level) :
    (s.drive k v l).latch = driven s.latch (namedPins k v) l := rfl

/-! ### `State.putLock` -/

@[simp] theorem State.putLock_cfg (s : State) (l : Lock) : (s.putLock l).cfg = s.cfg := rfl
@[simp] theorem State.putLock_fsel (s : State) (l : Lock) : (s.putLock l).fsel = s.fsel := rfl
@[simp] theorem State.putLock_latch (s : State) (l : Lock) : (s.putLock l).latch = s.latch := rfl
@[simp] theorem State.putLock_life (s : State) (l : Lock) : (s.putLock l).life = s.life := rfl
@[simp] theorem State.putLock_txLock (s : State) (l : Lock) : (s.putLock l).txLock = l := rfl
@[simp] theorem State.putLock_ctxs (s : State) (l : Lock) : (s.putLock l).ctxs = s.ctxs := rfl
@[simp] theorem State.putLock_vol (s : State) (l : Lock) : (s.putLock l).vol = s.vol := rfl
@[simp] theorem State.putLock_bas (s : State) (l : Lock) : (s.putLock l).bas = s.bas := rfl
@[simp] theorem State.putLock_onv (s : State) (l : Lock) : (s.putLock l).onv = s.onv := rfl
@[simp] theorem State.putLock_trace (s : State) (l : Lock) : (s.putLock l).trace = s.trace := rfl
@[simp] theorem State.putLock_cur (s : State) (l : Lock) : (s.putLock l).cur = s.cur := rfl
@[simp] theorem State.putLock_quantum (s : State) (l : Lock) : (s.putLock l).quantum = s.quantum := rfl
@[simp] theorem State.putLock_inputs (s : State) (l : Lock) : (s.putLock l).inputs = s.inputs := rfl
@[simp] theorem State.putLock_surface (s : State) (l : Lock) : (s.putLock l).surface = s.surface := rfl
@[simp] theorem State.putLock_draws (s : State) (l : Lock) : (s.putLock l).draws = s.draws := rfl
@[simp] theorem State.putLock_ctx (s : State) (l : Lock) (d : Nat) : (s.putLock l).ctx d = s.ctx d := rfl

/-! ### `State.putLife` -/

@[simp] theorem State.putLife_cfg (s : State) (l : Life) : (s.putLife l).cfg = s.cfg := rfl
@[simp] theorem State.putLife_fsel (s : State) (l : Life) : (s.putLife l).fsel = s.fsel := rfl
@[simp] theorem State.putLife_latch (s : State) (l : Life) : (s.putLife l).latch = s.latch := rfl
@[simp] theorem State.putLife_life (s : State) (l : Life) : (s.putLife l).life = l := rfl
@[simp] theorem State.putLife_txLock (s : State) (l : Life) : (s.putLife l).txLock = s.txLock := rfl
@[simp] theorem State.putLife_ctxs (s : State) (l : Life) : (s.putLife l).ctxs = s.ctxs := rfl
@[simp] theorem State.putLife_vol (s : State) (l : Life) : (s.putLife l).vol = s.vol := rfl
@[simp] theorem State.putLife_bas (s : State) (l : Life) : (s.putLife l).bas = s.bas := rfl
@[simp] theorem State.putLife_onv (s : State) (l : Life) : (s.putLife l).onv = s.onv := rfl
@[simp] theorem State.putLife_trace (s : State) (l : Life) : (s.putLife l).trace = s.trace := rfl
@[simp] theorem State.putLife_cur (s : State) (l : Life) : (s.putLife l).cur = s.cur := rfl
@[simp] theorem State.putLife_quantum (s : State) (l : Life) : (s.putLife l).quantum = s.quantum := rfl
@[simp] theorem State.putLife_inputs (s : State) (l : Life) : (s.putLife l).inputs = s.inputs := rfl
@[simp] theorem State.putLife_surface (s : State) (l : Life) : (s.putLife l).surface = s.surface := rfl
@[simp] theorem State.putLife_draws (s : State) (l : Life) : (s.putLife l).draws = s.draws := rfl
@[simp] theorem State.putLife_ctx (s : State) (l : Life) (d : Nat) : (s.putLife l).ctx d = s.ctx d := rfl

/-! ### `State.putSurface` -/

@[simp] theorem State.putSurface_cfg (s : State) (rest : List Bool) : (s.putSurface rest).cfg = s.cfg := rfl
@[simp] theorem State.putSurface_fsel (s : State) (rest : List Bool) : (s.putSurface rest).fsel = s.fsel := rfl
@[simp] theorem State.putSurface_latch (s : State) (rest : List Bool) : (s.putSurface rest).latch = s.latch := rfl
@[simp] theorem State.putSurface_life (s : State) (rest : List Bool) : (s.putSurface rest).life = s.life := rfl
@[simp] theorem State.putSurface_txLock (s : State) (rest : List Bool) : (s.putSurface rest).txLock = s.txLock := rfl
@[simp] theorem State.putSurface_ctxs (s : State) (rest : List Bool) : (s.putSurface rest).ctxs = s.ctxs := rfl
@[simp] theorem State.putSurface_vol (s : State) (rest : List Bool) : (s.putSurface rest).vol = s.vol := rfl
@[simp] theorem State.putSurface_bas (s : State) (rest : List Bool) : (s.putSurface rest).bas = s.bas := rfl
@[simp] theorem State.putSurface_onv (s : State) (rest : List Bool) : (s.putSurface rest).onv = s.onv := rfl
@[simp] theorem State.putSurface_trace (s : State) (rest : List Bool) : (s.putSurface rest).trace = s.trace := rfl
@[simp] theorem State.putSurface_cur (s : State) (rest : List Bool) : (s.putSurface rest).cur = s.cur := rfl
@[simp] theorem State.putSurface_quantum (s : State) (rest : List Bool) : (s.putSurface rest).quantum = s.quantum := rfl
@[simp] theorem State.putSurface_inputs (s : State) (rest : List Bool) : (s.putSurface rest).inputs = s.inputs := rfl
@[simp] theorem State.putSurface_surface (s : State) (rest : List Bool) : (s.putSurface rest).surface = rest := rfl
@[simp] theorem State.putSurface_draws (s : State) (rest : List Bool) : (s.putSurface rest).draws = s.draws := rfl
@[simp] theorem State.putSurface_ctx (s : State) (rest : List Bool) (d : Nat) : (s.putSurface rest).ctx d = s.ctx d := rfl

/-! ### `State.drawn` -/

@[simp] theorem State.drawn_cfg (s : State) : (s.drawn).cfg = s.cfg := rfl
@[simp] theorem State.drawn_fsel (s : State) : (s.drawn).fsel = s.fsel := rfl
@[simp] theorem State.drawn_latch (s : State) : (s.drawn).latch = s.latch := rfl
@[simp] theorem State.drawn_life (s : State) : (s.drawn).life = s.life := rfl
@[simp] theorem State.drawn_txLock (s : State) : (s.drawn).txLock = s.txLock := rfl
@[simp] theorem State.drawn_ctxs (s : State) : (s.drawn).ctxs = s.ctxs := rfl
@[simp] theorem State.drawn_vol (s : State) : (s.drawn).vol = s.vol := rfl
@[simp] theorem State.drawn_bas (s : State) : (s.drawn).bas = s.bas := rfl
@[simp] theorem State.drawn_onv (s : State) : (s.drawn).onv = s.onv := rfl
@[simp] theorem State.drawn_trace (s : State) : (s.drawn).trace = s.trace := rfl
@[simp] theorem State.drawn_cur (s : State) : (s.drawn).cur = s.cur := rfl
@[simp] theorem State.drawn_quantum (s : State) : (s.drawn).quantum = s.quantum := rfl
@[simp] theorem State.drawn_inputs (s : State) : (s.drawn).inputs = s.inputs := rfl
@[simp] theorem State.drawn_surface (s : State) : (s.drawn).surface = s.surface := rfl
@[simp] theorem State.drawn_draws (s : State) : (s.drawn).draws = s.draws + 1 := rfl
@[simp] theorem State.drawn_ctx (s : State) (d : Nat) : (s.drawn).ctx d = s.ctx d := rfl

/-! ### `State.initMirror` -/

@[simp] theorem State.initMirror_cfg (s : State) : (s.initMirror).cfg = s.cfg := rfl
@[simp] theorem State.initMirror_fsel (s : State) : (s.initMirror).fsel = s.fsel := rfl
@[simp] theorem State.initMirror_latch (s : State) : (s.initMirror).latch = s.latch := rfl
@[simp] theorem State.initMirror_life (s : State) : (s.initMirror).life = s.life := rfl
@[simp] theorem State.initMirror_txLock (s : State) : (s.initMirror).txLock = s.txLock := rfl
@[simp] theorem State.initMirror_ctxs (s : State) : (s.initMirror).ctxs = s.ctxs := rfl
@[simp] theorem State.initMirror_vol (s : State) : (s.initMirror).vol = s.cfg.mirrorInit.vol := rfl
@[simp] theorem State.initMirror_bas (s : State) : (s.initMirror).bas = s.cfg.mirrorInit.bas := rfl
@[simp] theorem State.initMirror_onv (s : State) : (s.initMirror).onv = s.cfg.mirrorInit.onv := rfl
@[simp] theorem State.initMirror_trace (s : State) : (s.initMirror).trace = s.trace := rfl
@[simp] theorem State.initMirror_cur (s : State) : (s.initMirror).cur = s.cur := rfl
@[simp] theorem State.initMirror_quantum (s : State) : (s.initMirror).quantum = s.quantum := rfl
@[simp] theorem State.initMirror_inputs (s : State) : (s.initMirror).inputs = s.inputs := rfl
@[simp] theorem State.initMirror_surface (s : State) : (s.initMirror).surface = s.surface := rfl
@[simp] theorem State.initMirror_draws (s : State) : (s.initMirror).draws = s.draws := rfl
@[simp] theorem State.initMirror_ctx (s : State) (d : Nat) : (s.initMirror).ctx d = s.ctx d := rfl

/-! ### `State.taking` -/

@[simp] theorem State.taking_cfg (s : State) (c : Nat) (q : Option Nat) (rest : List Input) : (s.taking c q rest).cfg = s.cfg := rfl
@[simp] theorem State.taking_fsel (s : State) (c : Nat) (q : Option Nat) (rest : List Input) : (s.taking c q rest).fsel = s.fsel := rfl
@[simp] theorem State.taking_latch (s : State) (c : Nat) (q : Option Nat) (rest : List Input) : (s.taking c q rest).latch = s.latch := rfl
@[simp] theorem State.taking_life (s : State) (c : Nat) (q : Option Nat) (rest : List Input) : (s.taking c q rest).life = s.life := rfl
@[simp] theorem State.taking_txLock (s : State) (c : Nat) (q : Option Nat) (rest : List Input) : (s.taking c q rest).txLock = s.txLock := rfl
@[simp] theorem State.taking_ctxs (s : State) (c : Nat) (q : Option Nat) (rest : List Input) : (s.taking c q rest).ctxs = s.ctxs := rfl
@[simp] theorem State.taking_vol (s : State) (c : Nat) (q : Option Nat) (rest : List Input) : (s.taking c q rest).vol = s.vol := rfl
@[simp] theorem State.taking_bas (s : State) (c : Nat) (q : Option Nat) (rest : List Input) : (s.taking c q rest).bas = s.bas := rfl
@[simp] theorem State.taking_onv (s : State) (c : Nat) (q : Option Nat) (rest : List Input) : (s.taking c q rest).onv = s.onv := rfl
@[simp] theorem State.taking_trace (s : State) (c : Nat) (q : Option Nat) (rest : List Input) : (s.taking c q rest).trace = s.trace := rfl
@[simp] theorem State.taking_cur (s : State) (c : Nat) (q : Option Nat) (rest : List Input) : (s.taking c q rest).cur = c := rfl
@[simp] theorem State.taking_quantum (s : State) (c : Nat) (q : Option Nat) (rest : List Input) : (s.taking c q rest).quantum = q := rfl
@[simp] theorem State.taking_inputs (s : State) (c : Nat) (q : Option Nat) (rest : List Input) : (s.taking c q rest).inputs = rest := rfl
@[simp] theorem State.taking_surface (s : State) (c : Nat) (q : Option Nat) (rest : List Input) : (s.taking c q rest).surface = s.surface := rfl
@[simp] theorem State.taking_draws (s : State) (c : Nat) (q : Option Nat) (rest : List Input) : (s.taking c q rest).draws = s.draws := rfl
@[simp] theorem State.taking_ctx (s : State) (c : Nat) (q : Option Nat) (rest : List Input) (d : Nat) : (s.taking c q rest).ctx d = s.ctx d := rfl

/-! ### `State.scheduled` -/

@[simp] theorem State.scheduled_cfg (s : State) (c : Nat) (q : Option Nat) : (s.scheduled c q).cfg = s.cfg := rfl
@[simp] theorem State.scheduled_fsel (s : State) (c : Nat) (q : Option Nat) : (s.scheduled c q).fsel = s.fsel := rfl
@[simp] theorem State.scheduled_latch (s : State) (c : Nat) (q : Option Nat) : (s.scheduled c q).latch = s.latch := rfl
@[simp] theorem State.scheduled_life (s : State) (c : Nat) (q : Option Nat) : (s.scheduled c q).life = s.life := rfl
@[simp] theorem State.scheduled_txLock (s : State) (c : Nat) (q : Option Nat) : (s.scheduled c q).txLock = s.txLock := rfl
@[simp] theorem State.scheduled_ctxs (s : State) (c : Nat) (q : Option Nat) : (s.scheduled c q).ctxs = s.ctxs := rfl
@[simp] theorem State.scheduled_vol (s : State) (c : Nat) (q : Option Nat) : (s.scheduled c q).vol = s.vol := rfl
@[simp] theorem State.scheduled_bas (s : State) (c : Nat) (q : Option Nat) : (s.scheduled c q).bas = s.bas := rfl
@[simp] theorem State.scheduled_onv (s : State) (c : Nat) (q : Option Nat) : (s.scheduled c q).onv = s.onv := rfl
@[simp] theorem State.scheduled_trace (s : State) (c : Nat) (q : Option Nat) : (s.scheduled c q).trace = s.trace := rfl
@[simp] theorem State.scheduled_cur (s : State) (c : Nat) (q : Option Nat) : (s.scheduled c q).cur = c := rfl
@[simp] theorem State.scheduled_quantum (s : State) (c : Nat) (q : Option Nat) : (s.scheduled c q).quantum = q := rfl
@[simp] theorem State.scheduled_inputs (s : State) (c : Nat) (q : Option Nat) : (s.scheduled c q).inputs = s.inputs := rfl
@[simp] theorem State.scheduled_surface (s : State) (c : Nat) (q : Option Nat) : (s.scheduled c q).surface = s.surface := rfl
@[simp] theorem State.scheduled_draws (s : State) (c : Nat) (q : Option Nat) : (s.scheduled c q).draws = s.draws := rfl
@[simp] theorem State.scheduled_ctx (s : State) (c : Nat) (q : Option Nat) (d : Nat) : (s.scheduled c q).ctx d = s.ctx d := rfl

/-! ### `State.keep` -/

@[simp] theorem State.keep_cfg (s : State) (c : Nat) (v : Word) : (s.keep c v).cfg = s.cfg := rfl
@[simp] theorem State.keep_fsel (s : State) (c : Nat) (v : Word) : (s.keep c v).fsel = s.fsel := rfl
@[simp] theorem State.keep_latch (s : State) (c : Nat) (v : Word) : (s.keep c v).latch = s.latch := rfl
@[simp] theorem State.keep_life (s : State) (c : Nat) (v : Word) : (s.keep c v).life = s.life := rfl
@[simp] theorem State.keep_txLock (s : State) (c : Nat) (v : Word) : (s.keep c v).txLock = s.txLock := rfl
@[simp] theorem State.keep_vol (s : State) (c : Nat) (v : Word) : (s.keep c v).vol = s.vol := rfl
@[simp] theorem State.keep_bas (s : State) (c : Nat) (v : Word) : (s.keep c v).bas = s.bas := rfl
@[simp] theorem State.keep_onv (s : State) (c : Nat) (v : Word) : (s.keep c v).onv = s.onv := rfl
@[simp] theorem State.keep_trace (s : State) (c : Nat) (v : Word) : (s.keep c v).trace = s.trace := rfl
@[simp] theorem State.keep_cur (s : State) (c : Nat) (v : Word) : (s.keep c v).cur = s.cur := rfl
@[simp] theorem State.keep_quantum (s : State) (c : Nat) (v : Word) : (s.keep c v).quantum = s.quantum := rfl
@[simp] theorem State.keep_inputs (s : State) (c : Nat) (v : Word) : (s.keep c v).inputs = s.inputs := rfl
@[simp] theorem State.keep_surface (s : State) (c : Nat) (v : Word) : (s.keep c v).surface = s.surface := rfl
@[simp] theorem State.keep_draws (s : State) (c : Nat) (v : Word) : (s.keep c v).draws = s.draws := rfl

/-! ### `State.advance` -/

@[simp] theorem State.advance_cfg (s : State) (c : Nat) : (s.advance c).cfg = s.cfg := rfl
@[simp] theorem State.advance_fsel (s : State) (c : Nat) : (s.advance c).fsel = s.fsel := rfl
@[simp] theorem State.advance_latch (s : State) (c : Nat) : (s.advance c).latch = s.latch := rfl
@[simp] theorem State.advance_life (s : State) (c : Nat) : (s.advance c).life = s.life := rfl
@[simp] theorem State.advance_txLock (s : State) (c : Nat) : (s.advance c).txLock = s.txLock := rfl
@[simp] theorem State.advance_vol (s : State) (c : Nat) : (s.advance c).vol = s.vol := rfl
@[simp] theorem State.advance_bas (s : State) (c : Nat) : (s.advance c).bas = s.bas := rfl
@[simp] theorem State.advance_onv (s : State) (c : Nat) : (s.advance c).onv = s.onv := rfl
@[simp] theorem State.advance_trace (s : State) (c : Nat) : (s.advance c).trace = s.trace := rfl
@[simp] theorem State.advance_cur (s : State) (c : Nat) : (s.advance c).cur = s.cur := rfl
@[simp] theorem State.advance_quantum (s : State) (c : Nat) : (s.advance c).quantum = s.quantum := rfl
@[simp] theorem State.advance_inputs (s : State) (c : Nat) : (s.advance c).inputs = s.inputs := rfl
@[simp] theorem State.advance_surface (s : State) (c : Nat) : (s.advance c).surface = s.surface := rfl
@[simp] theorem State.advance_draws (s : State) (c : Nat) : (s.advance c).draws = s.draws := rfl

/-! ### `State.await` -/

@[simp] theorem State.await_cfg (s : State) (c : Nat) : (s.await c).cfg = s.cfg := rfl
@[simp] theorem State.await_fsel (s : State) (c : Nat) : (s.await c).fsel = s.fsel := rfl
@[simp] theorem State.await_latch (s : State) (c : Nat) : (s.await c).latch = s.latch := rfl
@[simp] theorem State.await_life (s : State) (c : Nat) : (s.await c).life = s.life := rfl
@[simp] theorem State.await_txLock (s : State) (c : Nat) : (s.await c).txLock = s.txLock := rfl
@[simp] theorem State.await_vol (s : State) (c : Nat) : (s.await c).vol = s.vol := rfl
@[simp] theorem State.await_bas (s : State) (c : Nat) : (s.await c).bas = s.bas := rfl
@[simp] theorem State.await_onv (s : State) (c : Nat) : (s.await c).onv = s.onv := rfl
@[simp] theorem State.await_trace (s : State) (c : Nat) : (s.await c).trace = s.trace := rfl
@[simp] theorem State.await_cur (s : State) (c : Nat) : (s.await c).cur = s.cur := rfl
@[simp] theorem State.await_quantum (s : State) (c : Nat) : (s.await c).quantum = s.quantum := rfl
@[simp] theorem State.await_inputs (s : State) (c : Nat) : (s.await c).inputs = s.inputs := rfl
@[simp] theorem State.await_surface (s : State) (c : Nat) : (s.await c).surface = s.surface := rfl
@[simp] theorem State.await_draws (s : State) (c : Nat) : (s.await c).draws = s.draws := rfl

/-! ### `State.enterFrame` -/

@[simp] theorem State.enterFrame_cfg (s : State) (c : Nat) (bits : List Bool) : (s.enterFrame c bits).cfg = s.cfg := rfl
@[simp] theorem State.enterFrame_fsel (s : State) (c : Nat) (bits : List Bool) : (s.enterFrame c bits).fsel = s.fsel := rfl
@[simp] theorem State.enterFrame_latch (s : State) (c : Nat) (bits : List Bool) : (s.enterFrame c bits).latch = s.latch := rfl
@[simp] theorem State.enterFrame_life (s : State) (c : Nat) (bits : List Bool) : (s.enterFrame c bits).life = s.life := rfl
@[simp] theorem State.enterFrame_txLock (s : State) (c : Nat) (bits : List Bool) : (s.enterFrame c bits).txLock = s.txLock := rfl
@[simp] theorem State.enterFrame_vol (s : State) (c : Nat) (bits : List Bool) : (s.enterFrame c bits).vol = s.vol := rfl
@[simp] theorem State.enterFrame_bas (s : State) (c : Nat) (bits : List Bool) : (s.enterFrame c bits).bas = s.bas := rfl
@[simp] theorem State.enterFrame_onv (s : State) (c : Nat) (bits : List Bool) : (s.enterFrame c bits).onv = s.onv := rfl
@[simp] theorem State.enterFrame_trace (s : State) (c : Nat) (bits : List Bool) : (s.enterFrame c bits).trace = s.trace := rfl
@[simp] theorem State.enterFrame_cur (s : State) (c : Nat) (bits : List Bool) : (s.enterFrame c bits).cur = s.cur := rfl
@[simp] theorem State.enterFrame_quantum (s : State) (c : Nat) (bits : List Bool) : (s.enterFrame c bits).quantum = s.quantum := rfl
@[simp] theorem State.enterFrame_inputs (s : State) (c : Nat) (bits : List Bool) : (s.enterFrame c bits).inputs = s.inputs := rfl
@[simp] theorem State.enterFrame_surface (s : State) (c : Nat) (bits : List Bool) : (s.enterFrame c bits).surface = s.surface := rfl
@[simp] theorem State.enterFrame_draws (s : State) (c : Nat) (bits : List Bool) : (s.enterFrame c bits).draws = s.draws := rfl

/-! ### `State.finish` -/

@[simp] theorem State.finish_cfg (s : State) (c : Nat) (r : Result) : (s.finish c r).cfg = s.cfg := rfl
@[simp] theorem State.finish_fsel (s : State) (c : Nat) (r : Result) : (s.finish c r).fsel = s.fsel := rfl
@[simp] theorem State.finish_latch (s : State) (c : Nat) (r : Result) : (s.finish c r).latch = s.latch := rfl
@[simp] theorem State.finish_life (s : State) (c : Nat) (r : Result) : (s.finish c r).life = s.life := rfl
@[simp] theorem State.finish_txLock (s : State) (c : Nat) (r : Result) : (s.finish c r).txLock = s.txLock := rfl
@[simp] theorem State.finish_vol (s : State) (c : Nat) (r : Result) : (s.finish c r).vol = s.vol := rfl
@[simp] theorem State.finish_bas (s : State) (c : Nat) (r : Result) : (s.finish c r).bas = s.bas := rfl
@[simp] theorem State.finish_onv (s : State) (c : Nat) (r : Result) : (s.finish c r).onv = s.onv := rfl
@[simp] theorem State.finish_trace (s : State) (c : Nat) (r : Result) : (s.finish c r).trace = s.trace := rfl
@[simp] theorem State.finish_cur (s : State) (c : Nat) (r : Result) : (s.finish c r).cur = s.cur := rfl
@[simp] theorem State.finish_quantum (s : State) (c : Nat) (r : Result) : (s.finish c r).quantum = s.quantum := rfl
@[simp] theorem State.finish_inputs (s : State) (c : Nat) (r : Result) : (s.finish c r).inputs = s.inputs := rfl
@[simp] theorem State.finish_surface (s : State) (c : Nat) (r : Result) : (s.finish c r).surface = s.surface := rfl
@[simp] theorem State.finish_draws (s : State) (c : Nat) (r : Result) : (s.finish c r).draws = s.draws := rfl

/-! ### `State.raise` -/

@[simp] theorem State.raise_cfg (s : State) (c : Nat) (f : Failure) : (s.raise c f).cfg = s.cfg := rfl
@[simp] theorem State.raise_fsel (s : State) (c : Nat) (f : Failure) : (s.raise c f).fsel = s.fsel := rfl
@[simp] theorem State.raise_latch (s : State) (c : Nat) (f : Failure) : (s.raise c f).latch = s.latch := rfl
@[simp] theorem State.raise_life (s : State) (c : Nat) (f : Failure) : (s.raise c f).life = s.life := rfl
@[simp] theorem State.raise_txLock (s : State) (c : Nat) (f : Failure) : (s.raise c f).txLock = s.txLock := rfl
@[simp] theorem State.raise_vol (s : State) (c : Nat) (f : Failure) : (s.raise c f).vol = s.vol := rfl
@[simp] theorem State.raise_bas (s : State) (c : Nat) (f : Failure) : (s.raise c f).bas = s.bas := rfl
@[simp] theorem State.raise_onv (s : State) (c : Nat) (f : Failure) : (s.raise c f).onv = s.onv := rfl
@[simp] theorem State.raise_trace (s : State) (c : Nat) (f : Failure) : (s.raise c f).trace = s.trace := rfl
@[simp] theorem State.raise_cur (s : State) (c : Nat) (f : Failure) : (s.raise c f).cur = s.cur := rfl
@[simp] theorem State.raise_quantum (s : State) (c : Nat) (f : Failure) : (s.raise c f).quantum = s.quantum := rfl
@[simp] theorem State.raise_inputs (s : State) (c : Nat) (f : Failure) : (s.raise c f).inputs = s.inputs := rfl
@[simp] theorem State.raise_surface (s : State) (c : Nat) (f : Failure) : (s.raise c f).surface = s.surface := rfl
@[simp] theorem State.raise_draws (s : State) (c : Nat) (f : Failure) : (s.raise c f).draws = s.draws := rfl

/-! ### `State.suspend` -/

@[simp] theorem State.suspend_cfg (s : State) (c : Nat) (work : List Action) : (s.suspend c work).cfg = s.cfg := rfl
@[simp] theorem State.suspend_fsel (s : State) (c : Nat) (work : List Action) : (s.suspend c work).fsel = s.fsel := rfl
@[simp] theorem State.suspend_latch (s : State) (c : Nat) (work : List Action) : (s.suspend c work).latch = s.latch := rfl
@[simp] theorem State.suspend_life (s : State) (c : Nat) (work : List Action) : (s.suspend c work).life = s.life := rfl
@[simp] theorem State.suspend_txLock (s : State) (c : Nat) (work : List Action) : (s.suspend c work).txLock = s.txLock := rfl
@[simp] theorem State.suspend_vol (s : State) (c : Nat) (work : List Action) : (s.suspend c work).vol = s.vol := rfl
@[simp] theorem State.suspend_bas (s : State) (c : Nat) (work : List Action) : (s.suspend c work).bas = s.bas := rfl
@[simp] theorem State.suspend_onv (s : State) (c : Nat) (work : List Action) : (s.suspend c work).onv = s.onv := rfl
@[simp] theorem State.suspend_trace (s : State) (c : Nat) (work : List Action) : (s.suspend c work).trace = s.trace := rfl
@[simp] theorem State.suspend_cur (s : State) (c : Nat) (work : List Action) : (s.suspend c work).cur = s.cur := rfl
@[simp] theorem State.suspend_quantum (s : State) (c : Nat) (work : List Action) : (s.suspend c work).quantum = s.quantum := rfl
@[simp] theorem State.suspend_inputs (s : State) (c : Nat) (work : List Action) : (s.suspend c work).inputs = s.inputs := rfl
@[simp] theorem State.suspend_surface (s : State) (c : Nat) (work : List Action) : (s.suspend c work).surface = s.surface := rfl
@[simp] theorem State.suspend_draws (s : State) (c : Nat) (work : List Action) : (s.suspend c work).draws = s.draws := rfl

/-! ### `State.beginCall` -/

@[simp] theorem State.beginCall_cfg (s : State) (i : Instr) : (s.beginCall i).cfg = s.cfg := rfl
@[simp] theorem State.beginCall_fsel (s : State) (i : Instr) : (s.beginCall i).fsel = s.fsel := rfl
@[simp] theorem State.beginCall_latch (s : State) (i : Instr) : (s.beginCall i).latch = s.latch := rfl
@[simp] theorem State.beginCall_life (s : State) (i : Instr) : (s.beginCall i).life = s.life := rfl
@[simp] theorem State.beginCall_txLock (s : State) (i : Instr) : (s.beginCall i).txLock = s.txLock := rfl
@[simp] theorem State.beginCall_vol (s : State) (i : Instr) : (s.beginCall i).vol = s.vol := rfl
@[simp] theorem State.beginCall_bas (s : State) (i : Instr) : (s.beginCall i).bas = s.bas := rfl
@[simp] theorem State.beginCall_onv (s : State) (i : Instr) : (s.beginCall i).onv = s.onv := rfl
@[simp] theorem State.beginCall_trace (s : State) (i : Instr) : (s.beginCall i).trace = s.trace := rfl
@[simp] theorem State.beginCall_cur (s : State) (i : Instr) : (s.beginCall i).cur = s.cur := rfl
@[simp] theorem State.beginCall_quantum (s : State) (i : Instr) : (s.beginCall i).quantum = s.quantum := rfl
@[simp] theorem State.beginCall_inputs (s : State) (i : Instr) : (s.beginCall i).inputs = s.inputs := rfl
@[simp] theorem State.beginCall_surface (s : State) (i : Instr) : (s.beginCall i).surface = s.surface := rfl
@[simp] theorem State.beginCall_draws (s : State) (i : Instr) : (s.beginCall i).draws = s.draws := rfl

/-! ### `State.store` -/

@[simp] theorem State.store_cfg (s : State) (name : Attr) (v : Nat) : (s.store name v).cfg = s.cfg := by cases name <;> rfl
@[simp] theorem State.store_fsel (s : State) (name : Attr) (v : Nat) : (s.store name v).fsel = s.fsel := by cases name <;> rfl
@[simp] theorem State.store_latch (s : State) (name : Attr) (v : Nat) : (s.store name v).latch = s.latch := by cases name <;> rfl
@[simp] theorem State.store_life (s : State) (name : Attr) (v : Nat) : (s.store name v).life = s.life := by cases name <;> rfl
@[simp] theorem State.store_txLock (s : State) (name : Attr) (v : Nat) : (s.store name v).txLock = s.txLock := by cases name <;> rfl
@[simp] theorem State.store_ctxs (s : State) (name : Attr) (v : Nat) : (s.store name v).ctxs = s.ctxs := by cases name <;> rfl
@[simp] theorem State.store_trace (s : State) (name : Attr) (v : Nat) : (s.store name v).trace = s.trace := by cases name <;> rfl
@[simp] theorem State.store_cur (s : State) (name : Attr) (v : Nat) : (s.store name v).cur = s.cur := by cases name <;> rfl
@[simp] theorem State.store_quantum (s : State) (name : Attr) (v : Nat) : (s.store name v).quantum = s.quantum := by cases name <;> rfl
@[simp] theorem State.store_inputs (s : State) (name : Attr) (v : Nat) : (s.store name v).inputs = s.inputs := by cases name <;> rfl
@[simp] theorem State.store_surface (s : State) (name : Attr) (v : Nat) : (s.store name v).surface = s.surface := by cases name <;> rfl
@[simp] theorem State.store_draws (s : State) (name : Attr) (v : Nat) : (s.store name v).draws = s.draws := by cases name <;> rfl
@[simp] theorem State.store_ctx (s : State) (name : Attr) (v d : Nat) : (s.store name v).ctx d = s.ctx d := by
  cases name <;> rfl
@[simp] theorem State.store_stored (s : State) (name : Attr) (v : Nat) : (s.store name v).stored name = v := by
  cases name <;> rfl
theorem State.store_stored_other (s : State) {name other : Attr} (v : Nat) (h : other ≠ name) :
    (s.store name v).stored other = s.stored other := by cases name <;> cases other <;> first | rfl | exact absurd rfl h

/-! ### `State.applyWrite` -/

@[simp] theorem State.applyWrite_cfg (s : State) (r : Reg) (v : Word) : (s.applyWrite r v).cfg = s.cfg := by
  cases r <;> rfl
@[simp] theorem State.applyWrite_life (s : State) (r : Reg) (v : Word) : (s.applyWrite r v).life = s.life := by
  cases r <;> rfl
@[simp] theorem State.applyWrite_txLock (s : State) (r : Reg) (v : Word) : (s.applyWrite r v).txLock = s.txLock := by
  cases r <;> rfl
@[simp] theorem State.applyWrite_ctxs (s : State) (r : Reg) (v : Word) : (s.applyWrite r v).ctxs = s.ctxs := by
  cases r <;> rfl
@[simp] theorem State.applyWrite_vol (s : State) (r : Reg) (v : Word) : (s.applyWrite r v).vol = s.vol := by
  cases r <;> rfl
@[simp] theorem State.applyWrite_bas (s : State) (r : Reg) (v : Word) : (s.applyWrite r v).bas = s.bas := by
  cases r <;> rfl
@[simp] theorem State.applyWrite_onv (s : State) (r : Reg) (v : Word) : (s.applyWrite r v).onv = s.onv := by
  cases r <;> rfl
@[simp] theorem State.applyWrite_trace (s : State) (r : Reg) (v : Word) : (s.applyWrite r v).trace = s.trace := by
  cases r <;> rfl
@[simp] theorem State.applyWrite_cur (s : State) (r : Reg) (v : Word) : (s.applyWrite r v).cur = s.cur := by
  cases r <;> rfl
@[simp] theorem State.applyWrite_quantum (s : State) (r : Reg) (v : Word) : (s.applyWrite r v).quantum = s.quantum := by
  cases r <;> rfl
@[simp] theorem State.applyWrite_inputs (s : State) (r : Reg) (v : Word) : (s.applyWrite r v).inputs = s.inputs := by
  cases r <;> rfl
@[simp] theorem State.applyWrite_surface (s : State) (r : Reg) (v : Word) : (s.applyWrite r v).surface = s.surface := by
  cases r <;> rfl
@[simp] theorem State.applyWrite_draws (s : State) (r : Reg) (v : Word) : (s.applyWrite r v).draws = s.draws := by
  cases r <;> rfl
@[simp] theorem State.applyWrite_ctx (s : State) (r : Reg) (v : Word) (d : Nat) :
    (s.applyWrite r v).ctx d = s.ctx d := by cases r <;> rfl

/-! ### The record of contexts -/

@[simp] theorem Contexts.get_nil (c : Nat) : Contexts.get [] c = Ctx.fresh := rfl

theorem Contexts.get_filter_same (m : Contexts) (c : Nat) :
    Contexts.get (m.filter (fun e => decide (e.1 ≠ c))) c = Ctx.fresh := by
  induction m with
  | nil => rfl
  | cons e rest ih =>
    by_cases h : e.1 = c
    · simpa [h] using ih
    · simpa [h, Contexts.get] using ih

theorem Contexts.get_filter_other (m : Contexts) {c d : Nat} (hd : d ≠ c) :
    Contexts.get (m.filter (fun e => decide (e.1 ≠ c))) d = Contexts.get m d := by
  induction m with
  | nil => rfl
  | cons e rest ih =>
    by_cases h : e.1 = c
    · have hne : e.1 ≠ d := fun he => hd (by rw [← he, h])
      rw [Contexts.get, if_neg hne, List.filter_cons_of_neg (by simp [h])]
      exact ih
    · by_cases hed : e.1 = d
      · simp [Contexts.get, hed, hd]
      · simpa [h, Contexts.get, hed] using ih

theorem Contexts.get_insert_same (m : Contexts) (c : Nat) (x : Ctx) : (Contexts.insert m c x).get c = x := by
  induction m with
  | nil => simp [Contexts.insert, Contexts.get]
  | cons e rest ih =>
    rw [Contexts.insert]
    split
    · simp [Contexts.get]
    · split
      · simp [Contexts.get]
      · rename_i _ hne
        simp [Contexts.get, Ne.symm hne, ih]

theorem Contexts.get_insert_other (m : Contexts) {c d : Nat} (x : Ctx) (hd : d ≠ c) :
    (Contexts.insert m c x).get d = Contexts.get m d := by
  induction m with
  | nil => simp [Contexts.insert, Contexts.get, Ne.symm hd]
  | cons e rest ih =>
    rw [Contexts.insert]
    split
    · simp [Contexts.get, Ne.symm hd]
    · split
      · rename_i _ he
        simp [Contexts.get, Ne.symm hd, ← he]
      · simp [Contexts.get, ih]

/-- What was put at a label is read back there. -/
@[simp] theorem Contexts.get_set_same (m : Contexts) (c : Nat) (x : Ctx) : (Contexts.set m c x).get c = x := by
  unfold Contexts.set
  split
  · rename_i h
    rw [Contexts.get_filter_same, h]
  · exact Contexts.get_insert_same m c x

/-- What was put at a label leaves every other label alone. -/
theorem Contexts.get_set_other (m : Contexts) {c d : Nat} (x : Ctx) (hd : d ≠ c) :
    (Contexts.set m c x).get d = m.get d := by
  unfold Contexts.set
  split
  · exact Contexts.get_filter_other m hd
  · exact Contexts.get_insert_other m x hd

theorem Contexts.above_mono {lo hi : Nat} (h : lo ≤ hi) {m : Contexts} (hm : Contexts.above hi m = true) :
    Contexts.above lo m = true := by
  simp only [Contexts.above, List.all_eq_true, decide_eq_true_eq] at *
  exact fun e he => Nat.lt_of_le_of_lt h (hm e he)

theorem Contexts.wf_cons {d : Nat} {x : Ctx} {rest : Contexts} :
    Contexts.wf ((d, x) :: rest) = true ↔ x ≠ Ctx.fresh ∧ Contexts.above d rest = true ∧ Contexts.wf rest = true := by
  simp [Contexts.wf, and_assoc]

theorem Contexts.above_filter {lo : Nat} {m : Contexts} (h : Contexts.above lo m = true) (keep : Nat × Ctx → Bool) :
    Contexts.above lo (m.filter keep) = true := by
  simp only [Contexts.above, List.all_eq_true, List.mem_filter] at *
  exact fun e he => h e he.1

theorem Contexts.wf_filter {m : Contexts} (h : m.wf = true) (keep : Nat × Ctx → Bool) :
    Contexts.wf (m.filter keep) = true := by
  induction m with
  | nil => rfl
  | cons e rest ih =>
    obtain ⟨hx, ha, hr⟩ := Contexts.wf_cons.mp h
    rw [List.filter_cons]
    split
    · exact Contexts.wf_cons.mpr ⟨hx, Contexts.above_filter ha keep, ih hr⟩
    · exact ih hr

theorem Contexts.above_insert {lo c : Nat} {m : Contexts} (x : Ctx) (hc : lo < c) (h : Contexts.above lo m = true) :
    Contexts.above lo (Contexts.insert m c x) = true := by
  induction m with
  | nil => simpa [Contexts.insert, Contexts.above] using hc
  | cons e rest ih =>
    have hr : Contexts.above lo rest = true := by
      simp only [Contexts.above, List.all_cons, Bool.and_eq_true] at h ⊢
      exact h.2
    have he : lo < e.1 := by
      simp only [Contexts.above, List.all_cons, Bool.and_eq_true, decide_eq_true_eq] at h
      exact h.1
    have hi := ih hr
    rw [Contexts.insert]
    unfold Contexts.above at hr hi ⊢
    split
    · simp [hc, he, hr]
    · split
      · simp [hc, hr]
      · simp [he, hi]

theorem Contexts.wf_insert {m : Contexts} (h : m.wf = true) (c : Nat) {x : Ctx} (hx : x ≠ Ctx.fresh) :
    Contexts.wf (Contexts.insert m c x) = true := by
  induction m with
  | nil => simpa [Contexts.insert, Contexts.wf, Contexts.above] using hx
  | cons e rest ih =>
    obtain ⟨hy, ha, hr⟩ := Contexts.wf_cons.mp h
    rw [Contexts.insert]
    split
    · rename_i hlt
      refine Contexts.wf_cons.mpr ⟨hx, ?_, h⟩
      have := Contexts.above_mono (Nat.le_of_lt hlt) ha
      unfold Contexts.above at this ⊢
      simp [hlt, this]
    · split
      · rename_i _ heq
        exact Contexts.wf_cons.mpr ⟨hx, heq ▸ ha, hr⟩
      · rename_i hlt hne
        exact Contexts.wf_cons.mpr ⟨hy, Contexts.above_insert x (by omega) ha, ih hr⟩

/-- The canonical form is kept: the law every operation's proof of it rests on. -/
theorem Contexts.wf_set {m : Contexts} (h : m.wf = true) (c : Nat) (x : Ctx) : (Contexts.set m c x).wf = true := by
  unfold Contexts.set
  split
  · exact Contexts.wf_filter h _
  · exact Contexts.wf_insert h c ‹_›

theorem Contexts.get_of_above {lo c : Nat} {m : Contexts} (h : Contexts.above lo m = true) (hc : c ≤ lo) :
    m.get c = Ctx.fresh := by
  induction m with
  | nil => rfl
  | cons e rest ih =>
    simp only [Contexts.above, List.all_cons, Bool.and_eq_true, decide_eq_true_eq] at h
    have hne : e.1 ≠ c := by omega
    rw [Contexts.get, if_neg hne]
    exact ih (by simpa [Contexts.above] using h.2)

/-- In canonical form every entry is what its label reads as. -/
theorem Contexts.get_of_mem {m : Contexts} (h : m.wf = true) {e : Nat × Ctx} (he : e ∈ m) : m.get e.1 = e.2 := by
  induction m with
  | nil => cases he
  | cons d rest ih =>
    obtain ⟨_, ha, hr⟩ := Contexts.wf_cons.mp h
    rcases List.mem_cons.mp he with rfl | he
    · rw [Contexts.get, if_pos rfl]
    · have hlt : d.1 < e.1 := by simpa using List.all_eq_true.mp ha e he
      rw [Contexts.get, if_neg (by omega), ih hr he]

/-- A label reads as fresh, or is listed with what it reads as. -/
theorem Contexts.mem_of_get (m : Contexts) (c : Nat) : m.get c = Ctx.fresh ∨ (c, m.get c) ∈ m := by
  induction m with
  | nil => exact .inl rfl
  | cons d rest ih =>
    rw [Contexts.get]
    split
    · rename_i h
      rw [← h]
      exact .inr List.mem_cons_self
    · exact ih.imp id (List.mem_cons_of_mem _)

/-- Canonical records that read the same at every label are the same list: equal machines are equal data. -/
theorem Contexts.ext {m n : Contexts} (hm : m.wf = true) (hn : n.wf = true) (h : ∀ c, m.get c = n.get c) : m = n := by
  induction m generalizing n with
  | nil =>
    cases n with
    | nil => rfl
    | cons e rest =>
      have he := h e.1
      rw [Contexts.get, Contexts.get, if_pos rfl] at he
      exact absurd he.symm (Contexts.wf_cons.mp hn).1
  | cons e rest ih =>
    obtain ⟨hx, ha, hr⟩ := Contexts.wf_cons.mp hm
    cases n with
    | nil =>
      have he := h e.1
      rw [Contexts.get, Contexts.get, if_pos rfl] at he
      exact absurd he hx
    | cons f rest' =>
      obtain ⟨hy, hb, hr'⟩ := Contexts.wf_cons.mp hn
      have key : e.1 = f.1 := by
        rcases Nat.lt_trichotomy e.1 f.1 with hlt | heq | hgt
        · have he := h e.1
          rw [Contexts.get, if_pos rfl, Contexts.get, if_neg (by omega), Contexts.get_of_above hb (by omega)] at he
          exact absurd he hx
        · exact heq
        · have hf := h f.1
          rw [Contexts.get, if_neg (by omega), Contexts.get_of_above ha (by omega), Contexts.get, if_pos rfl] at hf
          exact absurd hf.symm hy
      have hval : e.2 = f.2 := by
        have he := h e.1
        rwa [Contexts.get, if_pos rfl, Contexts.get, if_pos key.symm] at he
      have hrest : rest = rest' := by
        refine ih hr hr' fun c => ?_
        by_cases hc : c ≤ e.1
        · rw [Contexts.get_of_above ha hc, Contexts.get_of_above hb (by omega)]
        · have hcc := h c
          rwa [Contexts.get, if_neg (by omega), Contexts.get, if_neg (by omega)] at hcc
      rw [hrest, Prod.ext key hval]

/-! ### The record of one context after an update -/

@[simp] theorem State.setCtx_ctx_same (s : State) (c : Nat) (x : Ctx) : (s.setCtx c x).ctx c = x :=
  Contexts.get_set_same s.ctxs c x

theorem State.setCtx_ctx_other (s : State) {c d : Nat} (x : Ctx) (h : d ≠ c) : (s.setCtx c x).ctx d = s.ctx d :=
  Contexts.get_set_other s.ctxs x h

@[simp] theorem State.mapCtx_ctx_same (s : State) (c : Nat) (f : Ctx → Ctx) : (s.mapCtx c f).ctx c = f (s.ctx c) :=
  Contexts.get_set_same s.ctxs c _

theorem State.mapCtx_ctx_other (s : State) {c d : Nat} (f : Ctx → Ctx) (h : d ≠ c) :
    (s.mapCtx c f).ctx d = s.ctx d := Contexts.get_set_other s.ctxs _ h

@[simp] theorem State.keep_ctx_same (s : State) (c : Nat) (v : Word) :
    (s.keep c v).ctx c = { s.ctx c with temp := v } := State.mapCtx_ctx_same s c _

theorem State.keep_ctx_other (s : State) {c d : Nat} (v : Word) (h : d ≠ c) : (s.keep c v).ctx d = s.ctx d :=
  State.mapCtx_ctx_other s _ h

@[simp] theorem State.advance_ctx_same (s : State) (c : Nat) : (s.advance c).ctx c = (s.ctx c).advance :=
  State.mapCtx_ctx_same s c _

theorem State.advance_ctx_other (s : State) {c d : Nat} (h : d ≠ c) : (s.advance c).ctx d = s.ctx d :=
  State.mapCtx_ctx_other s _ h

@[simp] theorem State.await_ctx_same (s : State) (c : Nat) : (s.await c).ctx c = { s.ctx c with seq := .at 0 } :=
  State.mapCtx_ctx_same s c _

theorem State.await_ctx_other (s : State) {c d : Nat} (h : d ≠ c) : (s.await c).ctx d = s.ctx d :=
  State.mapCtx_ctx_other s _ h

@[simp] theorem State.enterFrame_ctx_same (s : State) (c : Nat) (bits : List Bool) :
    (s.enterFrame c bits).ctx c = { s.ctx c with seq := .at 0, frame := some bits } := State.mapCtx_ctx_same s c _

theorem State.enterFrame_ctx_other (s : State) {c d : Nat} (bits : List Bool) (h : d ≠ c) :
    (s.enterFrame c bits).ctx d = s.ctx d := State.mapCtx_ctx_other s _ h

@[simp] theorem State.finish_ctx_same (s : State) (c : Nat) (r : Result) :
    (s.finish c r).ctx c = (s.ctx c).returned r := State.mapCtx_ctx_same s c _

theorem State.finish_ctx_other (s : State) {c d : Nat} (r : Result) (h : d ≠ c) : (s.finish c r).ctx d = s.ctx d :=
  State.mapCtx_ctx_other s _ h

@[simp] theorem State.raise_ctx_same (s : State) (c : Nat) (f : Failure) :
    (s.raise c f).ctx c = (s.ctx c).returned (.failed f) := State.mapCtx_ctx_same s c _

theorem State.raise_ctx_other (s : State) {c d : Nat} (f : Failure) (h : d ≠ c) : (s.raise c f).ctx d = s.ctx d :=
  State.mapCtx_ctx_other s _ h

@[simp] theorem State.suspend_ctx_same (s : State) (c : Nat) (work : List Action) :
    (s.suspend c work).ctx c = { s.ctx c with work := work } := State.mapCtx_ctx_same s c _

theorem State.suspend_ctx_other (s : State) {c d : Nat} (work : List Action) (h : d ≠ c) :
    (s.suspend c work).ctx d = s.ctx d := State.mapCtx_ctx_other s _ h

@[simp] theorem State.beginCall_ctx_same (s : State) (i : Instr) :
    (s.beginCall i).ctx s.cur = { s.ctx s.cur with call := some i, result := .pending } :=
  State.mapCtx_ctx_same s s.cur _

theorem State.beginCall_ctx_other (s : State) (i : Instr) {d : Nat} (h : d ≠ s.cur) :
    (s.beginCall i).ctx d = s.ctx d := State.mapCtx_ctx_other s _ h

/-- Every update of a context record keeps the canonical form. -/
theorem State.mapCtx_wf {s : State} (h : s.ctxs.wf = true) (c : Nat) (f : Ctx → Ctx) :
    (s.mapCtx c f).ctxs.wf = true := Contexts.wf_set h c _

end Sys2Proof.Machine
end

