-- ==== Sys2Proof/Laws/Operands.lean ====
section
/-! SUPPORT. Laws/Operands.lean: what operand assembly does, said once: registers and their indices, pins, function-select
fields, the latches a word names, frames. -/

namespace Sys2Proof.Machine

/-! ### Registers -/

@[simp] theorem regOfIndex_index (r : Reg) : regOfIndex r.index = some r := by
  cases r with
  | fsel k => simp [regOfIndex, Reg.index]
  | set k => fin_cases k <;> rfl
  | clr k => fin_cases k <;> rfl

theorem index_of_regOfIndex {i : Nat} {r : Reg} (h : regOfIndex i = some r) : r.index = i := by
  unfold regOfIndex at h
  split at h
  · cases h; rfl
  · split at h
    · cases h; simp only [Reg.index]; omega
    · split at h
      · cases h; simp only [Reg.index]; omega
      · cases h

theorem regOfIndex_isSome {i : Nat} (h : i < 10) : (regOfIndex i).isSome = true := by
  unfold regOfIndex
  split
  · rfl
  · split
    · rfl
    · rw [dif_pos (by omega)]; rfl

theorem regOfIndex_none {i : Nat} (h : 10 ≤ i) : regOfIndex i = none := by
  unfold regOfIndex
  rw [dif_neg (by omega), dif_neg (by omega), dif_neg (by omega)]

theorem index_lt (r : Reg) : r.index < 10 := by cases r <;> simp only [Reg.index] <;> omega

theorem regOfIndex_fsel (k : Fin 6) : regOfIndex k.val = some (.fsel k) := regOfIndex_index (.fsel k)

theorem regOfIndex_set (k : Fin 2) : regOfIndex (6 + k.val) = some (.set k) := regOfIndex_index (.set k)

theorem regOfIndex_clr (k : Fin 2) : regOfIndex (8 + k.val) = some (.clr k) := regOfIndex_index (.clr k)

theorem regOfIndex_level (j : Fin 4) : regOfIndex (6 + j.val) = some (levelReg j) := by
  fin_cases j <;> rfl

/-! ### Pins -/

@[simp] theorem pinOf_val (p : Pin) : pinOf (p.val : Int) = some p := by
  unfold pinOf
  rw [dif_pos (by omega)]
  congr

theorem pinOf_some {n : Int} {p : Pin} (h : pinOf n = some p) : n = p.val := by
  unfold pinOf at h
  split at h
  · cases h
    simp only
    omega
  · cases h

theorem pinOf_none {n : Int} (h : n < 0 ∨ 59 < n) : pinOf n = none := by
  unfold pinOf
  rw [dif_neg (by omega)]

theorem pinOf_in_range {n : Int} (h0 : 0 ≤ n) (h59 : n ≤ 59) : ∃ p, pinOf n = some p ∧ n = p.val := by
  refine ⟨⟨n.toNat, by omega⟩, ?_, ?_⟩
  · unfold pinOf
    rw [dif_pos ⟨h0, h59⟩]
  · simp only
    omega

theorem rolePin_inj {p q : Fin 32} : rolePin p = rolePin q ↔ p = q := by
  simp [rolePin, Fin.ext_iff]

/-- What well-formed parameters give: the four role pins are pairwise distinct (R9). -/
theorem Config.rolePins_distinct {cfg : Config} (h : cfg.wf = true) :
    csPin cfg ≠ clkPin cfg ∧ csPin cfg ≠ dataPin cfg ∧ csPin cfg ≠ enPin cfg
      ∧ clkPin cfg ≠ dataPin cfg ∧ clkPin cfg ≠ enPin cfg ∧ dataPin cfg ≠ enPin cfg := by
  simp only [Config.wf, Bool.and_eq_true, bne_iff_ne, decide_eq_true_eq] at h
  simp only [csPin, clkPin, dataPin, enPin, ne_eq, rolePin_inj]
  tauto

/-- What well-formed parameters give: the two codes differ (R23). -/
theorem Config.codes_distinct {cfg : Config} (h : cfg.wf = true) : cfg.codeInput ≠ cfg.codeOutput := by
  simp only [Config.wf, Bool.and_eq_true, bne_iff_ne, decide_eq_true_eq] at h
  tauto

/-! ### Addresses (R51, R53) -/

/-- The offsets of well-formed parameters are pairwise different (R51). -/
theorem Config.off_inj {cfg : Config} (h : cfg.wf = true) : ∀ i j : Fin 10, cfg.off[i.val] = cfg.off[j.val] → i = j := by
  simp only [Config.wf, Bool.and_eq_true, decide_eq_true_eq] at h
  have h0 : cfg.off[0] < cfg.off[1] := by tauto
  have h1 : cfg.off[1] < cfg.off[2] := by tauto
  have h2 : cfg.off[2] < cfg.off[3] := by tauto
  have h3 : cfg.off[3] < cfg.off[4] := by tauto
  have h4 : cfg.off[4] < cfg.off[5] := by tauto
  have h5 : cfg.off[5] < cfg.off[6] := by tauto
  have h6 : cfg.off[6] < cfg.off[7] := by tauto
  have h7 : cfg.off[7] < cfg.off[8] := by tauto
  have h8 : cfg.off[8] < cfg.off[9] := by tauto
  clear h
  intro i j
  fin_cases i <;> fin_cases j <;> simp <;> omega

/-- Different registers have different indices (R21). -/
theorem index_inj {r r' : Reg} (h : r.index = r'.index) : r = r' := by
  have := regOfIndex_index r
  rw [h, regOfIndex_index] at this
  exact (Option.some.inj this).symm

/-- Different registers have different addresses (R51). -/
theorem regAddress_inj {cfg : Config} (h : cfg.wf = true) {r r' : Reg} (e : regAddress cfg r = regAddress cfg r') : r = r' := by
  have := Config.off_inj h ⟨r.index, index_lt r⟩ ⟨r'.index, index_lt r'⟩ (by simpa [regAddress] using e)
  exact index_inj (by simpa using this)

/-- A 4-byte access at a register's address reaches it (R53). -/
theorem busRegister_addr {cfg : Config} (h : cfg.wf = true) (r : Reg) : busRegister cfg (regAddress cfg r) 4 = some r := by
  rw [busRegister, if_pos rfl]
  rcases hf : ((List.range 10).filterMap regOfIndex).find? (fun r' => decide (regAddress cfg r' = regAddress cfg r)) with _ | r'
  · rw [List.find?_eq_none] at hf
    have := hf r (List.mem_filterMap.mpr ⟨r.index, List.mem_range.mpr (index_lt r), regOfIndex_index r⟩)
    simp at this
  · have := List.find?_some hf
    have e : regAddress cfg r' = regAddress cfg r := by simpa using this
    rw [regAddress_inj h e]

/-- An access of another width or at another address reaches none (R53, R95). -/
theorem busRegister_none {cfg : Config} {addr n : Nat} (h : n ≠ 4 ∨ ∀ r : Reg, addr ≠ regAddress cfg r) : busRegister cfg addr n = none := by
  unfold busRegister
  split
  · rw [List.find?_eq_none]
    intro r _
    rcases h with h | h
    · contradiction
    · simpa using fun e => h r e.symm
  · rfl

/-! ### Set and clear words (R73, R74) -/

theorem namedPins_getLsbD (k : Fin 2) (v : Word) (p : Pin) : (namedPins k v).getLsbD p.val = namesPin k v p := by
  have hp := p.isLt
  simp only [namedPins, namesPin, levelIndex, levelBit, BitVec.getLsbD_shiftLeft, BitVec.getLsbD_setWidth]
  fin_cases k
  · by_cases h : p.val < 32
    · simp [hp, Nat.div_eq_of_lt h, Nat.mod_eq_of_lt h]
    · have hv : v.getLsbD p.val = false := BitVec.getLsbD_of_ge _ _ (by omega)
      have h1 : p.val / 32 = 1 := by omega
      simp [hp, hv, h1]
  · by_cases h : p.val < 32
    · simp [h, Nat.div_eq_of_lt h]
    · have h1 : p.val / 32 = 1 := by omega
      have h2 : p.val % 32 = p.val - 32 := by omega
      have h3 : p.val - 32 < 60 := by omega
      simp [hp, h, h1, h2, h3]

/-- The word of one pin names that pin and no other (R74, R76). -/
@[simp] theorem namesPin_levelWord (p q : Pin) : namesPin (levelIndex p) (levelWord p) q = decide (q = p) := by
  have hp := p.isLt
  have hq := q.isLt
  simp only [namesPin, levelWord, levelIndex, levelBit, BitVec.getLsbD_shiftLeft, Fin.ext_iff]
  have one (n : Nat) : BitVec.getLsbD (1#32) n = decide (n = 0) := by simp
  rw [one]
  have hlt : q.val % 32 < 32 := by omega
  by_cases h : q.val = p.val
  · rw [h] at hlt
    simp [h, hlt]
  · by_cases h1 : q.val / 32 = p.val / 32
    · by_cases h2 : q.val % 32 < p.val % 32
      · simp [h, h2]
      · have h3 : ¬ (q.val % 32 - p.val % 32 = 0) := by omega
        simp [h, h3]
    · simp [h, h1]

/-- The word of one pin has no reserved bit (R73). -/
@[simp] theorem reservedLevelBits_levelWord (p : Pin) : reservedLevelBits (levelIndex p) (levelWord p) = false := by
  revert p
  decide +kernel

@[simp] theorem reservedWrite_levelTarget (p : Pin) (l : Level) :
    reservedWrite (levelTarget p l) (levelWord p) = false := by
  cases l <;> exact reservedLevelBits_levelWord p

@[simp] theorem reservedWrite_fsel (k : Fin 6) (v : Word) : reservedWrite (.fsel k) v = false := rfl

@[simp] theorem Level.ofBool_true : Level.ofBool true = .high := rfl

@[simp] theorem Level.ofBool_false : Level.ofBool false = .low := rfl

/-- A word driven to a level sets the latches it names to it and leaves the others (R93, R94). -/
theorem State.drive_latchAt (s : State) (k : Fin 2) (v : Word) (l : Level) (p : Pin) :
    (s.drive k v l).latchAt p = if namesPin k v p then l else s.latchAt p := by
  have hn := namedPins_getLsbD k v p
  have hp := p.isLt
  cases l
  · simp only [State.latchAt, State.drive_latch, driven, BitVec.getLsbD_and, BitVec.getLsbD_not, hn]
    cases namesPin k v p <;> simp [hp]
  · simp only [State.latchAt, State.drive_latch, driven, BitVec.getLsbD_or, hn]
    cases namesPin k v p <;> simp

/-- `set_level` changes one latch (R102). -/
theorem State.applyWrite_level_latchAt (s : State) (p q : Pin) (l : Level) :
    (s.applyWrite (levelTarget p l) (levelWord p)).latchAt q = if q = p then l else s.latchAt q := by
  cases l <;> simp [levelTarget, State.applyWrite, State.drive_latchAt]

@[simp] theorem State.applyWrite_level_fsel (s : State) (p : Pin) (l : Level) :
    (s.applyWrite (levelTarget p l) (levelWord p)).fsel = s.fsel := by cases l <;> rfl

@[simp] theorem State.applyWrite_fsel_latch (s : State) (k : Fin 6) (v : Word) :
    (s.applyWrite (.fsel k) v).latch = s.latch := rfl

@[simp] theorem State.applyWrite_fsel_fsel (s : State) (k : Fin 6) (v : Word) :
    (s.applyWrite (.fsel k) v).fsel = s.fsel.set k.val v := rfl

/-- Latches that agree at every pin are the same latches. -/
theorem latch_ext {s t : State} (h : ∀ p, t.latchAt p = s.latchAt p) : t.latch = s.latch := by
  refine BitVec.eq_of_getLsbD_eq fun i hi => ?_
  have := h ⟨i, hi⟩
  simp only [State.latchAt, Level.ofBool] at this
  cases h1 : t.latch.getLsbD i <;> cases h2 : s.latch.getLsbD i <;> simp_all

/-! ### Function-select fields (R75, R104) -/

/-- Bit `n` of the word `configure` writes: the code inside the field, the old bit elsewhere (R104). -/
theorem updatedField_getLsbD (w : Word) (p : Pin) (c : BitVec 3) {n : Nat} (hn : n < 32) :
    (updatedField w p c).getLsbD n =
      if fselOffset p ≤ n ∧ n < fselOffset p + 3 then c.getLsbD (n - fselOffset p) else w.getLsbD n := by
  have hoff : fselOffset p ≤ 27 := by simp only [fselOffset]; omega
  have seven (k : Nat) : BitVec.getLsbD (0b111#32) k = decide (k < 3) := by
    rcases Nat.lt_or_ge k 32 with h | h
    · interval_cases k <;> rfl
    · rw [BitVec.getLsbD_of_ge _ _ h]
      simp; omega
  simp only [updatedField, clearedField, fieldValue, fselMask, BitVec.getLsbD_or, BitVec.getLsbD_and,
    BitVec.getLsbD_not, BitVec.getLsbD_shiftLeft, BitVec.getLsbD_setWidth, seven]
  by_cases h1 : n < fselOffset p
  · have h2 : ¬ (fselOffset p ≤ n ∧ n < fselOffset p + 3) := by omega
    simp [hn, h1, h2]
  · by_cases h2 : n < fselOffset p + 3
    · have h3 : n - fselOffset p < 3 := by omega
      have h4 : fselOffset p ≤ n ∧ n < fselOffset p + 3 := by omega
      have h5 : n - fselOffset p < 32 := by omega
      simp [hn, h1, h3, h4, h5]
    · have h3 : ¬ (n - fselOffset p < 3) := by omega
      have h4 : ¬ (fselOffset p ≤ n ∧ n < fselOffset p + 3) := by omega
      have h5 : c.getLsbD (n - fselOffset p) = false := BitVec.getLsbD_of_ge _ _ (by omega)
      simp [hn, h1, h3, h4, h5]

/-- Bit `j` of a pin's field (R24). -/
theorem fieldOf_getLsbD (w : Word) (p : Pin) (j : Nat) :
    (fieldOf w p).getLsbD j = (decide (j < 3) && w.getLsbD (fselOffset p + j)) := by
  simp [fieldOf, BitVec.getLsbD_extractLsb']

/-- The field that was written holds the code (R100, R104). -/
@[simp] theorem fieldOf_updatedField_same (w : Word) (p : Pin) (c : BitVec 3) :
    fieldOf (updatedField w p c) p = c := by
  refine BitVec.eq_of_getLsbD_eq fun j hj => ?_
  have hoff : fselOffset p ≤ 27 := by simp only [fselOffset]; omega
  rw [fieldOf_getLsbD, updatedField_getLsbD _ _ _ (by omega), if_pos (by omega)]
  simp [hj]

/-- Every other field of the word is as before (R100, R104). -/
theorem fieldOf_updatedField_other (w : Word) {p q : Pin} (c : BitVec 3) (hreg : fselIndex p = fselIndex q)
    (hne : q ≠ p) : fieldOf (updatedField w p c) q = fieldOf w q := by
  refine BitVec.eq_of_getLsbD_eq fun j hj => ?_
  have hdiv : p.val / 10 = q.val / 10 := by simpa [fselIndex] using hreg
  have hval : q.val ≠ p.val := fun h => hne (Fin.ext h)
  have hp := p.isLt
  have hq := q.isLt
  have hoff : fselOffset q + j < 32 := by simp only [fselOffset]; omega
  have hout : ¬ (fselOffset p ≤ fselOffset q + j ∧ fselOffset q + j < fselOffset p + 3) := by
    simp only [fselOffset]
    omega
  rw [fieldOf_getLsbD, fieldOf_getLsbD, updatedField_getLsbD _ _ _ hoff, if_neg hout]

/-! ### Frames (R77, R78) -/

@[simp] theorem bitsMsb_length {n : Nat} (v : BitVec n) : (bitsMsb v).length = n := by simp [bitsMsb]

@[simp] theorem frameBits_length (ch : Channel) (m : BitVec 10) : (frameBits ch m).length = 16 := by
  simp [frameBits]

theorem magnitudeOf_in_range {m : Int} (h0 : 0 ≤ m) (h1 : m ≤ 1023) :
    magnitudeOf m = some (BitVec.ofNat 10 m.toNat) := if_pos ⟨h0, h1⟩

theorem magnitudeOf_none {m : Int} (h : m < 0 ∨ 1023 < m) : magnitudeOf m = none := by
  unfold magnitudeOf
  rw [if_neg (by omega)]

/-- What `parse_dec` makes of a negative decimal number, if anything, is negative. -/
theorem negativeParse_neg {t : Text} {v : Int} (h : negativeParse t = some v) : v < 0 := by
  obtain ⟨u, _, rfl⟩ := Option.map_eq_some_iff.mp h
  omega

/-- A negative decimal number is never accepted, whatever the open parser makes of it (R132, R133, R134, R138). -/
theorem acceptedValue_of_negative (cfg : Config) (name : Attr) {t : Text} (hp : isPlainDecimal t = false)
    (hn : isNegative t = true) : acceptedValue cfg name t = none := by
  unfold acceptedValue parseDec
  rw [if_neg (by simp [hp])]
  by_cases hx : isNonNumeric t = true
  · rw [if_pos hx]
  · rw [if_neg hx, if_pos hn]
    cases hv : negativeParse t with
    | none => rfl
    | some v => simp [negativeParse_neg hv]

/-- An accepted value is in the attribute's range (R132, R133, R134). -/
theorem acceptedValue_le {cfg : Config} {name : Attr} {t : Text} {v : Nat}
    (h : acceptedValue cfg name t = some v) : v ≤ attrMax cfg name := by
  unfold acceptedValue at h
  split at h
  · cases h
  · split at h
    · cases h
    · cases h
      omega

end Sys2Proof.Machine
end

