-- ==== Sys2Proof/Laws/Ops.lean ====
section
/-! SUPPORT. Laws/Ops.lean: what each shared operation can do, said once: the cases of one action, the run of a list of
actions, and the calls. Later proofs cite these and do not unfold the operations. -/

namespace Sys2Proof.Machine

/-! ### Register accesses -/

@[simp] theorem State.regWrite_trace (s : State) (c : Nat) (r : Reg) (v : Word) :
    (s.regWrite c r v).trace = s.trace ++ [.wr c r v] := by simp [State.regWrite]

@[simp] theorem State.regWrite_fsel (s : State) (c : Nat) (r : Reg) (v : Word) :
    (s.regWrite c r v).fsel = (s.applyWrite r v).fsel := rfl

@[simp] theorem State.regWrite_latch (s : State) (c : Nat) (r : Reg) (v : Word) :
    (s.regWrite c r v).latch = (s.applyWrite r v).latch := rfl

@[simp] theorem State.regWrite_cfg (s : State) (c : Nat) (r : Reg) (v : Word) : (s.regWrite c r v).cfg = s.cfg := by
  simp [State.regWrite]

@[simp] theorem State.regWrite_life (s : State) (c : Nat) (r : Reg) (v : Word) :
    (s.regWrite c r v).life = s.life := by simp [State.regWrite]

@[simp] theorem State.regWrite_txLock (s : State) (c : Nat) (r : Reg) (v : Word) :
    (s.regWrite c r v).txLock = s.txLock := by simp [State.regWrite]

@[simp] theorem State.regWrite_vol (s : State) (c : Nat) (r : Reg) (v : Word) : (s.regWrite c r v).vol = s.vol := by
  simp [State.regWrite]

@[simp] theorem State.regWrite_bas (s : State) (c : Nat) (r : Reg) (v : Word) : (s.regWrite c r v).bas = s.bas := by
  simp [State.regWrite]

@[simp] theorem State.regWrite_onv (s : State) (c : Nat) (r : Reg) (v : Word) : (s.regWrite c r v).onv = s.onv := by
  simp [State.regWrite]

@[simp] theorem State.regWrite_cur (s : State) (c : Nat) (r : Reg) (v : Word) : (s.regWrite c r v).cur = s.cur := by
  simp [State.regWrite]

@[simp] theorem State.regWrite_quantum (s : State) (c : Nat) (r : Reg) (v : Word) :
    (s.regWrite c r v).quantum = s.quantum := by simp [State.regWrite]

@[simp] theorem State.regWrite_inputs (s : State) (c : Nat) (r : Reg) (v : Word) :
    (s.regWrite c r v).inputs = s.inputs := by simp [State.regWrite]

@[simp] theorem State.regWrite_surface (s : State) (c : Nat) (r : Reg) (v : Word) :
    (s.regWrite c r v).surface = s.surface := by simp [State.regWrite]

@[simp] theorem State.regWrite_draws (s : State) (c : Nat) (r : Reg) (v : Word) :
    (s.regWrite c r v).draws = s.draws := by simp [State.regWrite]

@[simp] theorem State.regWrite_ctx_same (s : State) (c : Nat) (r : Reg) (v : Word) :
    (s.regWrite c r v).ctx c = (s.ctx c).advance := by simp [State.regWrite]

theorem State.regWrite_ctx_other (s : State) {c d : Nat} (r : Reg) (v : Word) (h : d ≠ c) :
    (s.regWrite c r v).ctx d = s.ctx d := by simp [State.regWrite, State.advance_ctx_other _ h]

@[simp] theorem State.regRead_cfg (s : State) (c : Nat) (r : Reg) : (s.regRead c r).cfg = s.cfg := by
  cases r <;> rfl
@[simp] theorem State.regRead_latch (s : State) (c : Nat) (r : Reg) : (s.regRead c r).latch = s.latch := by
  cases r <;> rfl
@[simp] theorem State.regRead_fsel (s : State) (c : Nat) (r : Reg) : (s.regRead c r).fsel = s.fsel := by
  cases r <;> rfl
@[simp] theorem State.regRead_life (s : State) (c : Nat) (r : Reg) : (s.regRead c r).life = s.life := by
  cases r <;> rfl
@[simp] theorem State.regRead_txLock (s : State) (c : Nat) (r : Reg) : (s.regRead c r).txLock = s.txLock := by
  cases r <;> rfl
@[simp] theorem State.regRead_vol (s : State) (c : Nat) (r : Reg) : (s.regRead c r).vol = s.vol := by
  cases r <;> rfl
@[simp] theorem State.regRead_bas (s : State) (c : Nat) (r : Reg) : (s.regRead c r).bas = s.bas := by
  cases r <;> rfl
@[simp] theorem State.regRead_onv (s : State) (c : Nat) (r : Reg) : (s.regRead c r).onv = s.onv := by
  cases r <;> rfl
@[simp] theorem State.regRead_cur (s : State) (c : Nat) (r : Reg) : (s.regRead c r).cur = s.cur := by
  cases r <;> rfl
@[simp] theorem State.regRead_quantum (s : State) (c : Nat) (r : Reg) : (s.regRead c r).quantum = s.quantum := by
  cases r <;> rfl
@[simp] theorem State.regRead_inputs (s : State) (c : Nat) (r : Reg) : (s.regRead c r).inputs = s.inputs := by
  cases r <;> rfl
@[simp] theorem State.regRead_surface (s : State) (c : Nat) (r : Reg) : (s.regRead c r).surface = s.surface := by
  cases r <;> rfl

/-- A register read touches its context's local variable only. -/
theorem State.regRead_ctx_same (s : State) (c : Nat) (r : Reg) :
    ∃ v, (s.regRead c r).ctx c = { s.ctx c with temp := v } := by
  cases r <;> exact ⟨_, State.keep_ctx_same _ _ _⟩

theorem State.regRead_ctx_other (s : State) {c d : Nat} (r : Reg) (h : d ≠ c) :
    (s.regRead c r).ctx d = s.ctx d := by
  cases r <;> exact State.keep_ctx_other _ _ h

theorem State.regRead_trace (s : State) (c : Nat) (r : Reg) :
    ∃ v, (s.regRead c r).trace = s.trace ++ [.rd c r v] ∧ ∀ k, r = .fsel k → v = s.fsel[k.val] := by
  cases r with
  | fsel k => exact ⟨_, rfl, fun j h => by cases h; rfl⟩
  | set k => exact ⟨_, rfl, fun j h => by cases h⟩
  | clr k => exact ⟨_, rfl, fun j h => by cases h⟩

theorem State.regRead_wf {s : State} (h : s.ctxs.wf = true) (c : Nat) (r : Reg) :
    (s.regRead c r).ctxs.wf = true := by
  cases r <;> exact Contexts.wf_set h _ _

theorem State.regWrite_wf {s : State} (h : s.ctxs.wf = true) (c : Nat) (r : Reg) (v : Word) :
    (s.regWrite c r v).ctxs.wf = true := State.mapCtx_wf (by simpa using h) _ _

/-- The latch of a pin depends on the latches alone. -/
theorem State.latchAt_congr {s t : State} (h : t.latch = s.latch) (p : Pin) : t.latchAt p = s.latchAt p := by
  simp [State.latchAt, h]

/-- The function of a pin depends on the function-select words alone. -/
theorem State.fn_congr {s t : State} (h : t.fsel = s.fsel) (p : Pin) : t.fn p = s.fn p := by simp [State.fn, h]

/-- The line of a pin depends on the parameters, the function-select words and the latches. -/
theorem State.line_congr {s t : State} (hc : t.cfg = s.cfg) (hf : t.fsel = s.fsel) (hl : t.latch = s.latch)
    (p : Pin) : t.line p = s.line p := by
  have hd : t.dir p = s.dir p := by simp only [State.dir, State.fn_congr hf, hc]
  rw [State.line, State.line, hd, State.latchAt_congr hl]

/-- A context outside every frame is not moved by the sequencer. -/
@[simp] theorem Ctx.advance_of_noFrame {x : Ctx} (h : x.frame = none) : x.advance = x := by
  unfold Ctx.advance
  rw [h]

/-- A context behind the acquire step of its frame moves by one (R31). -/
theorem Ctx.advance_of_frame {x : Ctx} {bits : List Bool} {k : Nat} (hf : x.frame = some bits)
    (hs : x.seq = .at (k + 1)) : x.advance = { x with seq := .at (k + 2) } := by
  unfold Ctx.advance
  rw [hf, hs]

@[simp] theorem Ctx.advance_frame (x : Ctx) : x.advance.frame = x.frame := by unfold Ctx.advance; split <;> rfl
@[simp] theorem Ctx.advance_call (x : Ctx) : x.advance.call = x.call := by unfold Ctx.advance; split <;> rfl
@[simp] theorem Ctx.advance_work (x : Ctx) : x.advance.work = x.work := by unfold Ctx.advance; split <;> rfl
@[simp] theorem Ctx.advance_temp (x : Ctx) : x.advance.temp = x.temp := by unfold Ctx.advance; split <;> rfl
@[simp] theorem Ctx.advance_result (x : Ctx) : x.advance.result = x.result := by unfold Ctx.advance; split <;> rfl

/-- The sequencer never enters a region: a position behind the acquire was behind it before. -/
theorem Ctx.advance_seq {x : Ctx} {k : Nat} (h : x.advance.seq = .at (k + 1)) : ∃ j, x.seq = .at (j + 1) := by
  unfold Ctx.advance at h
  split at h
  · exact ⟨_, by assumption⟩
  · exact ⟨k, h⟩

/-! ### What one action can do -/

/-- A register write is done, or refused for reserved bits. -/
theorem State.tryWrite_eq (s : State) (c : Nat) (r : Reg) (v : Word) (h : reservedWrite r v = false) :
    s.tryWrite c r v = .did (s.regWrite c r v) := by simp [State.tryWrite, h]

theorem State.tryWrite_did {s s' : State} {c : Nat} {r : Reg} {v : Word} (h : s.tryWrite c r v = .did s') :
    reservedWrite r v = false ∧ s' = s.regWrite c r v := by
  unfold State.tryWrite at h
  split at h
  · cases h
  · rename_i hr
    cases h
    exact ⟨Bool.eq_false_iff.mpr hr, rfl⟩

theorem State.tryWrite_not_ended {s s' : State} {c : Nat} {r : Reg} {v : Word} : s.tryWrite c r v ≠ .ended s' := by
  unfold State.tryWrite
  split <;> simp

theorem State.tryWrite_not_wait {s : State} {c : Nat} {r : Reg} {v : Word} : s.tryWrite c r v ≠ .wait := by
  unfold State.tryWrite
  split <;> simp

/-- `lock_acquire` takes a free lock (R144). -/
theorem State.acquire_eq {s : State} (c : Nat) (h : s.txLock = .free) :
    s.acquire c = .did (((s.putLock (.held c)).emit (.acq c)).mapCtx c fun x => { x with seq := .at 1 }) :=
  if_pos h

/-- `lock_acquire` waits for a held lock, the caller's own too (R144). -/
theorem State.acquire_wait {s : State} (c : Nat) (h : s.txLock ≠ .free) : s.acquire c = .wait := if_neg h

/-- `lock_release` frees the lock its context holds (R145). -/
theorem State.release_eq {s : State} {c : Nat} (h : s.txLock = .held c) :
    s.release c = .did (((s.putLock .free).emit (.rel c)).mapCtx c fun x =>
      { x with seq := .idle, frame := none }) := if_pos h

/-- What an action does that lets its call go on. -/
theorem perform_did {c : Nat} {a : Action} {s s' : State} (h : perform c a s = .did s') :
    (∃ r, a = .read r ∧ s' = s.regRead c r)
      ∨ (∃ r v, (a = .write r v ∨ (∃ p d, a = .writeField p d) ∨ (∃ p, a = .clearField p) ∨ ∃ p d, a = .orField p d)
          ∧ reservedWrite r v = false ∧ s' = s.regWrite c r v)
      ∨ (a = .settle ∧ s' = (s.emit (.settle c)).advance c)
      ∨ (∃ bits, a = .enter bits ∧ s' = s.enterFrame c bits)
      ∨ (a = .acquire ∧ s.txLock = .free ∧
          s' = ((s.putLock (.held c)).emit (.acq c)).mapCtx c fun x => { x with seq := .at 1 })
      ∨ (a = .release ∧ s.txLock = .held c ∧
          s' = ((s.putLock .free).emit (.rel c)).mapCtx c fun x => { x with seq := .idle, frame := none })
      ∨ (∃ name v, a = .accept name v ∧ s' = (s.store name v).emit (.accept c name v))
      ∨ (a = .pinsConfigured ∧ s' = s.putLife .pinsConfigured)
      ∨ (a = .teardown ∧ s.life = .operational ∧ s.inFlight = false ∧ s' = s.putLife .uninitialized) := by
  cases a with
  | read r => cases h; exact .inl ⟨r, rfl, rfl⟩
  | write r v =>
    obtain ⟨h1, h2⟩ := State.tryWrite_did h
    exact .inr (.inl ⟨r, v, .inl rfl, h1, h2⟩)
  | writeField p d =>
    obtain ⟨h1, h2⟩ := State.tryWrite_did h
    exact .inr (.inl ⟨_, _, .inr (.inl ⟨p, d, rfl⟩), h1, h2⟩)
  | clearField p =>
    obtain ⟨h1, h2⟩ := State.tryWrite_did h
    exact .inr (.inl ⟨_, _, .inr (.inr (.inl ⟨p, rfl⟩)), h1, h2⟩)
  | orField p d =>
    obtain ⟨h1, h2⟩ := State.tryWrite_did h
    exact .inr (.inl ⟨_, _, .inr (.inr (.inr ⟨p, d, rfl⟩)), h1, h2⟩)
  | settle => cases h; exact .inr (.inr (.inl ⟨rfl, rfl⟩))
  | enter bits => cases h; exact .inr (.inr (.inr (.inl ⟨bits, rfl, rfl⟩)))
  | acquire =>
    simp only [perform, State.acquire] at h
    split at h
    · cases h; exact .inr (.inr (.inr (.inr (.inl ⟨rfl, ‹_›, rfl⟩))))
    · cases h
  | release =>
    simp only [perform, State.release] at h
    split at h
    · cases h; exact .inr (.inr (.inr (.inr (.inr (.inl ⟨rfl, ‹_›, rfl⟩)))))
    · cases h
  | accept name v =>
    cases h
    exact .inr (.inr (.inr (.inr (.inr (.inr (.inl ⟨name, v, rfl, rfl⟩))))))
  | reject name => cases h
  | pinsConfigured =>
    cases h
    exact .inr (.inr (.inr (.inr (.inr (.inr (.inr (.inl ⟨rfl, rfl⟩)))))))
  | register =>
    simp only [perform, State.registerSurface] at h
    split at h <;> cases h
  | teardown =>
    refine .inr (.inr (.inr (.inr (.inr (.inr (.inr (.inr ⟨rfl, ?_⟩)))))))
    simp only [perform, State.tearDown] at h
    split at h
    · cases h
    · split at h
      · cases h
      · cases h
        rename_i h1 h2
        exact ⟨by simpa [State.operational] using h1, by simpa using h2, rfl⟩
  | ret => cases h
  | retWord => cases h
  | retText name => cases h

/-- What an action does that ends its call: a return or a failure. -/
theorem perform_ended {c : Nat} {a : Action} {s s' : State} (h : perform c a s = .ended s') :
    (∃ name, a = .reject name ∧ s' = (s.emit (.reject c name)).raise c (.invalidArgument name))
      ∨ (a = .register ∧ s.surface.head? = some false ∧
          s' = ((s.putLife .uninitialized).putSurface s.surface.tail).raise c .initFailure)
      ∨ (a = .register ∧ s.surface.head? ≠ some false ∧
          s' = ((s.putLife .operational).putSurface s.surface.tail).finish c .done)
      ∨ (a = .ret ∧ s' = s.finish c .done)
      ∨ (a = .retWord ∧ s' = s.finish c (.word (s.ctx c).temp))
      ∨ (∃ name, a = .retText name ∧ s' = s.finish c (.text (shownText (s.stored name)))) := by
  cases a with
  | read r => cases h
  | write r v => exact absurd h State.tryWrite_not_ended
  | writeField p d => exact absurd h State.tryWrite_not_ended
  | clearField p => exact absurd h State.tryWrite_not_ended
  | orField p d => exact absurd h State.tryWrite_not_ended
  | settle => cases h
  | enter bits => cases h
  | acquire => simp only [perform, State.acquire] at h; split at h <;> cases h
  | release => simp only [perform, State.release] at h; split at h <;> cases h
  | accept name v => cases h
  | reject name => cases h; exact .inl ⟨name, rfl, rfl⟩
  | pinsConfigured => cases h
  | register =>
    simp only [perform, State.registerSurface] at h
    split at h
    · cases h; exact .inr (.inl ⟨rfl, ‹_›, rfl⟩)
    · cases h; exact .inr (.inr (.inl ⟨rfl, ‹_›, rfl⟩))
  | teardown =>
    simp only [perform, State.tearDown] at h
    split at h
    · cases h
    · split at h <;> cases h
  | ret => cases h; exact .inr (.inr (.inr (.inl ⟨rfl, rfl⟩)))
  | retWord => cases h; exact .inr (.inr (.inr (.inr (.inl ⟨rfl, rfl⟩))))
  | retText name => cases h; exact .inr (.inr (.inr (.inr (.inr ⟨name, rfl, rfl⟩))))

/-- Every action keeps the canonical form of the contexts. -/
theorem perform_wf {c : Nat} {a : Action} {s s' : State} (hw : s.ctxs.wf = true)
    (h : perform c a s = .did s' ∨ perform c a s = .ended s') : s'.ctxs.wf = true := by
  rcases h with h | h
  · rcases perform_did h with ⟨r, _, rfl⟩ | ⟨r, v, _, _, rfl⟩ | ⟨_, rfl⟩ | ⟨b, _, rfl⟩ | ⟨_, _, rfl⟩ | ⟨_, _, rfl⟩
      | ⟨n, v, _, rfl⟩ | ⟨_, rfl⟩ | ⟨_, _, _, rfl⟩
    · exact State.regRead_wf hw c r
    · exact State.regWrite_wf hw c r v
    all_goals first
      | exact State.mapCtx_wf (by simpa using hw) _ _
      | simpa using hw
  · rcases perform_ended h with ⟨n, _, rfl⟩ | ⟨_, _, rfl⟩ | ⟨_, _, rfl⟩ | ⟨_, rfl⟩ | ⟨_, rfl⟩ | ⟨n, _, rfl⟩
    all_goals exact State.mapCtx_wf (by simpa using hw) _ _

/-- Only two actions wait: the acquire of a held lock, and `stop` while something is in flight. -/
theorem perform_wait {c : Nat} {a : Action} {s : State} (h : perform c a s = .wait) :
    (a = .acquire ∧ s.txLock ≠ .free) ∨ (a = .teardown ∧ s.life = .operational ∧ s.inFlight = true) := by
  cases a with
  | acquire =>
    simp only [perform, State.acquire] at h
    split at h
    · cases h
    · exact .inl ⟨rfl, ‹_›⟩
  | teardown =>
    simp only [perform, State.tearDown] at h
    split at h
    · cases h
    · split at h
      · rename_i h1 h2
        exact .inr ⟨rfl, by simpa [State.operational] using h1, h2⟩
      · cases h
  | register => simp only [perform, State.registerSurface] at h; split at h <;> cases h
  | release => simp only [perform, State.release] at h; split at h <;> cases h
  | write r v => exact absurd h State.tryWrite_not_wait
  | writeField p d => exact absurd h State.tryWrite_not_wait
  | clearField p => exact absurd h State.tryWrite_not_wait
  | orField p d => exact absurd h State.tryWrite_not_wait
  | _ => cases h

/-! ### The run of a list of actions -/

@[simp] theorem runWork_nil (c : Nat) (q : Option Nat) (s : State) : runWork c [] q s = .next s := rfl

theorem runWork_preempted (c : Nat) (a : Action) (rest : List Action) (s : State) :
    runWork c (a :: rest) (some 0) s = .next (s.suspend c (a :: rest)) := rfl

@[simp] theorem spend_none : spend none = none := rfl

@[simp] theorem spend_succ (n : Nat) : spend (some (n + 1)) = some n := rfl

theorem runWork_did {c : Nat} {a : Action} {rest : List Action} {q : Option Nat} {s s' : State}
    (hq : q ≠ some 0) (h : perform c a s = .did s') :
    runWork c (a :: rest) q s = runWork c rest (spend q) s' := by
  rw [runWork, if_neg hq, h]

theorem runWork_wait {c : Nat} {a : Action} {rest : List Action} {q : Option Nat} {s : State}
    (h : perform c a s = .wait) : runWork c (a :: rest) q s = .next (s.suspend c (a :: rest)) := by
  rw [runWork, h]
  split <;> rfl

theorem runWork_ended {c : Nat} {a : Action} {rest : List Action} {q : Option Nat} {s s' : State}
    (hq : q ≠ some 0) (h : perform c a s = .ended s') : runWork c (a :: rest) q s = .next s' := by
  rw [runWork, if_neg hq, h]

theorem runWork_refuse {c : Nat} {a : Action} {rest : List Action} {q : Option Nat} {s : State} {r : Refusal}
    (hq : q ≠ some 0) (h : perform c a s = .refuse r) : runWork c (a :: rest) q s = .refused r := by
  rw [runWork, if_neg hq, h]

/-- The cases of a run that answers a next state. -/
theorem runWork_next {c : Nat} {a : Action} {rest : List Action} {q : Option Nat} {s t : State}
    (h : runWork c (a :: rest) q s = .next t) :
    (t = s.suspend c (a :: rest) ∧ (q = some 0 ∨ perform c a s = .wait))
      ∨ (q ≠ some 0 ∧ ∃ s', perform c a s = .did s' ∧ runWork c rest (spend q) s' = .next t)
      ∨ (q ≠ some 0 ∧ perform c a s = .ended t) := by
  rw [runWork] at h
  split at h
  · cases h
    exact .inl ⟨rfl, .inl ‹_›⟩
  · split at h
    · exact .inr (.inl ⟨‹_›, _, ‹_›, h⟩)
    · cases h
      exact .inl ⟨rfl, .inr ‹_›⟩
    · cases h
      exact .inr (.inr ⟨‹_›, ‹_›⟩)
    · cases h

/-- Nothing a run does is a fault: the block has none. -/
theorem runWork_no_fault {c : Nat} {work : List Action} {q : Option Nat} {s : State} {f : Fault} :
    runWork c work q s ≠ .fault f := by cases f

/-- A property of states that every action keeps, and every suspension, is kept by a run. -/
theorem runWork_keeps {P : State → Prop} {c : Nat}
    (hdid : ∀ a s s', P s → perform c a s = .did s' → P s')
    (hended : ∀ a s s', P s → perform c a s = .ended s' → P s')
    (hsuspend : ∀ s work, P s → P (s.suspend c work)) :
    ∀ {work : List Action} {q : Option Nat} {s t : State}, P s → runWork c work q s = .next t → P t
  | [], _, _, _, hs, h => by cases h; exact hs
  | a :: rest, q, s, t, hs, h => by
    rcases runWork_next h with ⟨rfl, _⟩ | ⟨_, s', hp, h'⟩ | ⟨_, hp⟩
    · exact hsuspend s _ hs
    · exact runWork_keeps hdid hended hsuspend (hdid a s s' hs hp) h'
    · exact hended a s t hs hp

/-- The state after a list of actions each of which is done at once, if they all are. -/
def doAll (c : Nat) : List Action → State → Option State
  | [], s => some s
  | a :: rest, s =>
    match perform c a s with
    | .did s' => doAll c rest s'
    | _ => none

theorem doAll_cons {c : Nat} {a : Action} {s s' : State} (h : perform c a s = .did s') (rest : List Action) :
    doAll c (a :: rest) s = doAll c rest s' := by rw [doAll, h]

theorem doAll_append {c : Nat} {as bs : List Action} {s s' : State} (h : doAll c as s = some s') :
    doAll c (as ++ bs) s = doAll c bs s' := by
  induction as generalizing s with
  | nil => cases h; rfl
  | cons a rest ih =>
    rw [doAll] at h
    split at h
    · rw [List.cons_append, doAll_cons ‹_›]
      exact ih h
    · cases h

/-- Actions that are all done lead a run that is not preempted to what follows them. -/
theorem runWork_doAll {c : Nat} {as bs : List Action} {s s' : State} (h : doAll c as s = some s') :
    runWork c (as ++ bs) none s = runWork c bs none s' := by
  induction as generalizing s with
  | nil => cases h; rfl
  | cons a rest ih =>
    rw [doAll] at h
    split at h
    · rw [List.cons_append, runWork_did (by simp) ‹_›]
      exact ih h
    · cases h

/-! ### Calls -/

/-- A call by a context that is inside none runs its work. -/
theorem runCall_idle {i : Instr} {entry : State → State} {work : List Action} {s : State}
    (h : (s.ctx s.cur).call = none) :
    runCall i entry work s = runWork s.cur work s.quantum (entry (s.beginCall i)) := if_pos h

/-- A call by a context that is inside one is refused. -/
theorem runCall_busy {i : Instr} {entry : State → State} {work : List Action} {s : State}
    (h : (s.ctx s.cur).call ≠ none) : runCall i entry work s = .refused .contextBusy := if_neg h

theorem runCall_next {i : Instr} {entry : State → State} {work : List Action} {s t : State}
    (h : runCall i entry work s = .next t) :
    (s.ctx s.cur).call = none ∧ runWork s.cur work s.quantum (entry (s.beginCall i)) = .next t := by
  unfold runCall at h
  split at h
  · exact ⟨‹_›, h⟩
  · cases h

/-! ### Configure and set_level as actions -/

theorem perform_setLevel (c : Nat) (p : Pin) (l : Level) (s : State) :
    perform c (.write (levelTarget p l) (levelWord p)) s = .did (s.regWrite c (levelTarget p l) (levelWord p)) :=
  State.tryWrite_eq s c _ _ (reservedWrite_levelTarget p l)

theorem perform_read (c : Nat) (r : Reg) (s : State) : perform c (.read r) s = .did (s.regRead c r) := rfl

theorem perform_writeField (c : Nat) (p : Pin) (d : Direction) (s : State) :
    perform c (.writeField p d) s =
      .did (s.regWrite c (.fsel (fselIndex p)) (updatedField (s.ctx c).temp p (code s.cfg d))) :=
  State.tryWrite_eq s c _ _ rfl

theorem perform_settle (c : Nat) (s : State) : perform c .settle s = .did ((s.emit (.settle c)).advance c) := rfl

theorem perform_acquire {c : Nat} {s : State} (h : s.txLock = .free) :
    perform c .acquire s =
      .did (((s.putLock (.held c)).emit (.acq c)).mapCtx c fun x => { x with seq := .at 1 }) :=
  State.acquire_eq c h

theorem perform_acquire_wait {c : Nat} {s : State} (h : s.txLock ≠ .free) : perform c .acquire s = .wait :=
  State.acquire_wait c h

theorem perform_release {c : Nat} {s : State} (h : s.txLock = .held c) :
    perform c .release s =
      .did (((s.putLock .free).emit (.rel c)).mapCtx c fun x => { x with seq := .idle, frame := none }) :=
  State.release_eq h

theorem perform_ret (c : Nat) (s : State) : perform c .ret s = .ended (s.finish c .done) := rfl

end Sys2Proof.Machine
end

