-- ==== Sys2Proof/Laws/Frames.lean ====
section
/-! SUPPORT. Laws/Frames.lean: what the sequences of R86 do when nothing comes between their actions: a bit, a bit
sequence, a whole frame, a `configure`. Each lemma says once everything its sequence leaves; later proofs cite these and
do not run the actions. -/

namespace Sys2Proof.Machine

/-- A stretch of `n` actions of context `c` that adds the events `es` and changes nothing but the latches and the
position of its context. -/
structure Drives (c n : Nat) (s t : State) (es : List Event) : Prop where
  caller : t.ctx c = Ctx.advance^[n] (s.ctx c)
  others : ∀ d, d ≠ c → t.ctx d = s.ctx d
  trace : t.trace = s.trace ++ es
  fsel : t.fsel = s.fsel
  cfg : t.cfg = s.cfg
  life : t.life = s.life
  txLock : t.txLock = s.txLock
  vol : t.vol = s.vol
  bas : t.bas = s.bas
  onv : t.onv = s.onv
  cur : t.cur = s.cur
  quantum : t.quantum = s.quantum
  inputs : t.inputs = s.inputs
  surface : t.surface = s.surface
  draws : t.draws = s.draws

theorem Drives.refl (c : Nat) (s : State) : Drives c 0 s s [] := by constructor <;> simp

theorem Drives.trans {c n m : Nat} {s t u : State} {es fs : List Event} (h : Drives c n s t es)
    (k : Drives c m t u fs) : Drives c (n + m) s u (es ++ fs) where
  caller := by rw [k.caller, h.caller, Nat.add_comm n m, Function.iterate_add_apply]
  others d hd := (k.others d hd).trans (h.others d hd)
  trace := by rw [k.trace, h.trace, List.append_assoc]
  fsel := k.fsel.trans h.fsel
  cfg := k.cfg.trans h.cfg
  life := k.life.trans h.life
  txLock := k.txLock.trans h.txLock
  vol := k.vol.trans h.vol
  bas := k.bas.trans h.bas
  onv := k.onv.trans h.onv
  cur := k.cur.trans h.cur
  quantum := k.quantum.trans h.quantum
  inputs := k.inputs.trans h.inputs
  surface := k.surface.trans h.surface
  draws := k.draws.trans h.draws

/-- A record outside every frame stands still. -/
theorem Ctx.advance_iterate_of_noFrame {x : Ctx} (h : x.frame = none) (n : Nat) : Ctx.advance^[n] x = x := by
  induction n with
  | zero => rfl
  | succ n ih => rw [Function.iterate_succ_apply, Ctx.advance_of_noFrame h, ih]

/-- A record inside a region moves by one position an action (R31). -/
theorem Ctx.advance_iterate_of_frame (n : Nat) : ∀ {x : Ctx} {bits : List Bool} {k : Nat}, x.frame = some bits →
    x.seq = .at (k + 1) → Ctx.advance^[n] x = { x with seq := .at (k + 1 + n) } := by
  induction n with
  | zero =>
    intro x bits k _ hs
    rw [Function.iterate_zero_apply, Nat.add_zero, ← hs]
  | succ n ih =>
    intro x bits k hf hs
    rw [Function.iterate_succ_apply, Ctx.advance_of_frame hf hs,
      ih (x := { x with seq := .at (k + 2) }) (k := k + 1) hf rfl]
    simp only [Ctx.mk.injEq, Seq.at.injEq, and_true]
    omega

/-! ### One write, one settle -/

theorem drives_setLevel (c : Nat) (p : Pin) (l : Level) (s : State) :
    Drives c 1 s (s.regWrite c (levelTarget p l) (levelWord p)) [setLevelEvent c p l] := by
  constructor <;> simp [setLevelEvent]
  intro d hd
  exact State.regWrite_ctx_other s _ _ hd

theorem drives_settle (c : Nat) (s : State) : Drives c 1 s ((s.emit (.settle c)).advance c) [.settle c] := by
  constructor <;> simp
  intro d hd
  rw [State.advance_ctx_other _ hd, State.emit_ctx]

theorem State.regWrite_level_latchAt (s : State) (c : Nat) (p q : Pin) (l : Level) :
    (s.regWrite c (levelTarget p l) (levelWord p)).latchAt q = if q = p then l else s.latchAt q :=
  (State.latchAt_congr rfl q).trans (State.applyWrite_level_latchAt s p q l)

theorem State.settle_latchAt (s : State) (c : Nat) (q : Pin) :
    ((s.emit (.settle c)).advance c).latchAt q = s.latchAt q := State.latchAt_congr (by simp) q

theorem doAll_nil (c : Nat) (s : State) : doAll c [] s = some s := rfl

theorem doAll_setLevel (c : Nat) (p : Pin) (l : Level) (s : State) :
    doAll c (setLevelActions p l) s = some (s.regWrite c (levelTarget p l) (levelWord p)) := by
  rw [setLevelActions, doAll_cons (perform_setLevel c p l s), doAll_nil]

/-- One level set and one settle wait (R110, R111). -/
theorem doAll_setLevel_settle (c : Nat) (p : Pin) (l : Level) (s : State) :
    ∃ t, doAll c (setLevelActions p l ++ [.settle]) s = some t
      ∧ Drives c 2 s t [setLevelEvent c p l, .settle c]
      ∧ ∀ q, t.latchAt q = if q = p then l else s.latchAt q := by
  refine ⟨_, ?_, (drives_setLevel c p l s).trans (drives_settle c _), fun q => ?_⟩
  · rw [doAll_append (doAll_setLevel c p l s), doAll_cons (perform_settle c _), doAll_nil]
  · rw [State.settle_latchAt, State.regWrite_level_latchAt]

/-! ### A bit, a bit sequence (R111, R113) -/

/-- `send_bit(v)` leaves the clock low and the data line at `v` (R111). -/
theorem doAll_sendBit (c : Nat) (v : Bool) (s : State) :
    ∃ t, doAll c (sendBitActions s.cfg v) s = some t
      ∧ Drives c 6 s t (sendBitEvents s.cfg c v)
      ∧ ∀ q, t.latchAt q = if q = clkPin s.cfg then .low
          else if q = dataPin s.cfg then Level.ofBool v else s.latchAt q := by
  obtain ⟨t1, h1, d1, l1⟩ := doAll_setLevel_settle c (dataPin s.cfg) (Level.ofBool v) s
  obtain ⟨t2, h2, d2, l2⟩ := doAll_setLevel_settle c (clkPin s.cfg) .high t1
  obtain ⟨t3, h3, d3, l3⟩ := doAll_setLevel_settle c (clkPin s.cfg) .low t2
  refine ⟨t3, ?_, (d1.trans d2).trans d3, fun q => ?_⟩
  · have : sendBitActions s.cfg v = (setLevelActions (dataPin s.cfg) (Level.ofBool v) ++ [.settle])
        ++ ((setLevelActions (clkPin s.cfg) .high ++ [.settle]) ++ (setLevelActions (clkPin s.cfg) .low ++ [.settle])) := by
      simp [sendBitActions]
    rw [this, doAll_append h1, doAll_append h2, h3]
  · rw [l3, l2, l1]
    by_cases hq : q = clkPin s.cfg <;> simp [hq]

/-- The latches after a bit sequence: clock low and data at the last bit, or unchanged when there is no bit (R113). -/
def bitsLatch (s : State) (bits : List Bool) (q : Pin) : Level :=
  match bits.getLast? with
  | none => s.latchAt q
  | some v => if q = clkPin s.cfg then .low else if q = dataPin s.cfg then Level.ofBool v else s.latchAt q

theorem doAll_bits (c : Nat) (bits : List Bool) : ∀ s : State,
    ∃ t, doAll c (bits.flatMap (sendBitActions s.cfg)) s = some t
      ∧ Drives c (6 * bits.length) s t (bits.flatMap (sendBitEvents s.cfg c))
      ∧ ∀ q, t.latchAt q = bitsLatch s bits q := by
  induction bits with
  | nil => exact fun s => ⟨s, rfl, Drives.refl c s, fun q => rfl⟩
  | cons v rest ih =>
    intro s
    obtain ⟨t1, h1, d1, l1⟩ := doAll_sendBit c v s
    obtain ⟨t2, h2, d2, l2⟩ := ih t1
    rw [d1.cfg] at h2 d2
    refine ⟨t2, ?_, ?_, fun q => ?_⟩
    · rw [List.flatMap_cons, doAll_append h1, h2]
    · have := d1.trans d2
      rwa [show 6 + 6 * rest.length = 6 * (v :: rest).length from by simp only [List.length_cons]; omega] at this
    · rw [l2, bitsLatch, bitsLatch, List.getLast?_cons, d1.cfg, l1]
      cases rest.getLast? with
      | none => rfl
      | some w =>
        simp only [Option.getD_some]
        by_cases h : q = clkPin s.cfg <;> by_cases h' : q = dataPin s.cfg <;> simp [h, h']

/-! ### A whole frame (R113) -/

/-- The latches after a whole frame: chip-select high, the others as its bits leave them (R113). -/
def frameLatch (s : State) (bits : List Bool) (q : Pin) : Level :=
  if q = csPin s.cfg then .high else bitsLatch s bits q

/-- The latches after a frame depend on the parameters and the latches before it. -/
theorem frameLatch_congr {s t : State} (hc : t.cfg = s.cfg) (hl : t.latch = s.latch) (bits : List Bool) (q : Pin) :
    frameLatch t bits q = frameLatch s bits q := by
  simp only [frameLatch, bitsLatch, hc, State.latchAt_congr hl]

/-- The latches of a frame are those R113 states, when the role pins are distinct. -/
theorem frameLatches_of_frameLatch {s t : State} {bits : List Bool} (hw : s.cfg.wf = true)
    (h : ∀ q, t.latchAt q = frameLatch s bits q) : FrameLatches s t bits := by
  obtain ⟨p1, p2, _, p4, _, _⟩ := Config.rolePins_distinct hw
  refine ⟨?_, ?_, ?_, ?_, ?_⟩
  · rw [h, frameLatch, if_pos rfl]
  · rw [h, frameLatch, if_neg p2.symm, bitsLatch]
    cases bits.getLast? with
    | none => rfl
    | some v => simp [p4.symm]
  · intro hb
    rw [h, frameLatch, if_neg p1.symm, bitsLatch, List.getLast?_eq_some_getLast hb]
    simp
  · rintro rfl
    rw [h, frameLatch, if_neg p1.symm]
    rfl
  · intro p a b c
    rw [h, frameLatch, if_neg a, bitsLatch]
    cases bits.getLast? with
    | none => rfl
    | some v => simp [b, c]

/-- What a whole frame, sent with nothing between its actions, leaves. -/
structure Sent (c : Nat) (s t : State) (bits : List Bool) : Prop where
  caller : t.ctx c = (s.ctx c).atRest
  others : ∀ d, d ≠ c → t.ctx d = s.ctx d
  trace : t.trace = s.trace ++ frameEvents s.cfg c bits
  latchAt : ∀ q, t.latchAt q = frameLatch s bits q
  txLock : t.txLock = .free
  fsel : t.fsel = s.fsel
  cfg : t.cfg = s.cfg
  life : t.life = s.life
  vol : t.vol = s.vol
  bas : t.bas = s.bas
  onv : t.onv = s.onv
  cur : t.cur = s.cur
  quantum : t.quantum = s.quantum
  inputs : t.inputs = s.inputs
  surface : t.surface = s.surface
  draws : t.draws = s.draws

/-- With the lock free, the actions of a frame are all done, one after the other (R113, R144, R145). -/
theorem doAll_frame (c : Nat) (bits : List Bool) (s : State) (hf : (s.ctx c).frame = some bits)
    (hl : s.txLock = .free) : ∃ t, doAll c (frameActions s.cfg bits) s = some t ∧ Sent c s t bits := by
  have ha : perform c .acquire s = .did _ := State.acquire_eq c hl
  generalize hs1 : (((s.putLock (.held c)).emit (.acq c)).mapCtx c fun x => { x with seq := .at 1 }) = s1 at ha
  have c1 : s1.ctx c = { s.ctx c with seq := .at 1 } := by rw [← hs1]; simp
  have o1 : ∀ d, d ≠ c → s1.ctx d = s.ctx d := by
    intro d hd; rw [← hs1, State.mapCtx_ctx_other _ _ hd]; rfl
  have g1 : s1.cfg = s.cfg := by rw [← hs1]; rfl
  obtain ⟨s2, h2, d2, l2⟩ := doAll_setLevel_settle c (csPin s1.cfg) .low s1
  obtain ⟨s3, h3, d3, l3⟩ := doAll_bits c bits s2
  have h4 := doAll_setLevel c (csPin s1.cfg) .high s3
  have d4 := drives_setLevel c (csPin s1.cfg) .high s3
  have l4 := fun q => State.regWrite_level_latchAt s3 c (csPin s1.cfg) q .high
  generalize s3.regWrite c (levelTarget (csPin s1.cfg) .high) (levelWord (csPin s1.cfg)) = s4 at h4 d4 l4
  have d := (d2.trans d3).trans d4
  have lk : s4.txLock = .held c := by rw [d.txLock, ← hs1]; rfl
  have hr : perform c .release s4 = .did _ := State.release_eq lk
  have c4 : s4.ctx c = { s.ctx c with seq := .at (3 + 6 * bits.length + 1) } := by
    rw [d.caller, Ctx.advance_iterate_of_frame (bits := bits) (k := 0) _ (by rw [c1]; exact hf) (by rw [c1])]
    rw [c1]
    simp only [Ctx.mk.injEq, Seq.at.injEq, and_true]
    omega
  have g2 : s2.cfg = s.cfg := d2.cfg.trans g1
  refine ⟨((s4.putLock .free).emit (.rel c)).mapCtx c fun x => { x with seq := .idle, frame := none }, ?_, ?_⟩
  · have hsplit : frameActions s.cfg bits = .acquire :: ((setLevelActions (csPin s1.cfg) .low ++ [.settle])
        ++ (bits.flatMap (sendBitActions s2.cfg) ++ (setLevelActions (csPin s1.cfg) .high ++ [.release]))) := by
      rw [g2, g1]; simp [frameActions]
    rw [hsplit, doAll_cons ha, doAll_append h2, doAll_append h3, doAll_append h4, doAll_cons hr, doAll_nil]
  · constructor
    · simp only [State.mapCtx_ctx_same, Ctx.atRest]
      show { s4.ctx c with seq := .idle, frame := none } = _
      rw [c4]
    · intro e he
      rw [State.mapCtx_ctx_other _ _ he]
      exact (d.others e he).trans (o1 e he)
    · simp only [State.mapCtx_trace, State.emit_trace, State.putLock_trace]
      rw [d.trace, show s1.trace = s.trace ++ [.acq c] from by rw [← hs1]; simp, g1, g2]
      simp [frameEvents]
    · intro q
      have : ∀ u : State, u.latch = s4.latch → u.latchAt q = s4.latchAt q := fun u hu => State.latchAt_congr hu q
      rw [this _ (by simp), l4, l3, frameLatch, bitsLatch, bitsLatch, g2, g1]
      have ls1 : s1.latchAt q = s.latchAt q := State.latchAt_congr (by rw [← hs1]; rfl) q
      by_cases hq : q = csPin s.cfg
      · simp [hq]
      · cases bits.getLast? <;> simp [hq, l2, g1, ls1]
    · simp
    · simp [d.fsel, ← hs1]
    · simp [d.cfg, g1]
    · simp [d.life, ← hs1]
    · simp [d.vol, ← hs1]
    · simp [d.bas, ← hs1]
    · simp [d.onv, ← hs1]
    · simp [d.cur, ← hs1]
    · simp [d.quantum, ← hs1]
    · simp [d.inputs, ← hs1]
    · simp [d.surface, ← hs1]
    · simp [d.draws, ← hs1]

/-! ### Calls -/

/-- A call of a ready context whose actions are all done runs to its return. -/
theorem runCall_ret {i : Instr} {entry : State → State} {as : List Action} {s t : State} (h : Ready s)
    (hd : doAll s.cur as (entry (s.beginCall i)) = some t) :
    runCall i entry (as ++ [.ret]) s = .next (t.finish s.cur .done) := by
  rw [runCall_idle h.idle, h.whole, runWork_doAll hd, runWork_ended (by simp) (perform_ret s.cur t)]

/-- A call whose first actions are all done goes on with the others. -/
theorem runCall_doAll {i : Instr} {entry : State → State} {as bs : List Action} {s t : State} (h : Ready s)
    (hd : doAll s.cur as (entry (s.beginCall i)) = some t) :
    runCall i entry (as ++ bs) s = runWork s.cur bs none t := by
  rw [runCall_idle h.idle, h.whole, runWork_doAll hd]

/-- The record of a ready context when its call begins. -/
theorem Ready.beginCall {s : State} (h : Ready s) (i : Instr) :
    (s.beginCall i).ctx s.cur = { s.ctx s.cur with call := some i, result := .pending }
      ∧ ((s.beginCall i).ctx s.cur).frame = none := by
  refine ⟨State.beginCall_ctx_same s i, ?_⟩
  rw [State.beginCall_ctx_same]
  exact h.noFrame

/-- What a whole frame sent by a direct call leaves and returns (R113). -/
structure FrameCalled (s t : State) (bits : List Bool) : Prop where
  returns : Returns s t (s.ctx s.cur).atRest .done (frameEvents s.cfg s.cur bits)
  latches : ∀ q, t.latchAt q = frameLatch s bits q
  fsel : t.fsel = s.fsel
  control : SameControl s t
  draws : t.draws = s.draws

/-- A frame sent by a ready context with the lock free runs to its end. -/
theorem runFrame_next {i : Instr} {bits : List Bool} {s : State} (h : Ready s) (hl : s.txLock = .free) :
    ∃ t, runFrame i bits s = .next t ∧ FrameCalled s t bits := by
  have hf : (((s.beginCall i).enterFrame s.cur bits).ctx s.cur).frame = some bits := by simp
  obtain ⟨t, ht, k⟩ := doAll_frame s.cur bits _ hf (by simpa using hl)
  simp only [State.enterFrame_cfg, State.beginCall_cfg] at ht
  refine ⟨t.finish s.cur .done, runCall_ret h ht, ?_⟩
  have hc := k.caller
  have ho := k.others
  have htr := k.trace
  constructor
  · constructor
    · rw [State.finish_ctx_same, hc]
      simp [Ctx.atRest, Ctx.returned]
    · intro d hd
      rw [State.finish_ctx_other _ _ hd, ho d hd, State.enterFrame_ctx_other _ _ hd, State.beginCall_ctx_other _ _ hd]
    · simpa using htr
    · simpa using k.cfg
    · simpa using k.cur
    · simpa using k.quantum
    · simpa using k.inputs
  · intro q
    have h1 : (t.finish s.cur .done).latchAt q = t.latchAt q := State.latchAt_congr (by simp) q
    rw [h1, k.latchAt q]
    exact frameLatch_congr (by simp) (by simp) bits q
  · simpa using k.fsel
  · constructor
    · simpa using k.life
    · simpa [hl] using k.txLock
    · simpa using k.vol
    · simpa using k.bas
    · simpa using k.onv
    · simpa using k.surface
  · simpa using k.draws

end Sys2Proof.Machine
end

