-- ==== Sys2Proof/Laws/Configure.lean ====
section
/-! SUPPORT. Laws/Configure.lean: what `configure` and `start` do when nothing comes between their actions (R100, R101,
R140). -/

namespace Sys2Proof.Machine

/-! ### The registers after `configure` -/

/-- The function-select words after `configure(p, d)` (R100). -/
def configuredFsel (s : State) (p : Pin) (d : Direction) : Vector Word 6 :=
  s.fsel.set (fselIndex p).val (updatedField (s.fsel[(fselIndex p).val]) p (code s.cfg d))

/-- The events of `configure(p, d)` by context `c` (R100, R101). -/
def configureEvents (s : State) (c : Nat) (p : Pin) (d : Direction) : List Event :=
  let r := Reg.fsel (fselIndex p)
  let old := s.fsel[(fselIndex p).val]
  if s.cfg.configureSplit then
    [.rd c r old, .wr c r (clearedField old p), .rd c r (clearedField old p),
      .wr c r (updatedField old p (code s.cfg d))]
  else [.rd c r old, .wr c r (updatedField old p (code s.cfg d))]

/-- What `configure(p, d)`, with nothing between its actions, leaves. -/
structure Configured (c : Nat) (p : Pin) (d : Direction) (s t : State) : Prop where
  caller : ∃ v, t.ctx c = { s.ctx c with temp := v }
  others : ∀ e, e ≠ c → t.ctx e = s.ctx e
  trace : t.trace = s.trace ++ configureEvents s c p d
  fsel : t.fsel = configuredFsel s p d
  latch : t.latch = s.latch
  cfg : t.cfg = s.cfg
  life : t.life = s.life
  txLock : t.txLock = s.txLock
  vol : t.vol = s.vol
  bas : t.bas = s.bas
  onv : t.onv = s.onv
  cur : t.cur = s.cur
  quantum : t.quantum = s.quantum
  inputs : t.inputs = s.inputs
  surface : t.surface = s.surface
  draws : t.draws = s.draws

theorem perform_clearField (c : Nat) (p : Pin) (s : State) :
    perform c (.clearField p) s = .did (s.regWrite c (.fsel (fselIndex p)) (clearedField (s.ctx c).temp p)) :=
  State.tryWrite_eq s c _ _ rfl

theorem perform_orField (c : Nat) (p : Pin) (d : Direction) (s : State) :
    perform c (.orField p d) s =
      .did (s.regWrite c (.fsel (fselIndex p)) ((s.ctx c).temp ||| fieldValue p (code s.cfg d))) :=
  State.tryWrite_eq s c _ _ rfl

/-- The two or four actions of `configure` are all done. -/
theorem doAll_configure (c : Nat) (p : Pin) (d : Direction) (s : State) (hf : (s.ctx c).frame = none) :
    ∃ t, doAll c (configureActions s.cfg p d) s = some t ∧ Configured c p d s t := by
  have hr : perform c (.read (.fsel (fselIndex p))) s = .did _ := perform_read c _ s
  generalize h1 : s.regRead c (.fsel (fselIndex p)) = s1 at hr
  have e1 : s1 = (s.emit (.rd c (.fsel (fselIndex p)) (s.fsel[(fselIndex p).val]))).keep c (s.fsel[(fselIndex p).val]) :=
    h1.symm
  have t1 : s1.ctx c = { s.ctx c with temp := s.fsel[(fselIndex p).val] } := by rw [e1]; simp
  have o1 : ∀ e, e ≠ c → s1.ctx e = s.ctx e := fun e he => by rw [e1, State.keep_ctx_other _ _ he]; rfl
  have g1 : s1.cfg = s.cfg := by rw [e1]; rfl
  by_cases hs : s.cfg.configureSplit = true
  · have hw := perform_clearField c p s1
    rw [t1] at hw
    generalize h2 : s1.regWrite c (.fsel (fselIndex p)) (clearedField (s.fsel[(fselIndex p).val]) p) = s2 at hw
    have t2 : s2.ctx c = { s.ctx c with temp := s.fsel[(fselIndex p).val] } := by
      rw [← h2, State.regWrite_ctx_same, t1]; exact Ctx.advance_of_noFrame hf
    have o2 : ∀ e, e ≠ c → s2.ctx e = s.ctx e := fun e he => by
      rw [← h2, State.regWrite_ctx_other _ _ _ he, o1 e he]
    have f2 : s2.fsel[(fselIndex p).val] = clearedField (s.fsel[(fselIndex p).val]) p := by
      simp [← h2, e1]
    have hr2 : perform c (.read (.fsel (fselIndex p))) s2 = .did _ := perform_read c _ s2
    generalize h3 : s2.regRead c (.fsel (fselIndex p)) = s3 at hr2
    have e3 : s3 = (s2.emit (.rd c (.fsel (fselIndex p)) (clearedField (s.fsel[(fselIndex p).val]) p))).keep c
        (clearedField (s.fsel[(fselIndex p).val]) p) := by rw [← f2, ← h3]; rfl
    have t3 : s3.ctx c = { s.ctx c with temp := clearedField (s.fsel[(fselIndex p).val]) p } := by
      rw [e3]; simp [t2]
    have o3 : ∀ e, e ≠ c → s3.ctx e = s.ctx e := fun e he => by
      rw [e3, State.keep_ctx_other _ _ he, State.emit_ctx, o2 e he]
    have g3 : s3.cfg = s.cfg := by rw [e3, ← h2]; simp [g1]
    have hw2 := perform_orField c p d s3
    rw [t3, g3] at hw2
    refine ⟨s3.regWrite c (.fsel (fselIndex p)) (updatedField (s.fsel[(fselIndex p).val]) p (code s.cfg d)), ?_, ?_⟩
    · rw [configureActions, if_pos hs, doAll_cons hr, doAll_cons hw, doAll_cons hr2, doAll_cons hw2]
      rfl
    · constructor
      · exact ⟨_, by rw [State.regWrite_ctx_same, t3]; exact Ctx.advance_of_noFrame hf⟩
      · intro e he
        rw [State.regWrite_ctx_other _ _ _ he, o3 e he]
      · rw [State.regWrite_trace, e3, ← h2, e1]
        simp [configureEvents, hs]
      · rw [State.regWrite_fsel, State.applyWrite_fsel_fsel, e3, ← h2, e1]
        simp [configuredFsel]
      all_goals simp [e3, ← h2, e1]
  · have hw := perform_writeField c p d s1
    rw [t1, g1] at hw
    refine ⟨s1.regWrite c (.fsel (fselIndex p)) (updatedField (s.fsel[(fselIndex p).val]) p (code s.cfg d)), ?_, ?_⟩
    · rw [configureActions, if_neg hs, doAll_cons hr, doAll_cons hw]
      rfl
    · constructor
      · exact ⟨_, by rw [State.regWrite_ctx_same, t1]; exact Ctx.advance_of_noFrame hf⟩
      · intro e he
        rw [State.regWrite_ctx_other _ _ _ he, o1 e he]
      · rw [State.regWrite_trace, e1]
        simp [configureEvents, hs]
      · rw [State.regWrite_fsel, State.applyWrite_fsel_fsel, e1]
        simp [configuredFsel]
      all_goals simp [e1]

/-! ### What the new function-select words say of the pins -/

/-- The pin has the direction's code (R100). -/
theorem configuredFsel_fn_same {s t : State} {p : Pin} {d : Direction} (h : t.fsel = configuredFsel s p d) :
    t.fn p = code s.cfg d := by
  simp [State.fn, h, configuredFsel]

/-- Every other pin's function is as before (R100). -/
theorem configuredFsel_fn_other {s t : State} {p q : Pin} {d : Direction} (h : t.fsel = configuredFsel s p d)
    (hq : q ≠ p) : t.fn q = s.fn q := by
  by_cases hk : fselIndex p = fselIndex q
  · have := fieldOf_updatedField_other (s.fsel[(fselIndex p).val]) (code s.cfg d) hk hq
    simp only [State.fn, h, configuredFsel]
    simp only [hk] at this ⊢
    simpa using this
  · have hv : (fselIndex p).val ≠ (fselIndex q).val := fun e => hk (Fin.ext e)
    simp [State.fn, h, configuredFsel, hv]

/-- The other function-select words are as before (R100). -/
theorem configuredFsel_other {s : State} {p : Pin} {d : Direction} {j : Fin 6} (hj : j ≠ fselIndex p) :
    (configuredFsel s p d)[j.val] = s.fsel[j.val] := by
  have hv : (fselIndex p).val ≠ j.val := fun e => hj (Fin.ext e.symm)
  simp [configuredFsel, hv]

/-- Bits 31:30 of a word are as before (R100). -/
theorem updatedField_top (w : Word) (p : Pin) (c : BitVec 3) :
    (updatedField w p c).extractLsb' 30 2 = w.extractLsb' 30 2 := by
  refine BitVec.eq_of_getLsbD_eq fun j hj => ?_
  have hoff : fselOffset p ≤ 27 := by simp only [fselOffset]; omega
  rw [BitVec.getLsbD_extractLsb', BitVec.getLsbD_extractLsb', updatedField_getLsbD _ _ _ (by omega),
    if_neg (by omega)]

theorem configuredFsel_top (s : State) (p : Pin) (d : Direction) (j : Fin 6) :
    ((configuredFsel s p d)[j.val]).extractLsb' 30 2 = (s.fsel[j.val]).extractLsb' 30 2 := by
  by_cases hj : j = fselIndex p
  · subst hj
    simp [configuredFsel, updatedField_top]
  · rw [configuredFsel_other hj]

/-- The field is clear between the two writes of the split `configure` (R101). -/
@[simp] theorem fieldOf_clearedField (w : Word) (p : Pin) : fieldOf (clearedField w p) p = 0b000#3 := by
  have h : clearedField w p = updatedField w p 0b000#3 := by simp [updatedField, fieldValue]
  rw [h, fieldOf_updatedField_same]

/-! ### `start` (R140) -/

/-- What the six primitive calls of `start`, up to `PinsConfigured`, leave when nothing comes between their actions. -/
structure PinsSet (c : Nat) (s t : State) (es : List Event) : Prop where
  caller : ∃ v, t.ctx c = { s.ctx c with temp := v }
  others : ∀ e, e ≠ c → t.ctx e = s.ctx e
  trace : t.trace = s.trace ++ es
  fn : ∀ p, t.fn p = if p = csPin s.cfg ∨ p = clkPin s.cfg ∨ p = dataPin s.cfg ∨ p = enPin s.cfg
    then s.cfg.codeOutput else s.fn p
  top : ∀ k : Fin 6, (t.fsel[k.val]).extractLsb' 30 2 = (s.fsel[k.val]).extractLsb' 30 2
  latchAt : ∀ p, t.latchAt p = if p = clkPin s.cfg then .low else if p = csPin s.cfg then .high else s.latchAt p
  settles : es.countP isSettle = 0
  locks : ∀ e, Event.acq e ∉ es ∧ Event.rel e ∉ es
  accesses : s.cfg.configureSplit = false → es.countP isRead = 4 ∧ es.countP isWrite = 6
  life : t.life = .pinsConfigured
  cfg : t.cfg = s.cfg
  txLock : t.txLock = s.txLock
  vol : t.vol = s.vol
  bas : t.bas = s.bas
  onv : t.onv = s.onv
  cur : t.cur = s.cur
  quantum : t.quantum = s.quantum
  inputs : t.inputs = s.inputs
  surface : t.surface = s.surface
  draws : t.draws = s.draws

/-- The events of a `configure` are register reads and writes. -/
theorem configureEvents_counts (s : State) (c : Nat) (p : Pin) (d : Direction) :
    (configureEvents s c p d).countP isSettle = 0
      ∧ (∀ e, Event.acq e ∉ configureEvents s c p d ∧ Event.rel e ∉ configureEvents s c p d)
      ∧ (s.cfg.configureSplit = false →
          (configureEvents s c p d).countP isRead = 1 ∧ (configureEvents s c p d).countP isWrite = 1) := by
  unfold configureEvents
  split
  · exact ⟨rfl, fun e => by simp, fun h => by simp_all⟩
  · exact ⟨rfl, fun e => by simp, fun _ => ⟨rfl, rfl⟩⟩

/-- The actions of `start` before the registration. -/
def startPinActions (cfg : Config) : List Action :=
  configureActions cfg (csPin cfg) .output ++ (configureActions cfg (clkPin cfg) .output
    ++ (configureActions cfg (dataPin cfg) .output ++ (configureActions cfg (enPin cfg) .output
      ++ (setLevelActions (csPin cfg) .high ++ (setLevelActions (clkPin cfg) .low ++ [.pinsConfigured])))))

theorem startActions_eq (cfg : Config) : startActions cfg = startPinActions cfg ++ [.register] := by
  simp [startActions, startPinActions]

theorem doAll_startPins (c : Nat) (s : State) (hf : (s.ctx c).frame = none) :
    ∃ t es, doAll c (startPinActions s.cfg) s = some t ∧ PinsSet c s t es := by
  obtain ⟨t1, a1, k1⟩ := doAll_configure c (csPin s.cfg) .output s hf
  obtain ⟨v1, c1⟩ := k1.caller
  have g1 : t1.cfg = s.cfg := k1.cfg
  obtain ⟨t2, a2, k2⟩ := doAll_configure c (clkPin s.cfg) .output t1 (by rw [c1]; exact hf)
  obtain ⟨v2, c2⟩ := k2.caller
  have g2 : t2.cfg = s.cfg := k2.cfg.trans g1
  obtain ⟨t3, a3, k3⟩ := doAll_configure c (dataPin s.cfg) .output t2 (by rw [c2, c1]; exact hf)
  obtain ⟨v3, c3⟩ := k3.caller
  have g3 : t3.cfg = s.cfg := k3.cfg.trans g2
  obtain ⟨t4, a4, k4⟩ := doAll_configure c (enPin s.cfg) .output t3 (by rw [c3, c2, c1]; exact hf)
  obtain ⟨v4, c4⟩ := k4.caller
  have g4 : t4.cfg = s.cfg := k4.cfg.trans g3
  have f4 : (t4.ctx c).frame = none := by rw [c4, c3, c2, c1]; exact hf
  have a5 := doAll_setLevel c (csPin s.cfg) .high t4
  have d5 := drives_setLevel c (csPin s.cfg) .high t4
  have l5 := fun q => State.regWrite_level_latchAt t4 c (csPin s.cfg) q .high
  generalize t4.regWrite c (levelTarget (csPin s.cfg) .high) (levelWord (csPin s.cfg)) = t5 at a5 d5 l5
  have a6 := doAll_setLevel c (clkPin s.cfg) .low t5
  have d6 := drives_setLevel c (clkPin s.cfg) .low t5
  have l6 := fun q => State.regWrite_level_latchAt t5 c (clkPin s.cfg) q .low
  generalize t5.regWrite c (levelTarget (clkPin s.cfg) .low) (levelWord (clkPin s.cfg)) = t6 at a6 d6 l6
  have d := d5.trans d6
  have c6 : t6.ctx c = t4.ctx c := by rw [d.caller, Ctx.advance_iterate_of_noFrame f4]
  have h7 : perform c .pinsConfigured t6 = .did (t6.putLife .pinsConfigured) := rfl
  obtain ⟨e1, n1, m1⟩ := configureEvents_counts s c (csPin s.cfg) .output
  obtain ⟨e2, n2, m2⟩ := configureEvents_counts t1 c (clkPin s.cfg) .output
  obtain ⟨e3, n3, m3⟩ := configureEvents_counts t2 c (dataPin s.cfg) .output
  obtain ⟨e4, n4, m4⟩ := configureEvents_counts t3 c (enPin s.cfg) .output
  refine ⟨t6.putLife .pinsConfigured,
    configureEvents s c (csPin s.cfg) .output ++ (configureEvents t1 c (clkPin s.cfg) .output
      ++ (configureEvents t2 c (dataPin s.cfg) .output ++ (configureEvents t3 c (enPin s.cfg) .output
        ++ [setLevelEvent c (csPin s.cfg) .high, setLevelEvent c (clkPin s.cfg) .low]))), ?_, ?_⟩
  · rw [startPinActions, doAll_append a1]
    rw [g1] at a2; rw [doAll_append a2]
    rw [g2] at a3; rw [doAll_append a3]
    rw [g3] at a4; rw [doAll_append a4, doAll_append a5, doAll_append a6, doAll_cons h7, doAll_nil]
  · constructor
    case caller => exact ⟨v4, by rw [State.putLife_ctx, c6, c4, c3, c2, c1]⟩
    case others =>
      intro e he
      rw [State.putLife_ctx, d.others e he, k4.others e he, k3.others e he, k2.others e he, k1.others e he]
    case trace =>
      rw [State.putLife_trace, d.trace, k4.trace, k3.trace, k2.trace, k1.trace]
      simp only [List.append_assoc]
      rfl
    case fn =>
      intro p
      rw [State.fn_congr (show (t6.putLife .pinsConfigured).fsel = t4.fsel from d.fsel)]
      have o1 : code s.cfg .output = s.cfg.codeOutput := rfl
      have o2 : code t1.cfg .output = s.cfg.codeOutput := by rw [g1]; rfl
      have o3 : code t2.cfg .output = s.cfg.codeOutput := by rw [g2]; rfl
      have o4 : code t3.cfg .output = s.cfg.codeOutput := by rw [g3]; rfl
      by_cases p4 : p = enPin s.cfg
      · rw [p4, configuredFsel_fn_same k4.fsel, o4, if_pos (.inr (.inr (.inr rfl)))]
      · rw [configuredFsel_fn_other k4.fsel p4]
        by_cases p3 : p = dataPin s.cfg
        · rw [p3, configuredFsel_fn_same k3.fsel, o3, if_pos (.inr (.inr (.inl rfl)))]
        · rw [configuredFsel_fn_other k3.fsel p3]
          by_cases p2 : p = clkPin s.cfg
          · rw [p2, configuredFsel_fn_same k2.fsel, o2, if_pos (.inr (.inl rfl))]
          · rw [configuredFsel_fn_other k2.fsel p2]
            by_cases p1 : p = csPin s.cfg
            · rw [p1, configuredFsel_fn_same k1.fsel, o1, if_pos (.inl rfl)]
            · rw [configuredFsel_fn_other k1.fsel p1, if_neg (by rintro (h | h | h | h) <;> contradiction)]
    case top =>
      intro k
      rw [State.putLife_fsel, d.fsel, k4.fsel, configuredFsel_top, k3.fsel, configuredFsel_top, k2.fsel,
        configuredFsel_top, k1.fsel, configuredFsel_top]
    case latchAt =>
      intro p
      have h4 : t4.latch = s.latch := by rw [k4.latch, k3.latch, k2.latch, k1.latch]
      rw [State.latchAt_congr (State.putLife_latch t6 _), l6, l5, State.latchAt_congr h4]
    case settles =>
      rw [List.countP_append, List.countP_append, List.countP_append, List.countP_append, e1, e2, e3, e4]
      rfl
    case locks =>
      intro e
      simp only [List.mem_append, not_or]
      refine ⟨⟨(n1 e).1, (n2 e).1, (n3 e).1, (n4 e).1, ?_⟩, ⟨(n1 e).2, (n2 e).2, (n3 e).2, (n4 e).2, ?_⟩⟩ <;>
        simp [setLevelEvent]
    case accesses =>
      intro hs
      have r1 := m1 hs
      have r2 := m2 (by rw [g1]; exact hs)
      have r3 := m3 (by rw [g2]; exact hs)
      have r4 := m4 (by rw [g3]; exact hs)
      simp only [List.countP_append, r1.1, r2.1, r3.1, r4.1, r1.2, r2.2, r3.2, r4.2]
      exact ⟨rfl, rfl⟩
    case life => rfl
    case cfg => rw [State.putLife_cfg, d.cfg, g4]
    case txLock => rw [State.putLife_txLock, d.txLock, k4.txLock, k3.txLock, k2.txLock, k1.txLock]
    case vol => rw [State.putLife_vol, d.vol, k4.vol, k3.vol, k2.vol, k1.vol]
    case bas => rw [State.putLife_bas, d.bas, k4.bas, k3.bas, k2.bas, k1.bas]
    case onv => rw [State.putLife_onv, d.onv, k4.onv, k3.onv, k2.onv, k1.onv]
    case cur => rw [State.putLife_cur, d.cur, k4.cur, k3.cur, k2.cur, k1.cur]
    case quantum => rw [State.putLife_quantum, d.quantum, k4.quantum, k3.quantum, k2.quantum, k1.quantum]
    case inputs => rw [State.putLife_inputs, d.inputs, k4.inputs, k3.inputs, k2.inputs, k1.inputs]
    case surface => rw [State.putLife_surface, d.surface, k4.surface, k3.surface, k2.surface, k1.surface]
    case draws => rw [State.putLife_draws, d.draws, k4.draws, k3.draws, k2.draws, k1.draws]

end Sys2Proof.Machine
end

