-- ==== Sys2Proof/Laws/Decode.lean ====
section
/-! SUPPORT. Laws/Decode.lean: every operand is read back from its bytes, and bytes that are read as an operand are the bytes
of that operand. -/

namespace Sys2Proof

/-! ### Words and integers -/

@[simp] theorem wordOfBytes_extract (v : Word) :
    wordOfBytes (v.extractLsb' 24 8) (v.extractLsb' 16 8) (v.extractLsb' 8 8) (v.extractLsb' 0 8) = v := by
  refine BitVec.eq_of_getLsbD_eq fun i hi => ?_
  simp only [wordOfBytes, BitVec.getLsbD_append, BitVec.getLsbD_extractLsb']
  rcases Nat.lt_or_ge i 8 with h | h
  · simp [h]
  · rcases Nat.lt_or_ge i 16 with h2 | h2
    · have e : 8 + (i - 8) = i := by omega
      have l : i - 8 < 8 := by omega
      simp [Nat.not_lt.mpr h, l, e]
    · rcases Nat.lt_or_ge i 24 with h3 | h3
      · have e : 16 + (i - 8 - 8) = i := by omega
        have l : i - 8 - 8 < 8 := by omega
        have l2 : ¬ i - 8 < 8 := by omega
        simp [Nat.not_lt.mpr h, l, l2, e]
      · have e : 24 + (i - 8 - 8 - 8) = i := by omega
        have l : i - 8 - 8 - 8 < 8 := by omega
        have l2 : ¬ i - 8 < 8 := by omega
        have l3 : ¬ i - 8 - 8 < 8 := by omega
        simp [Nat.not_lt.mpr h, l, l2, l3, e]

theorem wordBytes_wordOfBytes (b3 b2 b1 b0 : Byte) : wordBytes (wordOfBytes b3 b2 b1 b0) = [b3, b2, b1, b0] := by
  simp only [wordBytes, wordOfBytes, List.cons.injEq, and_true]
  refine ⟨?_, ?_, ?_, ?_⟩ <;> refine BitVec.eq_of_getLsbD_eq fun i hi => ?_ <;>
    simp only [BitVec.getLsbD_append, BitVec.getLsbD_extractLsb', hi]
  · simp [show ¬ 24 + i < 8 by omega, show ¬ 24 + i - 8 < 8 by omega, show ¬ 24 + i - 8 - 8 < 8 by omega,
      show 24 + i - 8 - 8 - 8 = i by omega]
  · simp [show ¬ 16 + i < 8 by omega, show ¬ 16 + i - 8 < 8 by omega, show 16 + i - 8 - 8 = i by omega,
      hi]
  · simp [show ¬ 8 + i < 8 by omega, show 8 + i - 8 = i by omega, hi]
  · simp [hi]

/-- An integer operand is read back from its four bytes. -/
theorem toInt_ofInt_of_fits {n : Int} (h : intFits n = true) : (BitVec.ofInt 32 n).toInt = n := by
  have hn : -2147483648 ≤ n ∧ n ≤ 2147483647 := by simpa [intFits] using h
  rw [BitVec.toInt_ofInt]
  simp only [Int.bmod_def]
  omega

theorem intFits_toInt (v : Word) : intFits v.toInt = true := by
  have h1 := BitVec.le_toInt v
  have h2 := BitVec.toInt_lt (x := v)
  simp only [intFits, decide_eq_true_eq]
  omega

theorem byteFits_toNat (b : Byte) : byteFits b.toNat = true := by
  have := b.isLt
  simpa [byteFits] using this

theorem toNat_ofNat_of_fits {n : Nat} (h : byteFits n = true) : (BitVec.ofNat 8 n).toNat = n := by
  have hn : n < 256 := by simpa [byteFits] using h
  rw [BitVec.toNat_ofNat]
  omega

/-! ### Operands of few values -/

@[simp] theorem boolOfByte_boolByte (b : Bool) : boolOfByte (boolByte b) = some b := by cases b <;> rfl

theorem boolByte_of_boolOfByte {b : Byte} {v : Bool} (h : boolOfByte b = some v) : boolByte v = b := by
  unfold boolOfByte at h
  split at h
  · cases h; simp [boolByte, *]
  · split at h
    · cases h; simp [boolByte, *]
    · cases h

@[simp] theorem boolsOfBytes_map (bits : List Bool) : boolsOfBytes (bits.map boolByte) = some bits := by
  induction bits with
  | nil => rfl
  | cons b rest ih => simp [boolsOfBytes, ih]

theorem map_of_boolsOfBytes {bs : List Byte} {bits : List Bool} (h : boolsOfBytes bs = some bits) :
    bits.map boolByte = bs := by
  induction bs generalizing bits with
  | nil => cases h; rfl
  | cons b rest ih =>
    rw [boolsOfBytes] at h
    split at h
    · cases h
      rename_i v vs h1 h2
      rw [List.map_cons, boolByte_of_boolOfByte h1, ih h2]
    · cases h

@[simp] theorem directionOfByte_directionByte (d : Direction) : directionOfByte (directionByte d) = some d := by
  cases d <;> rfl

theorem directionByte_of_directionOfByte {b : Byte} {d : Direction} (h : directionOfByte b = some d) :
    directionByte d = b := by
  unfold directionOfByte at h
  split at h
  · cases h; simp [directionByte, *]
  · split at h
    · cases h; simp [directionByte, *]
    · cases h

@[simp] theorem levelOfByte_levelByte (l : Level) : levelOfByte (levelByte l) = some l := by cases l <;> rfl

theorem levelByte_of_levelOfByte {b : Byte} {l : Level} (h : levelOfByte b = some l) : levelByte l = b := by
  unfold levelOfByte at h
  split at h
  · cases h; simp [levelByte, *]
  · split at h
    · cases h; simp [levelByte, *]
    · cases h

@[simp] theorem channelOfByte_channelByte (ch : Channel) : channelOfByte (channelByte ch) = some ch := by
  cases ch <;> rfl

theorem channelByte_of_channelOfByte {b : Byte} {ch : Channel} (h : channelOfByte b = some ch) :
    channelByte ch = b := by
  unfold channelOfByte at h
  split at h
  · cases h; simp [channelByte, *]
  · split at h
    · cases h; simp [channelByte, *]
    · split at h
      · cases h; simp [channelByte, *]
      · cases h

/-- A register number is read back from its byte. -/
theorem finOfByte_ofNat {n base : Nat} (i : Fin n) (h : base + n ≤ 256) :
    finOfByte n base (BitVec.ofNat 8 (base + i.val)) = some i := by
  have hi := i.isLt
  have hv : (BitVec.ofNat 8 (base + i.val)).toNat = base + i.val := by rw [BitVec.toNat_ofNat]; omega
  unfold finOfByte
  rw [dif_pos (by rw [hv]; omega)]
  simp only [Option.some.injEq, Fin.ext_iff, hv]
  omega

theorem ofNat_of_finOfByte {n base : Nat} {b : Byte} {i : Fin n} (h : finOfByte n base b = some i) :
    BitVec.ofNat 8 (base + i.val) = b := by
  unfold finOfByte at h
  split at h
  · rename_i hb
    cases h
    rw [show base + (b.toNat - base) = b.toNat from by omega, BitVec.ofNat_toNat, BitVec.setWidth_eq]
  · cases h

/-! ### Calls -/

theorem operand_ok {o : Option Instr} {i : Instr} (h : operand o = .ok i) : o = some i := by
  cases o <;> cases h
  rfl

theorem bare_ok {j i : Instr} {args : List Byte} (h : bare j args = .ok i) : args = [] ∧ j = i := by
  cases args <;> cases h
  exact ⟨rfl, rfl⟩

theorem oneByte_ok {f : Byte → Option Instr} {args : List Byte} {i : Instr} (h : oneByte f args = .ok i) :
    ∃ b, args = [b] ∧ f b = some i := by
  unfold oneByte at h
  split at h
  · exact ⟨_, rfl, operand_ok h⟩
  · cases h

theorem byteWord_ok {f : Byte → Word → Option Instr} {args : List Byte} {i : Instr} (h : byteWord f args = .ok i) :
    ∃ b v, args = b :: wordBytes v ∧ f b v = some i := by
  unfold byteWord at h
  split at h
  · exact ⟨_, _, by rw [wordBytes_wordOfBytes], operand_ok h⟩
  · cases h

theorem wordByte_ok {f : Word → Byte → Option Instr} {args : List Byte} {i : Instr} (h : wordByte f args = .ok i) :
    ∃ v b, args = wordBytes v ++ [b] ∧ f v b = some i := by
  unfold wordByte at h
  split at h
  · exact ⟨_, _, by rw [wordBytes_wordOfBytes]; rfl, operand_ok h⟩
  · cases h

/-- A call begins with a call code. -/
theorem decodeCall_ok {code : Byte} {args : List Byte} {i : Instr} (h : decodeCall code args = .ok i) :
    (0x40 ≤ code.toNat ∧ code.toNat ≤ 0x44) ∨ (0x50 ≤ code.toNat ∧ code.toNat ≤ 0x61) := by
  unfold decodeCall at h
  split at h <;> first | omega | cases h

end Sys2Proof
end

