-- ==== Sys2Proof/Laws/Step.lean ====
section
/-! SUPPORT. Laws/Step.lean: what a step and a call can do, said once: a step is nothing, a call, or a resumption; a call
that answers a next state is its straight-line sequence run from its entry. Invariants of the machine follow action by
action. -/

namespace Sys2Proof.Machine

/-! ### Calls -/

/-- The frame that a call enters at once, if it is a direct transmission (R113, R121). -/
def frameOf : Instr → Option (List Bool)
  | .loadA m => some (bitsMsb (frameWord .A m))
  | .loadB m => some (bitsMsb (frameWord .B m))
  | .loadAB m => some (bitsMsb (frameWord .AB m))
  | .sendFrame bits => some bits
  | .write ch m => (magnitudeOf m).map (frameBits ch)
  | _ => none

/-- What happens at a call itself: a direct transmission enters its frame, a direct acquire stands at `At(0)`. -/
def callEntry (i : Instr) (s : State) : State :=
  match frameOf i with
  | some bits => s.enterFrame s.cur bits
  | none => if i = .lockAcquire then s.await s.cur else s

/-- The lifetime state that a call which answers a next state found (R131, R141, R143). -/
structure Allowed (i : Instr) (s : State) : Prop where
  frame : ∀ bits, frameOf i = some bits → s.life = .operational ∧ program s.cfg i = frameActions s.cfg bits ++ [.ret]
  boundary : isBoundary i = true → s.life = .operational
  start : i = .start → s.startable = true

theorem operational_iff {s : State} : s.operational = true ↔ s.life = .operational := by simp [State.operational]

/-- A call that answers a next state ran its sequence from its entry. -/
theorem exec_next {i : Instr} {s t : State} (h : exec i s = .next t) :
    (s.ctx s.cur).call = none ∧ Allowed i s
      ∧ runWork s.cur (program s.cfg i) s.quantum (callEntry i (s.beginCall i)) = .next t := by
  have plain {work : List Action} (h : runCall i id work s = .next t) (hf : frameOf i = none)
      (hl : i ≠ .lockAcquire) (hw : program s.cfg i = work) (hb : isBoundary i = true → s.life = .operational)
      (hs : i = .start → s.startable = true) :
      (s.ctx s.cur).call = none ∧ Allowed i s
        ∧ runWork s.cur (program s.cfg i) s.quantum (callEntry i (s.beginCall i)) = .next t := by
    obtain ⟨h1, h2⟩ := runCall_next h
    refine ⟨h1, ⟨by simp [hf], hb, hs⟩, ?_⟩
    rw [hw, callEntry, hf]
    simpa [hl] using h2
  have framed {bits : List Bool} (h : runFrame i bits s = .next t) (ho : s.life = .operational)
      (hf : frameOf i = some bits) (hw : program s.cfg i = frameActions s.cfg bits ++ [.ret])
      (hb : isBoundary i = true → s.life = .operational) (hs : i ≠ .start) :
      (s.ctx s.cur).call = none ∧ Allowed i s
        ∧ runWork s.cur (program s.cfg i) s.quantum (callEntry i (s.beginCall i)) = .next t := by
    obtain ⟨h1, h2⟩ := runCall_next h
    refine ⟨h1, ⟨fun b hb => ?_, hb, fun e => absurd e hs⟩, ?_⟩
    · rw [hf] at hb
      cases hb
      exact ⟨ho, hw⟩
    · rw [hw, callEntry, hf]
      exact h2
  cases i with
  | loadA m =>
    simp only [exec, execLoadA] at h
    split at h
    · exact framed h (operational_iff.mp ‹_›) rfl rfl (by simp [isBoundary]) (by simp)
    · cases h
  | loadB m =>
    simp only [exec, execLoadB] at h
    split at h
    · exact framed h (operational_iff.mp ‹_›) rfl rfl (by simp [isBoundary]) (by simp)
    · cases h
  | loadAB m =>
    simp only [exec, execLoadAB] at h
    split at h
    · exact framed h (operational_iff.mp ‹_›) rfl rfl (by simp [isBoundary]) (by simp)
    · cases h
  | fselInput pin =>
    simp only [exec, execFselInput] at h
    split at h
    · exact plain h rfl (by simp) (by simp [program, *]) (by simp [isBoundary]) (by simp)
    · cases h
  | fselOutput pin =>
    simp only [exec, execFselOutput] at h
    split at h
    · exact plain h rfl (by simp) (by simp [program, *]) (by simp [isBoundary]) (by simp)
    · cases h
  | fselRead k => exact plain h rfl (by simp) rfl (by simp [isBoundary]) (by simp)
  | fselWrite k v => exact plain h rfl (by simp) rfl (by simp [isBoundary]) (by simp)
  | setWrite k v => exact plain h rfl (by simp) rfl (by simp [isBoundary]) (by simp)
  | clrWrite k v => exact plain h rfl (by simp) rfl (by simp [isBoundary]) (by simp)
  | setclrRead j => exact plain h rfl (by simp) rfl (by simp [isBoundary]) (by simp)
  | regRead n =>
    simp only [exec, execRegRead] at h
    split at h
    · exact plain h rfl (by simp) (by simp [program, *]) (by simp [isBoundary]) (by simp)
    · cases h
  | regWrite n v =>
    simp only [exec, execRegWrite] at h
    split at h
    · exact plain h rfl (by simp) (by simp [program, *]) (by simp [isBoundary]) (by simp)
    · cases h
  | configure pin d =>
    simp only [exec, execConfigure] at h
    split at h
    · exact plain h rfl (by simp) (by simp [program, *]) (by simp [isBoundary]) (by simp)
    · cases h
  | setLevel pin l =>
    simp only [exec, execSetLevel] at h
    split at h
    · exact plain h rfl (by simp) (by simp [program, *]) (by simp [isBoundary]) (by simp)
    · cases h
  | settle => exact plain h rfl (by simp) rfl (by simp [isBoundary]) (by simp)
  | sendBit v =>
    simp only [exec, execSendBit] at h
    split at h
    · exact plain h rfl (by simp) rfl (by simp [isBoundary]) (by simp)
    · cases h
  | sendFrame bits =>
    simp only [exec, execSendFrame] at h
    split at h
    · exact framed h (operational_iff.mp ‹_›) rfl rfl (by simp [isBoundary]) (by simp)
    · cases h
  | write ch m =>
    simp only [exec, execWrite] at h
    split at h
    · split at h
      · exact framed h (operational_iff.mp ‹_›) (by simp [frameOf, *]) (by simp [program, *])
          (by simp [isBoundary]) (by simp)
      · cases h
    · cases h
  | storeVolume x =>
    simp only [exec, execStoreVolume] at h
    split at h
    · exact plain h rfl (by simp) rfl (fun _ => operational_iff.mp ‹_›) (by simp)
    · cases h
  | storeBass x =>
    simp only [exec, execStoreBass] at h
    split at h
    · exact plain h rfl (by simp) rfl (fun _ => operational_iff.mp ‹_›) (by simp)
    · cases h
  | storeOn x =>
    simp only [exec, execStoreOn] at h
    split at h
    · exact plain h rfl (by simp) rfl (fun _ => operational_iff.mp ‹_›) (by simp)
    · cases h
  | showVolume =>
    simp only [exec, execShowVolume] at h
    split at h
    · exact plain h rfl (by simp) rfl (fun _ => operational_iff.mp ‹_›) (by simp)
    · cases h
  | showBass =>
    simp only [exec, execShowBass] at h
    split at h
    · exact plain h rfl (by simp) rfl (fun _ => operational_iff.mp ‹_›) (by simp)
    · cases h
  | showOn =>
    simp only [exec, execShowOn] at h
    split at h
    · exact plain h rfl (by simp) rfl (fun _ => operational_iff.mp ‹_›) (by simp)
    · cases h
  | start =>
    simp only [exec, execStart] at h
    split at h
    · exact plain h rfl (by simp) rfl (by simp [isBoundary]) (fun _ => ‹_›)
    · cases h
  | stop => exact plain h rfl (by simp) rfl (by simp [isBoundary]) (by simp)
  | lockAcquire =>
    simp only [exec, execLockAcquire] at h
    obtain ⟨h1, h2⟩ := runCall_next h
    exact ⟨h1, ⟨by simp [frameOf], by simp [isBoundary], by simp⟩, h2⟩
  | lockRelease => exact plain h rfl (by simp) rfl (by simp [isBoundary]) (by simp)

/-- A property that the entry of a call, every action and every suspension keep is kept by every call. -/
theorem exec_keeps {P : State → Prop} {i : Instr} {s t : State} (h : exec i s = .next t)
    (hentry : P (callEntry i (s.beginCall i)))
    (hdid : ∀ a u u', P u → perform s.cur a u = .did u' → P u')
    (hended : ∀ a u u', P u → perform s.cur a u = .ended u' → P u')
    (hsuspend : ∀ u work, P u → P (u.suspend s.cur work)) : P t :=
  runWork_keeps hdid hended hsuspend hentry (exec_next h).2.2

/-! ### The beginning of a lifetime -/

/-- What `newLifetime` can do: the mirror at `MIRROR_INIT` for a `start` that the block accepts, nothing else. -/
theorem State.newLifetime_cases (s : State) (i : Instr) :
    (i = .start ∧ s.startable = true ∧ s.newLifetime i = s.initMirror)
      ∨ ((i ≠ .start ∨ s.startable = false) ∧ s.newLifetime i = s) := by
  simp only [State.newLifetime, Bool.and_eq_true]
  split
  · rename_i h
    refine .inl ⟨?_, h.2, rfl⟩
    cases i <;> first | rfl | exact absurd h.1 (by simp [isStart])
  · rename_i h
    refine .inr ⟨?_, rfl⟩
    by_cases hs : s.startable = true
    · left
      rintro rfl
      exact h ⟨rfl, hs⟩
    · exact .inr (by simpa using hs)

theorem State.newLifetime_of_ne (s : State) {i : Instr} (h : i ≠ .start) : s.newLifetime i = s := by
  rcases s.newLifetime_cases i with ⟨hi, _⟩ | ⟨_, e⟩
  · exact absurd hi h
  · exact e

@[simp] theorem State.newLifetime_cfg (s : State) (i : Instr) : (s.newLifetime i).cfg = s.cfg := by
  unfold State.newLifetime; split <;> rfl
@[simp] theorem State.newLifetime_fsel (s : State) (i : Instr) : (s.newLifetime i).fsel = s.fsel := by
  unfold State.newLifetime; split <;> rfl
@[simp] theorem State.newLifetime_latch (s : State) (i : Instr) : (s.newLifetime i).latch = s.latch := by
  unfold State.newLifetime; split <;> rfl
@[simp] theorem State.newLifetime_life (s : State) (i : Instr) : (s.newLifetime i).life = s.life := by
  unfold State.newLifetime; split <;> rfl
@[simp] theorem State.newLifetime_txLock (s : State) (i : Instr) : (s.newLifetime i).txLock = s.txLock := by
  unfold State.newLifetime; split <;> rfl
@[simp] theorem State.newLifetime_ctxs (s : State) (i : Instr) : (s.newLifetime i).ctxs = s.ctxs := by
  unfold State.newLifetime; split <;> rfl
@[simp] theorem State.newLifetime_trace (s : State) (i : Instr) : (s.newLifetime i).trace = s.trace := by
  unfold State.newLifetime; split <;> rfl
@[simp] theorem State.newLifetime_cur (s : State) (i : Instr) : (s.newLifetime i).cur = s.cur := by
  unfold State.newLifetime; split <;> rfl
@[simp] theorem State.newLifetime_quantum (s : State) (i : Instr) : (s.newLifetime i).quantum = s.quantum := by
  unfold State.newLifetime; split <;> rfl
@[simp] theorem State.newLifetime_inputs (s : State) (i : Instr) : (s.newLifetime i).inputs = s.inputs := by
  unfold State.newLifetime; split <;> rfl
@[simp] theorem State.newLifetime_surface (s : State) (i : Instr) : (s.newLifetime i).surface = s.surface := by
  unfold State.newLifetime; split <;> rfl
@[simp] theorem State.newLifetime_draws (s : State) (i : Instr) : (s.newLifetime i).draws = s.draws := by
  unfold State.newLifetime; split <;> rfl
@[simp] theorem State.newLifetime_ctx (s : State) (i : Instr) (d : Nat) : (s.newLifetime i).ctx d = s.ctx d := by
  unfold State.newLifetime; split <;> rfl

/-- A register access begins no lifetime. -/
theorem busReadInstr_ne_start (r : Reg) : busReadInstr r ≠ .start := by cases r <;> simp [busReadInstr]

theorem busWriteInstr_ne_start (v : Word) (r : Reg) : busWriteInstr v r ≠ .start := by cases r <;> simp [busWriteInstr]

/-! ### Steps -/

/-- A step that answers a next state has no input and does nothing, performs the operation of a packet or a bus access
in the lifetime it finds or begins, or resumes a call; the operation is that of `State.acting`. -/
theorem step_next {s t : State} (h : step s = .next t) :
    (t = s ∧ s.acting = none)
      ∨ (∃ c q rest i, s.acting = some i ∧ exec i ((s.taking c q rest).newLifetime i) = .next t)
      ∨ (∃ c q rest, s.inputs = .resume c q :: rest ∧ s.acting = (s.ctx c).call ∧
          runWork c (s.ctx c).work q (s.taking c q rest) = .next t) := by
  simp only [step, takeInput] at h
  split at h
  · rename_i hin
    cases h
    exact .inl ⟨rfl, by simp [State.acting, hin]⟩
  · rename_i c packet q rest hin
    simp only [runPacket] at h
    split at h
    · rename_i i hd
      exact .inr (.inl ⟨c, q, rest, i, by simp [State.acting, hin, hd], h⟩)
    · cases h
  · rename_i c q rest hin
    exact .inr (.inr ⟨c, q, rest, hin, by simp [State.acting, hin], h⟩)
  · rename_i c addr n rest hin
    simp only [runBusRead] at h
    split at h
    · rename_i r hr
      refine .inr (.inl ⟨c, none, rest, busReadInstr r, ?_, ?_⟩)
      · simp only [State.acting, hin]
        exact congrArg (Option.map busReadInstr) hr
      · rw [State.newLifetime_of_ne _ (busReadInstr_ne_start r)]
        exact h
    · cases h
  · rename_i c addr n v rest hin
    simp only [runBusWrite] at h
    split at h
    · rename_i r hr
      refine .inr (.inl ⟨c, none, rest, busWriteInstr v r, ?_, ?_⟩)
      · simp only [State.acting, hin]
        exact congrArg (Option.map (busWriteInstr v)) hr
      · rw [State.newLifetime_of_ne _ (busWriteInstr_ne_start v r)]
        exact h
    · cases h

@[simp] theorem callEntry_cfg (i : Instr) (s : State) : (callEntry i s).cfg = s.cfg := by
  unfold callEntry; split <;> [rfl; (split <;> rfl)]
@[simp] theorem callEntry_fsel (i : Instr) (s : State) : (callEntry i s).fsel = s.fsel := by
  unfold callEntry; split <;> [rfl; (split <;> rfl)]
@[simp] theorem callEntry_latch (i : Instr) (s : State) : (callEntry i s).latch = s.latch := by
  unfold callEntry; split <;> [rfl; (split <;> rfl)]
@[simp] theorem callEntry_life (i : Instr) (s : State) : (callEntry i s).life = s.life := by
  unfold callEntry; split <;> [rfl; (split <;> rfl)]
@[simp] theorem callEntry_txLock (i : Instr) (s : State) : (callEntry i s).txLock = s.txLock := by
  unfold callEntry; split <;> [rfl; (split <;> rfl)]
@[simp] theorem callEntry_vol (i : Instr) (s : State) : (callEntry i s).vol = s.vol := by
  unfold callEntry; split <;> [rfl; (split <;> rfl)]
@[simp] theorem callEntry_bas (i : Instr) (s : State) : (callEntry i s).bas = s.bas := by
  unfold callEntry; split <;> [rfl; (split <;> rfl)]
@[simp] theorem callEntry_onv (i : Instr) (s : State) : (callEntry i s).onv = s.onv := by
  unfold callEntry; split <;> [rfl; (split <;> rfl)]
@[simp] theorem callEntry_trace (i : Instr) (s : State) : (callEntry i s).trace = s.trace := by
  unfold callEntry; split <;> [rfl; (split <;> rfl)]
@[simp] theorem callEntry_cur (i : Instr) (s : State) : (callEntry i s).cur = s.cur := by
  unfold callEntry; split <;> [rfl; (split <;> rfl)]
@[simp] theorem callEntry_quantum (i : Instr) (s : State) : (callEntry i s).quantum = s.quantum := by
  unfold callEntry; split <;> [rfl; (split <;> rfl)]
@[simp] theorem callEntry_inputs (i : Instr) (s : State) : (callEntry i s).inputs = s.inputs := by
  unfold callEntry; split <;> [rfl; (split <;> rfl)]
@[simp] theorem callEntry_surface (i : Instr) (s : State) : (callEntry i s).surface = s.surface := by
  unfold callEntry; split <;> [rfl; (split <;> rfl)]
@[simp] theorem callEntry_draws (i : Instr) (s : State) : (callEntry i s).draws = s.draws := by
  unfold callEntry; split <;> [rfl; (split <;> rfl)]

theorem callEntry_ctx_other (i : Instr) (s : State) {d : Nat} (h : d ≠ s.cur) : (callEntry i s).ctx d = s.ctx d := by
  unfold callEntry
  split
  · exact State.enterFrame_ctx_other s _ h
  · split
    · exact State.await_ctx_other s h
    · rfl

theorem callEntry_wf {s : State} (h : s.ctxs.wf = true) (i : Instr) : (callEntry i s).ctxs.wf = true := by
  unfold callEntry
  split
  · exact State.mapCtx_wf h _ _
  · split
    · exact State.mapCtx_wf h _ _
    · exact h

/-! ### The canonical form of the contexts -/

theorem runWork_wf {c : Nat} {work : List Action} {q : Option Nat} {s t : State} (hw : s.ctxs.wf = true)
    (h : runWork c work q s = .next t) : t.ctxs.wf = true :=
  runWork_keeps (P := fun u => u.ctxs.wf = true) (fun _ _ _ hu hp => perform_wf hu (.inl hp))
    (fun _ _ _ hu hp => perform_wf hu (.inr hp)) (fun _ _ hu => State.mapCtx_wf hu _ _) hw h

/-- Every call keeps the canonical form. -/
theorem exec_wf {i : Instr} {s t : State} (hw : s.ctxs.wf = true) (h : exec i s = .next t) : t.ctxs.wf = true :=
  runWork_wf (callEntry_wf (State.mapCtx_wf hw _ _) i) (exec_next h).2.2

/-- Every step keeps the canonical form: equal machines stay equal data. -/
theorem step_wf {s t : State} (hw : s.ctxs.wf = true) (h : step s = .next t) : t.ctxs.wf = true := by
  rcases step_next h with ⟨rfl, _⟩ | ⟨c, q, rest, i, _, he⟩ | ⟨c, q, rest, _, _, hr⟩
  · exact hw
  · exact exec_wf (s := (s.taking c q rest).newLifetime i) (by simpa using hw) he
  · exact runWork_wf (s := s.taking c q rest) (by simpa using hw) hr

theorem reset_wf : State.reset.ctxs.wf = true := rfl

/-! ### Runs -/

/-- What every step keeps, every run keeps: an invariant of the step is one of all reachable states. -/
theorem run_keeps {M : Host.Core} {P : M.State → Prop} (hstep : ∀ s t, P s → M.step s = .next t → P t) :
    ∀ (k : Nat) {s t : M.State}, P s → M.run k s = .next t → P t := by
  intro k
  induction k with
  | zero =>
    intro s t hs h
    unfold Host.Core.run at h
    cases h
    exact hs
  | succ k ih =>
    intro s t hs h
    unfold Host.Core.run at h
    split at h
    · exact ih (hstep _ _ hs ‹_›) h
    · cases h
    · cases h

end Sys2Proof.Machine
end

