-- ==== Sys2Proof/Laws/Observe.lean ====
section
/-! SUPPORT. Laws/Observe.lean: how traces are put together: the line trace, the receiver and the account of the registers
over two stretches of events, and what replaying an event touches (R33, R34, R59, R117). -/

namespace Sys2Proof.Machine

/-! ### Replaying events -/

@[simp] theorem State.replay_cfg (s : State) (e : Event) : (s.replay e).cfg = s.cfg := by
  cases e <;> simp [State.replay]

@[simp] theorem State.replay_wr_fsel (s : State) (c : Nat) (k : Fin 6) (v : Word) :
    (s.replay (.wr c (.fsel k) v)).fsel = s.fsel.set k.val v := rfl

/-- What an event leaves of the registers depends on the registers before it. -/
theorem State.replay_congr {s t : State} (hf : t.fsel = s.fsel) (hl : t.latch = s.latch) (e : Event) :
    (t.replay e).fsel = (s.replay e).fsel ∧ (t.replay e).latch = (s.replay e).latch := by
  cases e with
  | wr c r v => cases r <;> simp [State.replay, State.applyWrite, hf, hl]
  | _ => exact ⟨hf, hl⟩

@[simp] theorem State.replayAll_nil (s : State) : s.replayAll [] = s := rfl

@[simp] theorem State.replayAll_cons (s : State) (e : Event) (es : List Event) :
    s.replayAll (e :: es) = (s.replay e).replayAll es := rfl

theorem State.replayAll_append (s : State) (es fs : List Event) :
    s.replayAll (es ++ fs) = (s.replayAll es).replayAll fs := by simp [State.replayAll, List.foldl_append]

@[simp] theorem State.replayAll_cfg (s : State) (es : List Event) : (s.replayAll es).cfg = s.cfg := by
  induction es generalizing s with
  | nil => rfl
  | cons e rest ih => rw [State.replayAll_cons, ih, State.replay_cfg]

theorem State.replayAll_congr {s t : State} (hf : t.fsel = s.fsel) (hl : t.latch = s.latch) (es : List Event) :
    (t.replayAll es).fsel = (s.replayAll es).fsel ∧ (t.replayAll es).latch = (s.replayAll es).latch := by
  induction es generalizing s t with
  | nil => exact ⟨hf, hl⟩
  | cons e rest ih => exact ih (State.replay_congr hf hl e).1 (State.replay_congr hf hl e).2

/-! ### The account of the registers (R59) -/

theorem Consistent.congr {s t : State} (hf : t.fsel = s.fsel) (hl : t.latch = s.latch) {es : List Event}
    (h : Consistent s es) : Consistent t es := by
  induction es generalizing s t with
  | nil => trivial
  | cons e rest ih =>
    obtain ⟨h1, h2⟩ := h
    refine ⟨?_, ih (State.replay_congr hf hl e).1 (State.replay_congr hf hl e).2 h2⟩
    split
    · simpa [hf] using h1
    · trivial

theorem Consistent.append {s : State} {es fs : List Event} (h : Consistent s es)
    (k : Consistent (s.replayAll es) fs) : Consistent s (es ++ fs) := by
  induction es generalizing s with
  | nil => exact k
  | cons e rest ih => exact ⟨h.1, ih h.2 k⟩

/-! ### The line trace (R34) and the receiver (R117) -/

theorem lineTrace_append (s : State) (es fs : List Event) :
    lineTrace s (es ++ fs) = lineTrace s es ++ lineTrace (s.replayAll es) fs := by
  induction es generalizing s with
  | nil => rfl
  | cons e rest ih => rw [List.cons_append, lineTrace, ih]; rfl

/-- The lines depend on the parameters and the registers. -/
theorem State.lines_congr {s t : State} (hc : t.cfg = s.cfg) (hf : t.fsel = s.fsel) (hl : t.latch = s.latch) :
    t.lines = s.lines := by
  simp only [State.lines, hc, State.line_congr hc hf hl]

@[simp] theorem lineTrace_length (s : State) (es : List Event) : (lineTrace s es).length = es.length := by
  induction es generalizing s with
  | nil => rfl
  | cons e rest ih => simp [lineTrace, ih]

/-- The lines at the end of a stretch of events. -/
theorem lineTrace_getLastD (s : State) (es : List Event) :
    (lineTrace s es).getLastD s.lines = (s.replayAll es).lines := by
  induction es generalizing s with
  | nil => rfl
  | cons e rest ih => rw [lineTrace, List.getLastD_cons, ih, State.replayAll_cons]

/-- A line the block drives has the level it drives, at every position. -/
@[simp] theorem Line.levelAt_driven (n : Nat) (p : Pin) (l : Level) : (Line.driven l).levelAt n p = l := rfl

/-- The level on the line of an output pin is its latch, at every position (R27). -/
theorem State.levelAt_of_output {s : State} {p : Pin} (h : s.dir p = .output) (n : Nat) (q : Pin) :
    (s.line p).levelAt n q = s.latchAt p := by simp [State.line, h]

theorem levelTrace_append (cfg : Config) (n : Nat) (xs ys : List Lines) :
    levelTrace cfg n (xs ++ ys) = levelTrace cfg n xs ++ levelTrace cfg (n + xs.length) ys := by
  induction xs generalizing n with
  | nil => rfl
  | cons l rest ih =>
    rw [List.cons_append, levelTrace, ih, levelTrace, List.cons_append, List.length_cons]
    congr 3
    omega

/-- The levels at the end of a stretch. -/
theorem levelTrace_getLastD (cfg : Config) (n : Nat) (l : Lines) (xs : List Lines) :
    (levelTrace cfg (n + 1) xs).getLastD (l.levelsAt cfg n) = (xs.getLastD l).levelsAt cfg (n + xs.length) := by
  induction xs generalizing n l with
  | nil => rfl
  | cons m rest ih =>
    rw [levelTrace, List.getLastD_cons, ih, List.getLastD_cons, List.length_cons]
    congr 1
    omega

theorem Receiver.watch_append (x : Receiver) (l : Levels) (xs ys : List Levels) :
    x.watch l (xs ++ ys) = (x.watch l xs).watch (xs.getLastD l) ys := by
  induction xs generalizing x l with
  | nil => rfl
  | cons a rest ih =>
    rw [List.cons_append, Receiver.watch, ih, Receiver.watch, List.getLastD_cons]

/-- The line trace depends on the parameters and the registers. -/
theorem lineTrace_congr {s t : State} (hc : t.cfg = s.cfg) (hf : t.fsel = s.fsel) (hl : t.latch = s.latch)
    (es : List Event) : lineTrace t es = lineTrace s es := by
  induction es generalizing s t with
  | nil => rfl
  | cons e rest ih =>
    have hr := State.replay_congr hf hl e
    have hrc : (t.replay e).cfg = (s.replay e).cfg := by rw [State.replay_cfg, State.replay_cfg, hc]
    rw [lineTrace, lineTrace, State.lines_congr hrc hr.1 hr.2, ih hrc hr.1 hr.2]

/-- What a receiver sees depends on the parameters, the registers and the position. -/
theorem Receiver.over_congr {s t : State} (hc : t.cfg = s.cfg) (hf : t.fsel = s.fsel) (hl : t.latch = s.latch)
    (hn : t.trace.length = s.trace.length) (x : Receiver) (es : List Event) : x.over t es = x.over s es := by
  rw [Receiver.over, Receiver.over, State.levels, State.levels, State.lines_congr hc hf hl, hc, hn,
    lineTrace_congr hc hf hl]

/-- The receiver over two stretches of events: what it has seen goes on over the second, from any state `t` with the
parameters, registers and trace that the first leaves. -/
theorem Receiver.over_append {s t : State} {es : List Event} (hc : t.cfg = s.cfg)
    (hf : t.fsel = (s.replayAll es).fsel) (hl : t.latch = (s.replayAll es).latch) (ht : t.trace = s.trace ++ es)
    (x : Receiver) (fs : List Event) : x.over s (es ++ fs) = (x.over s es).over t fs := by
  have hcr : t.cfg = (s.replayAll es).cfg := by rw [State.replayAll_cfg, hc]
  have hg := levelTrace_getLastD s.cfg s.trace.length s.lines (lineTrace s es)
  rw [lineTrace_getLastD, lineTrace_length] at hg
  simp only [Receiver.over, State.levels]
  rw [lineTrace_append, levelTrace_append, Receiver.watch_append, hg, lineTrace_length, hc, ht, List.length_append,
    State.lines_congr hcr hf hl, lineTrace_congr hcr hf hl, Nat.add_right_comm]

/-- An event that changes no level is not seen. -/
theorem Receiver.observe_same (x : Receiver) (l : Levels) : x.observe l l = x := by
  have r : ∀ a : Level, isRising a a = false := by intro a; cases a <;> rfl
  have f : ∀ a : Level, isFalling a a = false := by intro a; cases a <;> rfl
  simp [Receiver.observe, Receiver.onFrameStart, Receiver.onClock, Receiver.onFrameEnd, r, f]

/-- The receiver over one event. -/
theorem Receiver.over_one (x : Receiver) (s : State) (e : Event) :
    x.over s [e] = x.observe s.levels ((s.replay e).lines.levelsAt s.cfg (s.trace.length + 1)) := rfl

end Sys2Proof.Machine
end

