-- ==== Sys2Proof/Laws/PerInstr.lean ====
section
/-! SUPPORT. Laws/PerInstr.lean: facts about every operation as syntax, one lemma per constructor of `Instr`. -/

namespace Sys2Proof.Laws

/-! ### A packet says which row it is: its first byte is the row's, whatever the operands -/

namespace PacketHead

/-- The bits that every packet of an operation's row starts with: the frame command (its four bits), the function code
in its byte, or the row's call code (R72, R79; the call codes are the model's, notes/assumptions/8.md). -/
def Statement (i : Instr) : Prop :=
  ∃ b rest, encode i = b :: rest ∧
    match i with
    | .loadA _ => b.extractLsb' 4 4 = 0b1001#4
    | .loadB _ => b.extractLsb' 4 4 = 0b1010#4
    | .loadAB _ => b.extractLsb' 4 4 = 0b1111#4
    | .fselInput _ => b = 0x00#8
    | .fselOutput _ => b = 0x01#8
    | .fselRead _ => b = 0x40#8
    | .fselWrite _ _ => b = 0x41#8
    | .setWrite _ _ => b = 0x42#8
    | .clrWrite _ _ => b = 0x43#8
    | .setclrRead _ => b = 0x44#8
    | .regRead _ => b = 0x50#8
    | .regWrite _ _ => b = 0x51#8
    | .configure _ _ => b = 0x52#8
    | .setLevel _ _ => b = 0x53#8
    | .settle => b = 0x54#8
    | .sendBit _ => b = 0x55#8
    | .sendFrame _ => b = 0x56#8
    | .write _ _ => b = 0x57#8
    | .storeVolume _ => b = 0x58#8
    | .storeBass _ => b = 0x59#8
    | .storeOn _ => b = 0x5A#8
    | .showVolume => b = 0x5B#8
    | .showBass => b = 0x5C#8
    | .showOn => b = 0x5D#8
    | .start => b = 0x5E#8
    | .stop => b = 0x5F#8
    | .lockAcquire => b = 0x60#8
    | .lockRelease => b = 0x61#8

theorem loadA (m : BitVec 10) : Statement (.loadA m) := by
  refine ⟨_, _, rfl, ?_⟩
  revert m
  decide +kernel

theorem loadB (m : BitVec 10) : Statement (.loadB m) := by
  refine ⟨_, _, rfl, ?_⟩
  revert m
  decide +kernel

theorem loadAB (m : BitVec 10) : Statement (.loadAB m) := by
  refine ⟨_, _, rfl, ?_⟩
  revert m
  decide +kernel

theorem fselInput (pin : Nat) : Statement (.fselInput pin) := ⟨_, _, rfl, rfl⟩

theorem fselOutput (pin : Nat) : Statement (.fselOutput pin) := ⟨_, _, rfl, rfl⟩

theorem fselRead (i : Fin 6) : Statement (.fselRead i) := ⟨_, _, rfl, rfl⟩

theorem fselWrite (i : Fin 6) (v : Word) : Statement (.fselWrite i v) := ⟨_, _, rfl, rfl⟩

theorem setWrite (k : Fin 2) (v : Word) : Statement (.setWrite k v) := ⟨_, _, rfl, rfl⟩

theorem clrWrite (k : Fin 2) (v : Word) : Statement (.clrWrite k v) := ⟨_, _, rfl, rfl⟩

theorem setclrRead (j : Fin 4) : Statement (.setclrRead j) := ⟨_, _, rfl, rfl⟩

theorem regRead (i : Nat) : Statement (.regRead i) := ⟨_, _, rfl, rfl⟩

theorem regWrite (i : Nat) (v : Word) : Statement (.regWrite i v) := ⟨_, _, rfl, rfl⟩

theorem configure (pin : Int) (d : Direction) : Statement (.configure pin d) := ⟨_, _, rfl, rfl⟩

theorem setLevel (pin : Int) (l : Level) : Statement (.setLevel pin l) := ⟨_, _, rfl, rfl⟩

theorem settle : Statement .settle := ⟨_, _, rfl, rfl⟩

theorem sendBit (v : Bool) : Statement (.sendBit v) := ⟨_, _, rfl, rfl⟩

theorem sendFrame (bits : List Bool) : Statement (.sendFrame bits) := ⟨_, _, rfl, rfl⟩

theorem write (ch : Channel) (m : Int) : Statement (.write ch m) := ⟨_, _, rfl, rfl⟩

theorem storeVolume (t : Text) : Statement (.storeVolume t) := ⟨_, _, rfl, rfl⟩

theorem storeBass (t : Text) : Statement (.storeBass t) := ⟨_, _, rfl, rfl⟩

theorem storeOn (t : Text) : Statement (.storeOn t) := ⟨_, _, rfl, rfl⟩

theorem showVolume : Statement .showVolume := ⟨_, _, rfl, rfl⟩

theorem showBass : Statement .showBass := ⟨_, _, rfl, rfl⟩

theorem showOn : Statement .showOn := ⟨_, _, rfl, rfl⟩

theorem start : Statement .start := ⟨_, _, rfl, rfl⟩

theorem stop : Statement .stop := ⟨_, _, rfl, rfl⟩

theorem lockAcquire : Statement .lockAcquire := ⟨_, _, rfl, rfl⟩

theorem lockRelease : Statement .lockRelease := ⟨_, _, rfl, rfl⟩

end PacketHead

end Sys2Proof.Laws
end

