-- ==== Sys2Proof/Tests/Slice0.lean ====
section
/-! SUPPORT. Tests/Slice0.lean: the model's own tests: which terms are no packet, a packet of every row written out by
hand, one-step tests from spec/95_test_vectors.md, and for every statement with hypotheses a state and operands that
meet them. -/

namespace Sys2Proof.Tests

open Sys2Proof.Machine

/-! ### Ill-formed terms -/

theorem test_illFormed_fselInput : (Instr.fselInput 256).wellFormed = false := by decide
theorem test_illFormed_fselOutput : (Instr.fselOutput 256).wellFormed = false := by decide
theorem test_illFormed_regRead : (Instr.regRead 256).wellFormed = false := by decide
theorem test_illFormed_regWrite : (Instr.regWrite 256 0).wellFormed = false := by decide
theorem test_illFormed_configure_high : (Instr.configure 2147483648 .input).wellFormed = false := by decide
theorem test_illFormed_configure_low : (Instr.configure (-2147483649) .output).wellFormed = false := by decide
theorem test_illFormed_setLevel : (Instr.setLevel 2147483648 .low).wellFormed = false := by decide
theorem test_illFormed_write : (Instr.write .AB (-2147483649)).wellFormed = false := by decide
theorem test_wellFormed_bounds : (Instr.regRead 255).wellFormed = true
    ∧ (Instr.configure 2147483647 .input).wellFormed = true
    ∧ (Instr.write .A (-2147483648)).wellFormed = true := by decide

/-! ### A packet of every row -/

/-- What a packet decodes to. -/
def decoded (packet : List Byte) : Option Instr :=
  match decode packet with
  | .ok i => some i
  | .error _ => none

/-- Why a packet is no call. -/
def rejected (packet : List Byte) : Option DecodeError :=
  match decode packet with
  | .ok _ => none
  | .error e => some e

/-- F5: `1001 1000000000 00`. -/
theorem test_decode_loadA : decodeTableWord 16 0b1001100000000000 = some (.loadA 512) := by decide
/-- F15: `1010 1100000000 00`. -/
theorem test_decode_loadB : decodeTableWord 16 0b1010110000000000 = some (.loadB 768) := by decide
/-- F20: `1111 1111111111 00`. -/
theorem test_decode_loadAB : decodeTableWord 16 0b1111111111111100 = some (.loadAB 1023) := by decide
/-- F8: `1001 0101010101 00`, the bytes in the order sent. -/
theorem test_decode_loadA_bytes : decoded [0b10010101#8, 0b01010100#8] = some (.loadA 341) := by decide
/-- R72: `000`. -/
theorem test_decode_fselInput : decodeTableWord 8 0b000 = some (.fselInput 0) := by decide
/-- R72: `001`. -/
theorem test_decode_fselOutput : decodeTableWord 8 0b001 = some (.fselOutput 0) := by decide
theorem test_decode_fselOutput_pin : decoded [0b00000001#8, 25#8] = some (.fselOutput 25) := by decide
/-- The packets from here to `test_decode_lockRelease` are the model's own (notes/assumptions/8.md). -/
theorem test_decode_fselRead : decoded [0x40#8, 5#8] = some (.fselRead 5) := by decide
theorem test_decode_fselWrite :
    decoded [0x41#8, 1#8, 0x00#8, 0x00#8, 0x00#8, 0x09#8] = some (.fselWrite 1 0x00000009) := by decide
theorem test_decode_setWrite :
    decoded [0x42#8, 1#8, 0x08#8, 0x00#8, 0x00#8, 0x00#8] = some (.setWrite 1 0x08000000) := by decide
theorem test_decode_clrWrite :
    decoded [0x43#8, 0#8, 0x00#8, 0x00#8, 0x08#8, 0x00#8] = some (.clrWrite 0 0x00000800) := by decide
theorem test_decode_setclrRead : decoded [0x44#8, 9#8] = some (.setclrRead 3) := by decide
theorem test_decode_regRead : decoded [0x50#8, 10#8] = some (.regRead 10) := by decide
theorem test_decode_regWrite :
    decoded [0x51#8, 6#8, 0x12#8, 0x34#8, 0x56#8, 0x78#8] = some (.regWrite 6 0x12345678) := by decide
theorem test_decode_configure :
    decoded [0x52#8, 0xFF#8, 0xFF#8, 0xFF#8, 0xFF#8, 1#8] = some (.configure (-1) .output) := by decide
theorem test_decode_setLevel :
    decoded [0x53#8, 0#8, 0#8, 0#8, 59#8, 1#8] = some (.setLevel 59 .high) := by decide
theorem test_decode_settle : decoded [0x54#8] = some .settle := by decide
theorem test_decode_sendBit : decoded [0x55#8, 1#8] = some (.sendBit true) := by decide
theorem test_decode_sendFrame : decoded [0x56#8, 1#8, 0#8] = some (.sendFrame [true, false]) := by decide
theorem test_decode_write :
    decoded [0x57#8, 2#8, 0#8, 0#8, 4#8, 0#8] = some (.write .AB 1024) := by decide
theorem test_decode_storeVolume :
    decoded [0x58#8, 0x35#8, 0x31#8, 0x32#8] = some (.storeVolume (Text.ofString "512")) := by decide
theorem test_decode_storeBass : decoded [0x59#8, 0x30#8] = some (.storeBass (Text.ofString "0")) := by decide
theorem test_decode_storeOn : decoded [0x5A#8] = some (.storeOn []) := by decide
theorem test_decode_showVolume : decoded [0x5B#8] = some .showVolume := by decide
theorem test_decode_showBass : decoded [0x5C#8] = some .showBass := by decide
theorem test_decode_showOn : decoded [0x5D#8] = some .showOn := by decide
theorem test_decode_start : decoded [0x5E#8] = some .start := by decide
theorem test_decode_stop : decoded [0x5F#8] = some .stop := by decide
theorem test_decode_lockAcquire : decoded [0x60#8] = some .lockAcquire := by decide
theorem test_decode_lockRelease : decoded [0x61#8] = some .lockRelease := by decide

/-- X6: the padding of `0x9801` is not `00`. -/
theorem test_reject_padding : rejected [0x98#8, 0x01#8] = some .framePadding := by decide
/-- X8: command 11 is not a load command. -/
theorem test_reject_command : rejected [0xB5#8, 0x54#8] = some (.unknownCall 0xB5) := by decide
/-- R72: `010` is reserved. -/
theorem test_reject_code : rejected [0x02#8, 7#8] = some .reservedCode := by decide
theorem test_reject_empty : rejected [] = some .empty := by decide
theorem test_reject_length : rejected [0x54#8, 0#8] = some .badLength := by decide
theorem test_reject_operand : rejected [0x40#8, 6#8] = some .badOperand := by decide

/-! ### One step from the spec's vectors -/

/-- The next state, if there is one. -/
def nextOf : Host.Outcome State Fault Refusal → Option State
  | .next t => some t
  | _ => none

/-- The refusal, if there is one. -/
def refusalOf : Host.Outcome State Fault Refusal → Option Refusal
  | .refused r => some r
  | _ => none

/-- What a view shows of the state after an operation. -/
def after {α : Type} (i : Instr) (s : State) (view : State → α) : Option α := (nextOf (exec i s)).map view

/-- What the caller, context 0, got back. -/
def result0 (t : State) : Result := (t.ctx 0).result

/-- The end state of program P1a with both unwritten latches low, and the mirror of the vectors of part 2.6. -/
def started : State :=
  { State.reset with
    life := .operational, fsel := #v[0x00200000, 0x00000009, 0x00008000, 0, 0, 0], latch := 0x80#60,
    vol := 100, bas := 200 }

/-- A reset state with one function-select word. -/
def withFsel (k : Fin 6) (w : Word) : State := { State.reset with fsel := State.reset.fsel.set k.val w }

/-- `started` with the lock held by context 1. -/
def locked : State := { started with txLock := .held 1 }

/-- A1. -/
theorem test_fselRead : after (.fselRead 1) (withFsel 1 9) result0 = some (.word 9) := by decide
/-- A2: bits 31:30 are returned as stored. -/
theorem test_regRead : after (.regRead 3) (withFsel 3 0xDEADBEEF) result0 = some (.word 0xDEADBEEF) := by decide
/-- A16. -/
theorem test_regRead_badIndex : refusalOf (exec (.regRead 10) State.reset) = some .badAccess := by decide
/-- A5. -/
theorem test_fselWrite : after (.fselWrite 1 9) State.reset (fun t => (t.fsel, t.fn 10, t.fn 11, t.fn 12))
    = some (#v[0, 9, 0, 0, 0, 0], 1, 1, 0) := by decide
/-- A6: pin 7 becomes an input; its latch stays. -/
theorem test_fselWrite_line : after (.fselWrite 0 0) started (fun t => (t.line 7, t.latchAt 7))
    = some (.undriven, .high) := by decide
/-- A8: a reserved code. -/
theorem test_regWrite_reservedCode : after (.regWrite 0 2) State.reset (fun t => (t.fn 0, t.line 0))
    = some (2, .unspecified) := by decide
/-- A9: two pins at once. -/
theorem test_regWrite_set : after (.regWrite 6 0x00000480) State.reset (fun t => t.latch) = some 0x480#60 := by decide
/-- A13: bit 27 of `SET[1]` is pin 59. -/
theorem test_setWrite : after (.setWrite 1 0x08000000) State.reset (fun t => (t.latchAt 59, t.latchAt 27))
    = some (.high, .low) := by decide
/-- A14. -/
theorem test_setWrite_reserved : refusalOf (exec (.setWrite 1 0x10000000) State.reset) = some .reservedBits := by decide
/-- A11. -/
theorem test_clrWrite : after (.clrWrite 0 0x00000800) { State.reset with latch := 0xFFF#60 } (fun t => t.latch)
    = some 0x7FF#60 := by decide
/-- A15. -/
theorem test_clrWrite_reserved : refusalOf (exec (.clrWrite 1 0xF0000000) State.reset) = some .reservedBits := by decide
/-- A4: some word; nothing changes but the trace and the draw. -/
theorem test_setclrRead : after (.setclrRead 0) started (fun t => (t.fsel, t.latch, t.trace.length))
    = some (started.fsel, started.latch, 1) := by decide

/-- G7: reserved codes in other fields are kept. -/
theorem test_configure : after (.configure 9 .output) (withFsel 0 0x12345678) (fun t => t.fsel[0])
    = some 0x0A345678 := by decide
/-- G19: the highest field of FSEL5; bits 31:30 kept. -/
theorem test_configure_input : after (.configure 59 .input) (withFsel 5 0xFFFFFFFF) (fun t => t.fsel[5])
    = some 0xC7FFFFFF := by decide
/-- The split `configure(7, output)` of part 2.2. -/
theorem test_configure_split :
    after (.configure 7 .output)
        { withFsel 0 0xFFFFFFFF with cfg := { Config.default with configureSplit := true } } (fun t => t.trace)
      = some [.rd 0 (.fsel 0) 0xFFFFFFFF, .wr 0 (.fsel 0) 0xFF1FFFFF, .rd 0 (.fsel 0) 0xFF1FFFFF,
          .wr 0 (.fsel 0) 0xFF3FFFFF] := by decide
/-- The refusals of part 2.2. -/
theorem test_configure_badPin : refusalOf (exec (.configure 60 .output) State.reset) = some .badPin
    ∧ refusalOf (exec (.configure (-1) .output) State.reset) = some .badPin := by decide
/-- G11, by the function code. -/
theorem test_fselOutput : after (.fselOutput 25) (withFsel 2 0x24924924) (fun t => t.fsel[2])
    = some 0x2490C924 := by decide
/-- G12, by the function code. -/
theorem test_fselInput : after (.fselInput 29) (withFsel 2 0xFFFFFFFF) (fun t => t.fsel[2])
    = some 0xC7FFFFFF := by decide
/-- S12, S14: pins of the second pair of registers. -/
theorem test_setLevel : after (.setLevel 59 .high) State.reset (fun t => t.trace) = some [.wr 0 (.set 1) 0x08000000]
    ∧ after (.setLevel 32 .low) State.reset (fun t => t.trace) = some [.wr 0 (.clr 1) 0x00000001] := by decide
/-- S9, and the refusal of pin 64. -/
theorem test_setLevel_bounds : after (.setLevel 31 .high) State.reset (fun t => t.latch) = some 0x80000000#60
    ∧ refusalOf (exec (.setLevel 64 .low) State.reset) = some .badPin := by decide

/-- T1. -/
theorem test_settle : after .settle started (fun t => (t.trace, t.latch)) = some ([.settle 0], 0x80) := by decide
/-- T2. -/
theorem test_sendBit : after (.sendBit true) started (fun t => (t.trace, t.latch))
    = some ([.wr 0 (.set 0) 0x400, .settle 0, .wr 0 (.set 0) 0x800, .settle 0, .wr 0 (.clr 0) 0x800, .settle 0],
        0x480) := by decide
/-- T5. -/
theorem test_sendFrame : after (.sendFrame [true, false]) started (fun t => (t.trace.filter isWrite, t.latch, t.txLock))
    = some ([.wr 0 (.clr 0) 0x80, .wr 0 (.set 0) 0x400, .wr 0 (.set 0) 0x800, .wr 0 (.clr 0) 0x800,
        .wr 0 (.clr 0) 0x400, .wr 0 (.set 0) 0x800, .wr 0 (.clr 0) 0x800, .wr 0 (.set 0) 0x80], 0x80, .free) := by
  decide +kernel
/-- T4: the empty frame; the reference receiver discards it. -/
theorem test_sendFrame_empty : after (.sendFrame []) started (fun t => (t.trace, (received started t.trace).deliveries))
    = some ([.acq 0, .wr 0 (.clr 0) 0x80, .settle 0, .wr 0 (.set 0) 0x80, .rel 0], [.discarded []]) := by
  decide +kernel

/-- The frame context 0 has handed to the transmitter when it is preempted after `n` actions. -/
def frameAfter (n : Nat) (i : Instr) : Option (Option (List Bool)) :=
  after i { started with quantum := some n } fun t => (t.ctx 0).frame

/-- F9: `1001 1111111110 00`. -/
theorem test_write : frameAfter 0 (.write .A 1022)
    = some (some [true, false, false, true, true, true, true, true, true, true, true, true, true, false,
        false, false]) := by decide
/-- The refusals of part 2.5. -/
theorem test_write_refused : refusalOf (exec (.write .A 1024) started) = some .badMagnitude
    ∧ refusalOf (exec (.write .B (-1)) started) = some .badMagnitude := by decide
/-- F7: `1001 1010101010 00`, as the reference receiver delivers it. -/
theorem test_loadA : after (.loadA 682) started (fun t => (received started t.trace).deliveries)
    = some [.frame [true, false, false, true, true, false, true, false, true, false, true, false, true, false,
        false, false]] := by decide +kernel
/-- F12: `1010 0000000001 00`. -/
theorem test_loadB : frameAfter 0 (.loadB 1)
    = some (some [true, false, true, false, false, false, false, false, false, false, false, false, false, true,
        false, false]) := by decide
/-- F19: `1111 1000000000 00`. -/
theorem test_loadAB : frameAfter 0 (.loadAB 512)
    = some (some [true, true, true, true, true, false, false, false, false, false, false, false, false, false,
        false, false]) := by decide
/-- X1 and X6. -/
theorem test_frameFields : frameFields (bitsMsb 0x9800#16) = some { command := 9, magnitude := 512, pad := (false, false) }
    ∧ (frameFields (bitsMsb 0x9801#16)).map FrameFields.emittable = some false := by decide

/-- B2: the value is stored, and P2: 101 events follow the `Accept`, 50 of them writes. -/
theorem test_storeVolume : after (.storeVolume (Text.ofString "512")) started
      (fun t => (t.vol, t.trace.head?, t.trace.length, t.trace.countP isWrite))
    = some (512, some (.accept 0 .volume 512), 102, 50) := by decide +kernel
/-- B4. -/
theorem test_storeVolume_range : after (.storeVolume (Text.ofString "1024")) started (fun t => (t.vol, t.trace, result0 t))
    = some (100, [.reject 0 .volume], .failed (.invalidArgument .volume)) := by decide
/-- B5: whatever the open parser makes of `-1`, it is rejected. -/
theorem test_storeVolume_negative :
    after (.storeVolume (Text.ofString "-1")) started (fun t => (t.vol, t.trace, result0 t))
      = some (100, [.reject 0 .volume], .failed (.invalidArgument .volume)) := by
  have h : storeActions started.cfg .volume (Text.ofString "-1") = [.reject .volume] := by
    rw [storeActions, acceptedValue_of_negative _ _ (by decide) (by decide)]
  simp only [after, exec, execStoreVolume, h]
  decide
/-- B15: the frame `0xA000`. -/
theorem test_storeBass : frameAfter 2 (.storeBass (Text.ofString "0"))
    = some (some [true, false, true, false, false, false, false, false, false, false, false, false, false, false,
        false, false]) := by decide
/-- B14, for bass: `x` is neither digit, sign nor blank. -/
theorem test_storeBass_parse : after (.storeBass (Text.ofString "0x10")) started (fun t => (t.bas, t.trace))
    = some (200, [.reject 0 .bass]) := by decide
/-- B20: non-zero gives high, in one write, without a lock. -/
theorem test_storeOn : after (.storeOn (Text.ofString "2")) started (fun t => (t.onv, t.trace, t.latchAt 25))
    = some (2, [.accept 0 .on 2, .wr 0 (.set 0) 0x02000000], .high) := by decide
/-- B21: `-1` is rejected. -/
theorem test_storeOn_negative : after (.storeOn (Text.ofString "-1")) started (fun t => (t.onv, t.trace, result0 t))
    = some (0, [.reject 0 .on], .failed (.invalidArgument .on)) := by
  have h : storeActions started.cfg .on (Text.ofString "-1") = [.reject .on] := by
    rw [storeActions, acceptedValue_of_negative _ _ (by decide) (by decide)]
  simp only [after, exec, execStoreOn, h]
  decide
/-- B19: zero gives low. -/
theorem test_storeOn_zero : after (.storeOn (Text.ofString "0")) started (fun t => t.trace)
    = some [.accept 0 .on 0, .wr 0 (.clr 0) 0x02000000] := by decide
/-- B23: `100` and a line feed. -/
theorem test_showVolume : after .showVolume started result0 = some (.text [0x31, 0x30, 0x30, 0x0A]) := by decide
/-- B24: `200` and a line feed. -/
theorem test_showBass : after .showBass started result0 = some (.text [0x32, 0x30, 0x30, 0x0A]) := by decide
/-- B25: `0` and a line feed; R131: not before `start`. -/
theorem test_showOn : after .showOn started result0 = some (.text [0x30, 0x0A])
    ∧ refusalOf (exec .showOn State.reset) = some .badLifecycle := by decide

/-- P1a: the words, the two latches, and six writes after four reads. -/
theorem test_start : after .start State.reset
      (fun t => (t.fsel, t.latch, t.life, t.trace.countP isRead, t.trace.countP isWrite))
    = some (#v[0x00200000, 0x00000009, 0x00008000, 0, 0, 0], 0x80, .operational, 4, 6) := by decide +kernel
/-- R143: preempted after `PinsConfigured` (eleventh action), `start` has not returned and the block is not operational. -/
theorem test_start_preempted : after .start { State.reset with quantum := some 11 }
      (fun t => (t.life, (t.ctx 0).call, (t.ctx 0).work))
    = some (.pinsConfigured, some .start, [.register]) := by decide +kernel
/-- L2: the registration fails. -/
theorem test_start_fails : after .start { State.reset with surface := [false] } (fun t => (t.life, t.latch, result0 t))
    = some (.uninitialized, 0x80, .failed .initFailure) := by decide +kernel
/-- L4: no register access. -/
theorem test_stop : after .stop started (fun t => (t.life, t.fsel, t.latch, t.trace))
    = some (.uninitialized, started.fsel, started.latch, []) := by decide
/-- L5: no step while the lock is held. -/
theorem test_stop_waits : after .stop locked (fun t => (t.life, (t.ctx 0).work)) = some (.operational, [.teardown, .ret]) := by
  decide
/-- R144. -/
theorem test_lockAcquire : after .lockAcquire started (fun t => (t.txLock, (t.ctx 0).seq, t.trace))
    = some (.held 0, .at 1, [.acq 0]) := by decide
/-- L7: the caller waits at `At(0)`. -/
theorem test_lockAcquire_waits : after .lockAcquire locked (fun t => (t.txLock, (t.ctx 0).seq, t.trace))
    = some (.held 1, .at 0, []) := by decide
/-- R145. -/
theorem test_lockRelease : after .lockRelease { started with txLock := .held 0 } (fun t => (t.txLock, t.trace))
    = some (.free, [.rel 0]) := by decide

/-- A step takes the packet placed where it fetches: F5's word, on a started block. -/
theorem test_step_fetches :
    (nextOf (step (started.withFetchWord 16 0x9800))).map (fun t => ((t.ctx 0).result, t.inputs, t.trace.length))
      = some (.done, [], 101) := by decide +kernel
/-- A bus write of the `packed` layout: `SET0` is at offset 0x18; two bytes are no access. -/
theorem test_step_bus :
    (nextOf (step { State.reset with inputs := [.busWrite 3 0x18 4 0x80] })).map (fun t => (t.latch, t.trace))
        = some (0x80, [.wr 3 (.set 0) 0x80])
      ∧ refusalOf (step { State.reset with inputs := [.busRead 0 0x18 2] }) = some .badAccess := by decide
/-- P6, row 1: both reads before both writes; one update is lost. -/
theorem test_lostUpdate :
    (nextOf (Host.Core.run core 4 { State.reset with inputs :=
        [.call 1 (encode (.configure 10 .output)) (some 1), .call 2 (encode (.configure 11 .output)) (some 1),
          .resume 1 none, .resume 2 none] })).map (fun t => t.fsel[1]) = some 0x00000008 := by decide +kernel

/-- R142: the `start` of a later lifetime finds the mirror at `MIRROR_INIT`. -/
theorem test_step_newLifetime :
    (nextOf (step { started with life := .uninitialized, inputs := [.call 0 [0x5E#8] none] })).map
        (fun t => (t.vol, t.bas, t.life))
      = some (0, 0, .operational) := by decide +kernel
/-- R34: a line that becomes driven has an edge; R27: a driven line has its level wherever it is looked at. -/
theorem test_isEdge : isEdge .undriven (.driven .high) = true ∧ isEdge (.driven .low) (.driven .low) = false
    ∧ (Line.driven .high).levelAt 7 11 = .high := by decide

/-! ### Every statement's hypotheses are met by something

One theorem (or one a clause) for each statement of Certificates/Slice0/Obligations.lean that has hypotheses, at boundary
values of their ranges. -/

theorem ready_reset : Ready State.reset := ⟨rfl, rfl, rfl⟩
theorem ready_started : Ready started := ⟨rfl, rfl, rfl⟩
theorem ready_locked : Ready locked := ⟨rfl, rfl, rfl⟩
theorem wf_started : started.cfg.wf = true := by decide
theorem started_started : Started started := by constructor <;> decide

theorem witness_DecodeReadsBackEncode : (Instr.configure (-2147483648) .output).wellFormed = true
    ∧ (Instr.regWrite 255 0xFFFFFFFF).wellFormed = true := by decide
theorem witness_EncodeReadsBackDecode : decode [0xFF#8, 0xFC#8] = .ok (.loadAB 1023) := rfl
theorem witness_UnusedEncodingsAreNoCall_frame : decodeFrame 0xFFFC#16 = .ok (.loadAB 1023) := rfl
theorem witness_UnusedEncodingsAreNoCall_packet :
    decode (frameBytes 0x9004#16) = .ok (.loadA 1)
      ∧ (let c := (0x9004#16).extractLsb' 12 4; c ≠ 0#4 ∧ c ≠ 4#4 ∧ c ≠ 5#4 ∧ c ≠ 6#4) := ⟨rfl, by decide⟩
theorem witness_UnusedEncodingsAreNoCall_code :
    (0b010#3 ≠ 0b000#3 ∧ 0b010#3 ≠ 0b001#3) ∧ (0b111#3 ≠ 0b000#3 ∧ 0b111#3 ≠ 0b001#3) := by decide
theorem witness_FrameIsCommandMagnitudePadding : frameBits .AB 1023 = frameBits .AB 1023 := rfl
theorem witness_SamplesReadBackAsTheirFrame :
    ∃ f, frameFields (bitsMsb 0xFFFC#16) = some f ∧ f.emittable = true := ⟨_, rfl, by decide⟩
theorem witness_DecimalTextParsesBack :
    (0x2F#8 ∈ [0x31#8, 0x2F#8] ∧ isDigit 0x2F#8 = false ∧ isSign 0x2F#8 = false ∧ isSpace 0x2F#8 = false)
      ∧ 0x3A#8 ∈ [0x3A#8] ∧ isDigit 0x3A#8 = false ∧ isSign 0x3A#8 = false ∧ isSpace 0x3A#8 = false := by decide

theorem witness_StepRunsTheDecodedInstruction :
    { started with inputs := [.call 7 [0x54#8] (some 0)] }.inputs = .call 7 [0x54#8] (some 0) :: []
      ∧ decode [0x54#8] = .ok .settle ∧ Instr.settle ≠ .start := ⟨rfl, rfl, by decide⟩
/-- The call of a `start`, before anything else. -/
def starting : State := { State.reset with inputs := [.call 0 [0x5E#8] none] }
theorem witness_StepRunsTheDecodedInstruction_start :
    starting.inputs = .call 0 [0x5E#8] none :: [] ∧ decode [0x5E#8] = .ok .start
      ∧ starting.life = .uninitialized ∧ starting.anyCall isStart = false := ⟨rfl, rfl, rfl, rfl⟩
/-- Context 1 is inside a `start` that was preempted before its first action. -/
def insideStart : State :=
  { starting with ctxs := [(1, { Ctx.fresh with call := some .start, work := startActions Config.default })] }
theorem witness_StepRunsTheDecodedInstruction_refused :
    (insideStart.inputs = .call 0 [0x5E#8] none :: [] ∧ insideStart.anyCall isStart = true)
      ∧ { started with inputs := starting.inputs }.life ≠ .uninitialized := ⟨⟨rfl, rfl⟩, by decide⟩
theorem witness_StepTakesTheOtherInputs :
    State.reset.inputs = []
      ∧ ({ State.reset with inputs := [.call 0 [0x62#8] none] }.inputs = .call 0 [0x62#8] none :: []
          ∧ decode [0x62#8] = .error (.unknownCall 0x62#8))
      ∧ { State.reset with inputs := [.resume 3 (some 1)] }.inputs = .resume 3 (some 1) :: [] := ⟨rfl, ⟨rfl, rfl⟩, rfl⟩
theorem witness_BusReachesTheTenRegistersOnly_reached :
    State.reset.cfg.wf = true
      ∧ { State.reset with inputs := [.busRead 0 0x24 4] }.inputs
          = .busRead 0 (regAddress State.reset.cfg (.clr 1)) 4 :: []
      ∧ { State.reset with inputs := [.busWrite 0 0 4 1] }.inputs
          = .busWrite 0 (regAddress State.reset.cfg (.fsel 0)) 4 1 :: [] := ⟨by decide, rfl, rfl⟩
theorem witness_BusReachesTheTenRegistersOnly_outside :
    (∀ r : Reg, 0x28 ≠ regAddress State.reset.cfg r) ∧ (∀ r : Reg, 2 ≠ regAddress State.reset.cfg r)
      ∧ (3 ≠ 4 ∧ 5 ≠ 4) := by
  refine ⟨?_, ?_, by decide⟩ <;> intro r <;> cases r with
    | fsel k => revert k; decide
    | set k => revert k; decide
    | clr k => revert k; decide

theorem witness_FselReadReturnsTheStoredWord :
    Ready State.reset ∧ (Instr.regRead 5 = .fselRead 5 ∨ Instr.regRead 5 = .regRead (5 : Fin 6).val) :=
  ⟨ready_reset, .inr rfl⟩
theorem witness_LevelReadReturnsSomeWord :
    Ready State.reset ∧ (Instr.regRead 9 = .setclrRead 3 ∨ Instr.regRead 9 = .regRead (6 + (3 : Fin 4).val)) :=
  ⟨ready_reset, .inr rfl⟩
theorem witness_FselWriteReplacesTheWord :
    Ready State.reset ∧ (Instr.fselWrite 0 9 = .fselWrite 0 9 ∨ Instr.fselWrite 0 9 = .regWrite (0 : Fin 6).val 9) :=
  ⟨ready_reset, .inl rfl⟩
theorem witness_SetWriteRaisesTheNamedLatches_refused :
    Ready State.reset ∧ ((1 : Fin 2) = 1 ∧ (0x10000000#32).extractLsb' 28 4 ≠ 0#4)
      ∧ (Instr.setWrite 1 0x10000000 = .setWrite 1 0x10000000
          ∨ Instr.setWrite 1 0x10000000 = .regWrite (6 + (1 : Fin 2).val) 0x10000000) :=
  ⟨ready_reset, by decide, .inl rfl⟩
theorem witness_SetWriteRaisesTheNamedLatches_written :
    Ready State.reset ∧ ¬((1 : Fin 2) = 1 ∧ (0x0FFFFFFF#32).extractLsb' 28 4 ≠ 0#4)
      ∧ ¬((0 : Fin 2) = 1 ∧ (0xFFFFFFFF#32).extractLsb' 28 4 ≠ 0#4)
      ∧ (Instr.regWrite 7 0x0FFFFFFF = .setWrite 1 0x0FFFFFFF
          ∨ Instr.regWrite 7 0x0FFFFFFF = .regWrite (6 + (1 : Fin 2).val) 0x0FFFFFFF) :=
  ⟨ready_reset, by decide, by decide, .inr rfl⟩
theorem witness_ClrWriteLowersTheNamedLatches_refused :
    Ready State.reset ∧ ((1 : Fin 2) = 1 ∧ (0x80000000#32).extractLsb' 28 4 ≠ 0#4)
      ∧ (Instr.regWrite 9 0x80000000 = .clrWrite 1 0x80000000
          ∨ Instr.regWrite 9 0x80000000 = .regWrite (8 + (1 : Fin 2).val) 0x80000000) :=
  ⟨ready_reset, by decide, .inr rfl⟩
theorem witness_ClrWriteLowersTheNamedLatches_written :
    Ready State.reset ∧ ¬((0 : Fin 2) = 1 ∧ (0xFFFFFFFF#32).extractLsb' 28 4 ≠ 0#4)
      ∧ (Instr.clrWrite 0 0xFFFFFFFF = .clrWrite 0 0xFFFFFFFF
          ∨ Instr.clrWrite 0 0xFFFFFFFF = .regWrite (8 + (0 : Fin 2).val) 0xFFFFFFFF) :=
  ⟨ready_reset, by decide, .inl rfl⟩
theorem witness_IndexOutsideTheMapIsRefused : 10 ≤ 10 := le_refl 10

theorem witness_ConfigureWritesOneField : Ready State.reset ∧ State.reset.cfg.configureSplit = false := ⟨ready_reset, rfl⟩
theorem witness_SplitConfigureClearsThenSets :
    Ready { State.reset with cfg := { Config.default with configureSplit := true } }
      ∧ { State.reset with cfg := { Config.default with configureSplit := true } }.cfg.configureSplit = true :=
  ⟨⟨rfl, rfl, rfl⟩, rfl⟩
theorem witness_FunctionCodeEndsInItsField_input : Ready State.reset
    ∧ (Instr.fselInput 59 = .fselInput (59 : Pin).val ∧ Direction.input = .input
        ∨ Instr.fselInput 59 = .fselOutput (59 : Pin).val ∧ Direction.input = .output) :=
  ⟨ready_reset, .inl ⟨rfl, rfl⟩⟩
theorem witness_FunctionCodeEndsInItsField_output : Ready State.reset
    ∧ (Instr.fselOutput 0 = .fselInput (0 : Pin).val ∧ Direction.output = .input
        ∨ Instr.fselOutput 0 = .fselOutput (0 : Pin).val ∧ Direction.output = .output) :=
  ⟨ready_reset, .inr ⟨rfl, rfl⟩⟩
theorem witness_SetLevelDrivesOneLatch : Ready started ∧ started.dir 7 = .output := ⟨ready_started, by decide⟩
theorem witness_PinOutsideTheMapIsRefused : ((-1 : Int) < 0 ∨ 59 < (-1 : Int)) ∧ ((60 : Int) < 0 ∨ 59 < (60 : Int))
    ∧ 59 < 60 := by decide
theorem witness_UnserialisedConfigureLosesAnUpdate :
    State.reset.cfg.configureSplit = false ∧ 0 ≠ 1
      ∧ (State.reset.ctx 0).call = none ∧ (State.reset.ctx 0).frame = none
      ∧ (State.reset.ctx 1).call = none ∧ (State.reset.ctx 1).frame = none
      ∧ fselIndex 10 = fselIndex 19 ∧ (10 : Pin) ≠ 19 := by decide
theorem witness_SetLevelsOnDifferentPinsCommute :
    (State.reset.ctx 0).call = none ∧ (State.reset.ctx 1).call = none ∧ (31 : Pin) ≠ 32 := by decide

theorem witness_SettleRecordsOneWait : Ready State.reset := ready_reset
theorem witness_SendBitPulsesTheClockOnce : Ready started ∧ started.cfg.wf = true ∧ started.life = .operational :=
  ⟨ready_started, wf_started, rfl⟩
theorem witness_SendFrameSendsEveryBitInOrder :
    Ready started ∧ started.cfg.wf = true ∧ started.life = .operational ∧ started.txLock = .free :=
  ⟨ready_started, wf_started, rfl, rfl⟩
theorem witness_FrameCountsWritesAndSettles :
    Ready started ∧ started.life = .operational ∧ started.txLock = .free
      ∧ ∃ t, exec (.sendFrame []) started = .next t :=
  ⟨ready_started, rfl, rfl, _, rfl⟩
theorem witness_FrameStepsAreTheTable : 0 < [true].length := by decide
theorem witness_SequencerCountsTheStepsDone_first :
    let s := { started with quantum := some 0 }
    (s.ctx s.cur).call = none ∧ s.life = .operational ∧ s.txLock = .free ∧ s.quantum = some 0 ∧ 0 ≤ 4 + 6 * [true].length :=
  by decide
theorem witness_SequencerCountsTheStepsDone_last :
    let s := { started with quantum := some 10 }
    (s.ctx s.cur).call = none ∧ s.life = .operational ∧ s.txLock = .free ∧ s.quantum = some 10 ∧ 10 ≤ 4 + 6 * [true].length :=
  by decide
theorem witness_ReceiverGetsTheFrameSent :
    Ready started ∧ started.cfg.wf = true ∧ Started started ∧ started.txLock = .free :=
  ⟨ready_started, wf_started, started_started, rfl⟩

/-- A context that has entered a frame without bits and stands before its acquire step. -/
def waiter : Ctx where
  seq := .at 0
  frame := some []
  call := some (.sendFrame [])
  work := frameActions Config.default [] ++ [.ret]
  temp := 0
  result := .pending

/-- Context 1 waits for the lock, which context 0 took by `lock_acquire`. -/
def waiting : State :=
  { started with
    txLock := .held 0, ctxs := [(0, { Ctx.fresh with seq := .at 1, result := .done }), (1, waiter)],
    inputs := [.resume 1 none] }

theorem ok_fresh (cfg : Config) : Ctx.fresh.Ok cfg :=
  ⟨fun _ => ⟨rfl, rfl⟩, fun _ h => (by cases h), fun _ h => (by cases h)⟩

theorem waiting_ctx (c : Nat) : waiting.ctx c = { Ctx.fresh with seq := .at 1, result := .done } ∧ c = 0
    ∨ waiting.ctx c = waiter ∧ c = 1 ∨ waiting.ctx c = Ctx.fresh := by
  match c with
  | 0 => exact .inl ⟨rfl, rfl⟩
  | 1 => exact .inr (.inl ⟨rfl, rfl⟩)
  | _ + 2 => exact .inr (.inr rfl)

theorem inv_waiting : Inv waiting where
  contexts := by decide
  calls c := by
    obtain ⟨h, -⟩ | ⟨h, -⟩ | h := waiting_ctx c <;> rw [h]
    · exact ⟨fun _ => ⟨rfl, rfl⟩, fun _ e => (by cases e), fun _ e => (by cases e)⟩
    · exact ⟨fun e => (by cases e), fun i e => by cases e; exact List.suffix_refl _,
        fun bits e => by cases e; exact ⟨0, rfl, by decide, rfl⟩⟩
    · exact ok_fresh _
  region c k e := by
    obtain ⟨h, hc⟩ | ⟨h, -⟩ | h := waiting_ctx c
    · rw [hc]; rfl
    · rw [h] at e; cases e
    · rw [h] at e; cases e
  vol := .inl (by decide)
  bas := .inl (by decide)
  onv := .inl (by decide)

theorem lifeInv_waiting : LifeInv waiting where
  sending _ _ _ := rfl
  boundary _ _ _ _ := rfl
  starting c e := by obtain ⟨h, -⟩ | ⟨h, -⟩ | h := waiting_ctx c <;> rw [h] at e <;> cases e
  oneStart c _ e := by obtain ⟨h, -⟩ | ⟨h, -⟩ | h := waiting_ctx c <;> rw [h] at e <;> cases e

theorem witness_WaitingContextDoesNothing :
    Inv waiting ∧ waiting.inputs = .resume 1 none :: [] ∧ (waiting.ctx 1).frame = some [] ∧ (waiting.ctx 1).seq = .at 0
      ∧ waiting.txLock ≠ .free := ⟨inv_waiting, rfl, rfl, rfl, by decide⟩

theorem witness_TransmissionWaitsForTheLock :
    Ready locked ∧ locked.life = .operational ∧ locked.txLock ≠ .free
      ∧ (Instr.sendFrame [] = .sendFrame []
          ∧ Instr.write .B ((0 : Fin 1024).val : Int) = .write .B ((0 : Fin 1024).val : Int)
          ∧ frameBits .B (BitVec.ofNat 10 (0 : Fin 1024).val) = frameBits .B 0
          ∧ Instr.loadAB 1023 = .loadAB 1023) :=
  ⟨ready_locked, rfl, by decide, rfl, rfl, rfl, rfl⟩
theorem inv_waiting_free : Inv { waiting with txLock := .free, ctxs := [(1, waiter)] } where
  contexts := by decide
  calls c := by
    match c with
    | 1 => exact inv_waiting.calls 1
    | 0 => exact ok_fresh _
    | _ + 2 => exact ok_fresh _
  region c k e := by
    match c with
    | 1 => cases e
    | 0 => cases e
    | _ + 2 => cases e
  vol := .inl (by decide)
  bas := .inl (by decide)
  onv := .inl (by decide)
theorem witness_WaitingFrameIsSentOnceTheLockIsFree :
    let s := { waiting with txLock := .free, ctxs := [(1, waiter)] }
    Inv s ∧ s.cfg.wf = true ∧ s.inputs = .resume 1 none :: [] ∧ (s.ctx 1).frame = some [] ∧ (s.ctx 1).seq = .at 0
      ∧ s.txLock = .free := ⟨inv_waiting_free, by decide, rfl, rfl, rfl, rfl⟩

theorem witness_WriteSendsTheEncodedFrame :
    Ready started ∧ started.cfg.wf = true ∧ started.life = .operational ∧ started.txLock = .free :=
  ⟨ready_started, wf_started, rfl, rfl⟩
theorem witness_FrameCommandSendsItsWord :
    Ready started ∧ started.cfg.wf = true ∧ started.life = .operational ∧ started.txLock = .free
      ∧ (0x9FFC#16 = 0x9000#16 ||| ((1023#10).setWidth 16 <<< 2)
          ∧ 0xAFFC#16 = 0xA000#16 ||| ((1023#10).setWidth 16 <<< 2)
          ∧ 0xFFFC#16 = 0xF000#16 ||| ((1023#10).setWidth 16 <<< 2)) :=
  ⟨ready_started, wf_started, rfl, rfl, by decide⟩
theorem witness_MagnitudeOutOfRangeIsRefused :
    started.life = .operational ∧ ((-1 : Int) < 0 ∨ 1023 < (-1 : Int)) ∧ ((1024 : Int) < 0 ∨ 1023 < (1024 : Int)) :=
  ⟨rfl, by decide⟩

theorem witness_StoreVolumeStoresAndSends_accepted :
    Ready started ∧ started.cfg.wf = true ∧ started.life = .operational ∧ started.txLock = .free
      ∧ parseDec (Text.ofString "0") = some ((0 : Fin 1024).val : Int)
      ∧ parseDec (Text.ofString "1023") = some ((1023 : Fin 1024).val : Int) :=
  ⟨ready_started, wf_started, rfl, rfl, by decide, by decide⟩
theorem witness_StoreVolumeStoresAndSends_rejected :
    Ready started ∧ started.life = .operational ∧ parseDec [] = none
      ∧ (∃ v, parseDec (Text.ofString "1024") = some v ∧ (v < 0 ∨ 1023 < v)) :=
  ⟨ready_started, rfl, by decide, 1024, by decide, by decide⟩
theorem witness_StoreVolumeStoresAndSends_refused : State.reset.life ≠ .operational := by decide
theorem witness_StoreBassStoresAndSends_accepted :
    Ready started ∧ started.cfg.wf = true ∧ started.life = .operational ∧ started.txLock = .free
      ∧ parseDec (Text.ofString "0") = some ((0 : Fin 1024).val : Int)
      ∧ parseDec (Text.ofString "1023") = some ((1023 : Fin 1024).val : Int) :=
  ⟨ready_started, wf_started, rfl, rfl, by decide, by decide⟩
theorem witness_StoreBassStoresAndSends_rejected :
    Ready started ∧ started.life = .operational ∧ parseDec [] = none
      ∧ (∃ v, parseDec (Text.ofString "1024") = some v ∧ (v < 0 ∨ 1023 < v)) :=
  ⟨ready_started, rfl, by decide, 1024, by decide, by decide⟩
theorem witness_StoreBassStoresAndSends_refused : State.reset.life ≠ .operational := by decide
theorem witness_ValueIsStoredBeforeTheLockIsTaken :
    Ready locked ∧ locked.life = .operational ∧ locked.txLock ≠ .free
      ∧ parseDec (Text.ofString "1023") = some ((1023 : Fin 1024).val : Int)
      ∧ (Instr.storeBass (Text.ofString "1023") = .storeVolume (Text.ofString "1023")
            ∧ Attr.bass = .volume ∧ Channel.B = .A
          ∨ Instr.storeBass (Text.ofString "1023") = .storeBass (Text.ofString "1023")
            ∧ Attr.bass = .bass ∧ Channel.B = .B) :=
  ⟨ready_locked, rfl, by decide, by decide, .inr ⟨rfl, rfl, rfl⟩⟩
theorem witness_StoreOnSetsTheEnablePin_accepted :
    Ready started ∧ started.life = .operational
      ∧ (parseDec (Text.ofString "0") = some ((0 : Nat) : Int) ∧ 0 ≤ started.cfg.onMax)
      ∧ (parseDec (Text.ofString "4294967295") = some ((4294967295 : Nat) : Int) ∧ 4294967295 ≤ started.cfg.onMax) :=
  ⟨ready_started, rfl, by decide, by decide⟩
theorem witness_StoreOnSetsTheEnablePin_rejected :
    Ready started ∧ started.life = .operational ∧ parseDec (Text.ofString "yes") = none
      ∧ (∃ v, parseDec (Text.ofString "4294967296") = some v ∧ (v < 0 ∨ (started.cfg.onMax : Int) < v)) :=
  ⟨ready_started, rfl, by decide, 4294967296, by decide, by decide⟩
theorem witness_StoreOnSetsTheEnablePin_refused : State.reset.life ≠ .operational := by decide
theorem witness_ValueOutOfRangeIsRejected :
    Ready started ∧ started.life = .operational
      ∧ (((-1 : Int) < 0 ∨ 1023 < (-1 : Int)) ∧ ((1024 : Int) < 0 ∨ 1023 < (1024 : Int)))
      ∧ ((-1 : Int) < 0 ∨ (started.cfg.onMax : Int) < -1)
      ∧ ((4294967296 : Int) < 0 ∨ (started.cfg.onMax : Int) < 4294967296)
      ∧ decimalInt (-1) = Text.ofString "-1" ∧ decimalInt 1024 = Text.ofString "1024" :=
  ⟨ready_started, rfl, by decide, by decide, by decide, by decide, by decide⟩
theorem witness_ShowReturnsTheStoredValue :
    (Instr.showVolume = .showVolume ∧ 100 = started.vol) ∧ (Instr.showBass = .showBass ∧ 200 = started.bas)
      ∧ (Instr.showOn = .showOn ∧ 0 = started.onv)
      ∧ Ready started ∧ started.life = .operational ∧ State.reset.life ≠ .operational :=
  ⟨⟨rfl, rfl⟩, ⟨rfl, rfl⟩, ⟨rfl, rfl⟩, ready_started, rfl, by decide⟩
theorem witness_StoredValueIsShown :
    Ready started ∧ started.cfg.wf = true ∧ started.life = .operational ∧ started.txLock = .free :=
  ⟨ready_started, wf_started, rfl, rfl⟩
theorem witness_AcceptedValueReachesTheReceiver :
    Ready started ∧ started.cfg.wf = true ∧ Started started ∧ started.txLock = .free
      ∧ parseDec (Text.ofString "1023") = some ((1023 : Fin 1024).val : Int)
      ∧ (Instr.storeBass (Text.ofString "1023") = .storeVolume (Text.ofString "1023") ∧ 10 = 9
          ∨ Instr.storeBass (Text.ofString "1023") = .storeBass (Text.ofString "1023") ∧ 10 = 10) :=
  ⟨ready_started, wf_started, started_started, rfl, by decide, .inr ⟨rfl, rfl⟩⟩

theorem witness_StartMakesTheBlockOperational :
    Ready State.reset ∧ State.reset.cfg.wf = true ∧ State.reset.life = .uninitialized
      ∧ State.reset.anyCall isStart = false ∧ State.reset.surface.head? ≠ some false :=
  ⟨ready_reset, by decide, rfl, rfl, by decide⟩
theorem witness_FailedRegistrationEndsTheStart :
    let s := { State.reset with surface := [false] }
    Ready s ∧ s.cfg.wf = true ∧ s.life = .uninitialized ∧ s.anyCall isStart = false ∧ s.surface.head? = some false :=
  ⟨⟨rfl, rfl, rfl⟩, by decide, rfl, rfl, rfl⟩
theorem witness_LifetimeStateGuardsTheCalls :
    started.life ≠ .uninitialized ∧ (insideStart.ctx 1).call = some .start
      ∧ State.reset.life ≠ .operational ∧ Ready State.reset :=
  ⟨by decide, rfl, by decide, ready_reset⟩
theorem witness_StopEndsTheLifetime :
    Ready started ∧ started.ctxs.wf = true ∧ started.life = .operational ∧ started.txLock = .free
      ∧ (∀ c, (started.ctx c).seq = .idle) ∧ ∀ c i, (started.ctx c).call = some i → isBoundary i = false :=
  ⟨ready_started, rfl, rfl, rfl, fun _ => rfl, fun _ _ h => (by cases h)⟩
theorem witness_StopWaitsForTheFrame :
    (Ready locked ∧ locked.life = .operational ∧ locked.txLock ≠ .free)
      ∧ let s := { waiting with cur := 2, txLock := .free, ctxs := [(1, waiter)] }
        Ready s ∧ s.life = .operational ∧ ∃ c, (s.ctx c).seq ≠ .idle :=
  ⟨⟨ready_locked, rfl, by decide⟩, ⟨rfl, rfl, rfl⟩, rfl, 1, by decide⟩
/-- Context 1 is inside a `store_on` that was preempted between its `Accept` and its write. -/
theorem witness_StopWaitsForTheFrame_boundary :
    let x : Ctx := { Ctx.fresh with
      call := some (.storeOn (Text.ofString "1")), work := setLevelActions (enPin Config.default) .high ++ [.ret] }
    let s : State := { started with onv := 1, trace := [.accept 1 .on 1], ctxs := [(1, x)] }
    Ready s ∧ s.life = .operational ∧ ∃ c i, (s.ctx c).call = some i ∧ isBoundary i = true :=
  ⟨⟨rfl, rfl, rfl⟩, rfl, 1, _, rfl, rfl⟩
theorem witness_LockAcquireTakesOrWaits :
    (Ready started ∧ started.txLock = .free) ∧ Ready locked ∧ locked.txLock ≠ .free :=
  ⟨⟨ready_started, rfl⟩, ready_locked, by decide⟩
theorem witness_LockReleaseFreesTheHoldersLock :
    (let s := { started with txLock := .held 0 }; Ready s ∧ s.txLock = .held s.cur)
      ∧ Ready locked ∧ locked.txLock ≠ .held locked.cur :=
  ⟨⟨⟨rfl, rfl, rfl⟩, rfl⟩, ready_locked, by decide⟩

theorem witness_StepKeepsTheInvariant : Inv waiting ∧ ∃ t, step waiting = .next t := ⟨inv_waiting, _, rfl⟩
theorem witness_StepKeepsTheLifetimeInvariant : Inv waiting ∧ LifeInv waiting ∧ ∃ t, step waiting = .next t :=
  ⟨inv_waiting, lifeInv_waiting, _, rfl⟩
theorem witness_ParametersNeverChange : ∃ t, step { State.reset with inputs := [.call 0 [0x5E#8] none] } = .next t :=
  ⟨_, rfl⟩
theorem witness_TraceExplainsTheRegisters : ∃ t, step { State.reset with inputs := [.call 0 [0x5E#8] none] } = .next t :=
  ⟨_, rfl⟩
theorem inv_starting : Inv starting where
  contexts := rfl
  calls _ := ok_fresh _
  region _ _ e := by cases e
  vol := .inl (by decide)
  bas := .inl (by decide)
  onv := .inl (by decide)
theorem witness_OnlyStartAndStopChangeLife :
    (∃ t, exec .settle started = .next t) ∧ Instr.settle ≠ .start ∧ Instr.settle ≠ .stop :=
  ⟨⟨_, rfl⟩, by decide, by decide⟩
theorem witness_OnlyStartAndStopChangeLife_step :
    Inv starting ∧ ∃ t, step starting = .next t ∧ t.life ≠ starting.life := by
  refine ⟨inv_starting, ?_⟩
  have h : (nextOf (step starting)).map State.life = some .operational := by decide +kernel
  cases hs : step starting with
  | next t =>
    rw [hs] at h
    have hl : t.life = .operational := Option.some.inj h
    exact ⟨t, rfl, by rw [hl]; decide⟩
  | fault f => cases f
  | refused r => rw [hs] at h; cases h
theorem witness_OperationsKeepToTheirState : ∃ t, exec .settle started = .next t := ⟨_, rfl⟩
theorem witness_OperationsKeepToTheirState_step :
    (Inv waiting ∧ (∃ t, step waiting = .next t) ∧ waiting.acting = some (.sendFrame []))
      ∧ (Inv starting ∧ (∃ t, step starting = .next t) ∧ starting.acting = some .start)
      ∧ let s := { starting with inputs := [] }
        Inv s ∧ step s = .next s ∧ s.acting = none :=
  ⟨⟨inv_waiting, ⟨_, rfl⟩, rfl⟩, ⟨inv_starting, ⟨_, rfl⟩, rfl⟩,
    ⟨inv_starting.contexts, inv_starting.calls, inv_starting.region, inv_starting.vol, inv_starting.bas,
      inv_starting.onv⟩, rfl, rfl⟩
theorem witness_PreemptionOnlyDelays : waiting.ctxs.wf = true := by decide

end Sys2Proof.Tests
end

/-! Proofs about what a step takes (O9, O10): what it does with the input at the head of its inputs, one equation for
each kind of input, and with the call of a `start`, which begins a lifetime or is refused. -/

namespace Sys2Proof.Machine

/-! ### One equation for each kind of input -/

theorem step_of_noInput {s : State} (hin : s.inputs = []) : step s = .next s := by
  simp [step, takeInput, hin]

theorem step_of_call {s : State} {c : Nat} {packet : List Byte} {q : Option Nat} {rest : List Input}
    (hin : s.inputs = .call c packet q :: rest) : step s = runPacket packet (s.taking c q rest) := by
  simp [step, takeInput, hin]

theorem step_of_resume {s : State} {c : Nat} {q : Option Nat} {rest : List Input}
    (hin : s.inputs = .resume c q :: rest) : step s = resumeCall (s.taking c q rest) := by
  simp [step, takeInput, hin]

/-! ### Packets -/

theorem runPacket_of_ok {packet : List Byte} {i : Instr} (hd : decode packet = .ok i) (s : State) :
    runPacket packet s = exec i (s.newLifetime i) := by
  simp [runPacket, hd]

theorem runPacket_of_error {packet : List Byte} {e : DecodeError} (hd : decode packet = .error e) (s : State) :
    runPacket packet s = .refused (.undecodable e) := by
  simp [runPacket, hd]

/-! ### The call of a `start` -/

/-- R141, U19: the two conditions under which the block accepts a `start`. -/
theorem State.startable_iff (s : State) :
    s.startable = true ↔ s.life = .uninitialized ∧ s.anyCall isStart = false := by
  simp [State.startable]

theorem State.startable_eq_false_iff (s : State) :
    s.startable = false ↔ s.life ≠ .uninitialized ∨ s.anyCall isStart = true := by
  rw [← Bool.not_eq_true, s.startable_iff, not_and_or, Bool.not_eq_false]

@[simp] theorem State.taking_startable (s : State) (c : Nat) (q : Option Nat) (rest : List Input) :
    (s.taking c q rest).startable = s.startable := rfl

/-- R36, R142: an accepted `start` finds the mirror at `MIRROR_INIT`. -/
theorem State.newLifetime_of_startable {s : State} (h : s.startable = true) : s.newLifetime .start = s.initMirror := by
  simp [State.newLifetime, isStart, h]

theorem State.newLifetime_of_not_startable {s : State} (h : s.startable = false) (i : Instr) : s.newLifetime i = s := by
  simp [State.newLifetime, h]

theorem exec_start_of_not_startable {s : State} (h : s.startable = false) : exec .start s = .refused .badLifecycle := by
  simp [exec, execStart, h]

/-! ### The obligations -/

/-- Settles O9: the packet is decoded in the state that has taken the input, and what is left is whether a lifetime
begins there: for an accepted `start` only. -/
theorem stepRunsTheDecodedInstruction : Obligations.StepRunsTheDecodedInstruction := by
  intro s c packet q rest i hin hd
  have hstep : step s = exec i ((s.taking c q rest).newLifetime i) :=
    (step_of_call hin).trans (runPacket_of_ok hd _)
  refine ⟨fun hi => ?other, fun hi hlife hcall => ?accepted, fun hi hnot => ?refused⟩
  case other =>
    rw [hstep, State.newLifetime_of_ne _ hi]
    rfl
  case accepted =>
    subst hi
    have hs : (s.taking c q rest).startable = true := s.startable_iff.mpr ⟨hlife, hcall⟩
    rw [hstep, State.newLifetime_of_startable hs]
    rfl
  case refused =>
    subst hi
    have hs : (s.taking c q rest).startable = false := s.startable_eq_false_iff.mpr hnot
    rw [hstep, State.newLifetime_of_not_startable hs, exec_start_of_not_startable hs]

/-- Settles O10, by the equation of each kind of input. -/
theorem stepTakesTheOtherInputs : Obligations.StepTakesTheOtherInputs := by
  intro s
  refine ⟨step_of_noInput, fun c packet q rest e hin hd => ?noCall, fun c q rest hin => ?resumption⟩
  case noCall => exact (step_of_call hin).trans (runPacket_of_error hd _)
  case resumption =>
    rw [step_of_resume hin]
    rfl

end Sys2Proof.Machine

/-! Proofs about the state (O20, O56, O8, O53): what a whole call of a `configure` leaves, that nothing changes the
parameters, and what holds at reset. -/

namespace Sys2Proof.Machine

/-! ### A whole `configure` (R100, R101) -/

/-- What a whole call of the actions of `configure(p, d)` leaves and returns, for both settings of
`CONFIGURE_SPLIT`. -/
structure ConfigureCalled (s t : State) (p : Pin) (d : Direction) : Prop where
  returns : Returns s t (s.ctx s.cur) .done (configureEvents s s.cur p d)
  fsel : t.fsel = configuredFsel s p d
  latch : t.latch = s.latch
  control : SameControl s t
  draws : t.draws = s.draws

/-- A `configure` by a ready context runs to its return, under whatever name it was called. -/
theorem runCall_configure {s : State} (h : Ready s) (i : Instr) (p : Pin) (d : Direction) :
    ∃ t, runCall i id (configureActions s.cfg p d ++ [.ret]) s = .next t ∧ ConfigureCalled s t p d := by
  obtain ⟨hctx, hframe⟩ := h.beginCall i
  obtain ⟨u, hu, k⟩ := doAll_configure s.cur p d (s.beginCall i) hframe
  obtain ⟨v, hv⟩ := k.caller
  refine ⟨u.finish s.cur .done, runCall_ret h hu, ?_⟩
  constructor
  case returns =>
    constructor
    case caller =>
      rw [State.finish_ctx_same, hv, hctx]
      rfl
    case others =>
      intro e he
      rw [State.finish_ctx_other _ _ he, k.others e he, State.beginCall_ctx_other _ _ he]
    case trace => exact k.trace
    case cfg => exact k.cfg
    case cur => exact k.cur
    case quantum => exact k.quantum
    case inputs => exact k.inputs
  case fsel => exact k.fsel
  case latch => exact k.latch
  case control => exact ⟨k.life, k.txLock, k.vol, k.bas, k.onv, k.surface⟩
  case draws => exact k.draws

theorem exec_fselInput_pin (p : Pin) (s : State) :
    exec (.fselInput p.val) s = runCall (.fselInput p.val) id (configureActions s.cfg p .input ++ [.ret]) s := by
  simp [exec, execFselInput]

theorem exec_fselOutput_pin (p : Pin) (s : State) :
    exec (.fselOutput p.val) s = runCall (.fselOutput p.val) id (configureActions s.cfg p .output ++ [.ret]) s := by
  simp [exec, execFselOutput]

/-- Settles O20: a function code is a `configure` of its pin (log 10), so its end is that of every `configure`, read pin
by pin and word by word. -/
theorem functionCodeEndsInItsField : Obligations.FunctionCodeEndsInItsField := by
  intro s p d i hready hi
  have hexec : exec i s = runCall i id (configureActions s.cfg p d ++ [.ret]) s := by
    obtain ⟨rfl, rfl⟩ | ⟨rfl, rfl⟩ := hi
    · exact exec_fselInput_pin p s
    · exact exec_fselOutput_pin p s
  obtain ⟨t, ht, k⟩ := runCall_configure hready i p d
  refine ⟨t, _, hexec.trans ht, k.returns, configuredFsel_fn_same k.fsel, ?otherPins, ?otherWords, ?topBits,
    k.latch, k.control, k.draws⟩
  case otherPins => exact fun q hq => configuredFsel_fn_other k.fsel hq
  case otherWords =>
    intro j hj
    rw [k.fsel]
    exact configuredFsel_other fun e => hj (congrArg Fin.val e)
  case topBits =>
    rw [k.fsel]
    exact configuredFsel_top s p d (fselIndex p)

/-! ### The parameters (R35) -/

/-- No action changes a parameter, whether its call goes on or ends with it. -/
theorem perform_cfg {c : Nat} {a : Action} {s s' : State}
    (h : perform c a s = .did s' ∨ perform c a s = .ended s') : s'.cfg = s.cfg := by
  rcases h with h | h
  · rcases perform_did h with ⟨r, _, rfl⟩ | ⟨r, v, _, _, rfl⟩ | ⟨_, rfl⟩ | ⟨bits, _, rfl⟩ | ⟨_, _, rfl⟩ | ⟨_, _, rfl⟩
      | ⟨name, v, _, rfl⟩ | ⟨_, rfl⟩ | ⟨_, _, _, rfl⟩
    all_goals simp
  · rcases perform_ended h with ⟨name, _, rfl⟩ | ⟨_, _, rfl⟩ | ⟨_, _, rfl⟩ | ⟨_, rfl⟩ | ⟨_, rfl⟩ | ⟨name, _, rfl⟩
    all_goals simp

theorem runWork_cfg {c : Nat} {work : List Action} {q : Option Nat} {s t : State}
    (h : runWork c work q s = .next t) : t.cfg = s.cfg :=
  runWork_keeps (P := fun u => u.cfg = s.cfg) (fun _ _ _ hu hp => (perform_cfg (.inl hp)).trans hu)
    (fun _ _ _ hu hp => (perform_cfg (.inr hp)).trans hu) (fun u work hu => (u.suspend_cfg c work).trans hu) rfl h

theorem exec_cfg {i : Instr} {s t : State} (h : exec i s = .next t) : t.cfg = s.cfg := by
  obtain ⟨_, _, hrun⟩ := exec_next h
  simpa using runWork_cfg hrun

/-- Settles O56: a step does nothing, performs an operation or resumes a call, and the last two are runs of actions. -/
theorem parametersNeverChange : Obligations.ParametersNeverChange := by
  intro s t h
  rcases step_next h with ⟨rfl, _⟩ | ⟨c, q, rest, i, _, hexec⟩ | ⟨c, q, rest, _, _, hrun⟩
  · rfl
  · simpa using exec_cfg hexec
  · simpa using runWork_cfg hrun

/-! ### Reset (R36) -/

/-- No context has made a call at reset. -/
@[simp] theorem State.reset_ctx (c : Nat) : State.reset.ctx c = Ctx.fresh := rfl

/-- A context between calls, with nothing left to do and no frame, is as calls leave it. -/
theorem Ctx.ok_of_between {cfg : Config} {x : Ctx} (hcall : x.call = none) (hwork : x.work = [])
    (hframe : x.frame = none) : x.Ok cfg where
  between _ := ⟨hwork, hframe⟩
  inside i hi := by simp [hcall] at hi
  position bits hb := by simp [hframe] at hb

/-- Settles O8: the values R36 states are those `State.reset` was given, its contexts all fresh. -/
theorem resetIsTheStartOfALifetime : Obligations.ResetIsTheStartOfALifetime := by
  have hfresh (c : Nat) : (State.reset.ctx c).seq = .idle ∧ (State.reset.ctx c).frame = none := by
    rw [State.reset_ctx]
    exact ⟨rfl, rfl⟩
  exact ⟨rfl, rfl, hfresh, rfl, rfl, rfl, rfl⟩

theorem inv_reset : Inv State.reset where
  contexts := reset_wf
  calls c := by
    rw [State.reset_ctx]
    exact Ctx.ok_of_between rfl rfl rfl
  region c k h := by simp [Ctx.fresh] at h
  vol := .inr rfl
  bas := .inr rfl
  onv := .inr rfl

theorem lifeInv_reset : LifeInv State.reset where
  sending c bits h := by simp [Ctx.fresh] at h
  boundary c i h := by simp [Ctx.fresh] at h
  starting c h := by simp [Ctx.fresh] at h
  oneStart c d h := by simp [Ctx.fresh] at h

/-- Settles O53: at reset no context is inside a call, a frame or the region, and the mirror is at `MIRROR_INIT`. -/
theorem invariantsHoldAtReset : Obligations.InvariantsHoldAtReset := ⟨inv_reset, lifeInv_reset⟩

end Sys2Proof.Machine

/-! Proofs about the memory (O11, O57, O54, O32): what the bus reaches, how the events of a step account for the
registers, that every step keeps the invariant of contexts, lock and mirror, and what a waiting context does. -/

namespace Sys2Proof.Machine

/-! ### The bus (R53) -/

theorem step_of_busRead {s : State} {c addr n : Nat} {rest : List Input}
    (hin : s.inputs = .busRead c addr n :: rest) : step s = runBusRead addr n (s.taking c none rest) := by
  simp [step, takeInput, hin]

theorem step_of_busWrite {s : State} {c addr n : Nat} {v : Word} {rest : List Input}
    (hin : s.inputs = .busWrite c addr n v :: rest) : step s = runBusWrite addr n v (s.taking c none rest) := by
  simp [step, takeInput, hin]

theorem runBusRead_of_some {s : State} {addr n : Nat} {r : Reg} (hr : busRegister s.cfg addr n = some r) :
    runBusRead addr n s = exec (busReadInstr r) s := by simp [runBusRead, hr]

theorem runBusRead_of_none {s : State} {addr n : Nat} (hr : busRegister s.cfg addr n = none) :
    runBusRead addr n s = .refused .badAccess := by simp [runBusRead, hr]

theorem runBusWrite_of_some {s : State} {addr n : Nat} {v : Word} {r : Reg} (hr : busRegister s.cfg addr n = some r) :
    runBusWrite addr n v s = exec (busWriteInstr v r) s := by simp [runBusWrite, hr]

theorem runBusWrite_of_none {s : State} {addr n : Nat} {v : Word} (hr : busRegister s.cfg addr n = none) :
    runBusWrite addr n v s = .refused .badAccess := by simp [runBusWrite, hr]

/-- Settles O11: `busRegister` finds the register of an address and 4 bytes, and nothing else. -/
theorem busReachesTheTenRegistersOnly : Obligations.BusReachesTheTenRegistersOnly := by
  intro s hwf
  refine ⟨fun c r rest hin => ?read, fun c r v rest hin => ?write, fun c addr n rest hno hin => ?noRead,
    fun c addr n v rest hno hin => ?noWrite⟩
  case read => exact (step_of_busRead hin).trans (runBusRead_of_some (busRegister_addr hwf r))
  case write => exact (step_of_busWrite hin).trans (runBusWrite_of_some (busRegister_addr hwf r))
  case noRead => exact (step_of_busRead hin).trans (runBusRead_of_none (busRegister_none hno))
  case noWrite => exact (step_of_busWrite hin).trans (runBusWrite_of_none (busRegister_none hno))

/-! ### The account of the registers (R56, R58, R59) -/

/-- What happened from `s` to `t` is accounted for by the events the trace has grown by. -/
def Accounted (s t : State) : Prop :=
  ∃ es, t.trace = s.trace ++ es
    ∧ Consistent s es
    ∧ t.fsel = (s.replayAll es).fsel
    ∧ t.latch = (s.replayAll es).latch

/-- Where the trace and the registers stand, there is nothing to account for. -/
theorem Accounted.of_same {s t : State} (htrace : t.trace = s.trace) (hfsel : t.fsel = s.fsel)
    (hlatch : t.latch = s.latch) : Accounted s t :=
  ⟨[], by simpa using htrace, trivial, hfsel, hlatch⟩

/-- One event accounts for what it leaves when it is replayed. -/
theorem Accounted.of_event {s t : State} {e : Event} (htrace : t.trace = s.trace ++ [e]) (hcons : Consistent s [e])
    (hfsel : t.fsel = (s.replay e).fsel) (hlatch : t.latch = (s.replay e).latch) : Accounted s t :=
  ⟨[e], htrace, hcons, hfsel, hlatch⟩

/-- Accounts are joined end to end. -/
theorem Accounted.trans {s t u : State} (h : Accounted s t) (k : Accounted t u) : Accounted s u := by
  obtain ⟨es, htrace, hcons, hfsel, hlatch⟩ := h
  obtain ⟨fs, ktrace, kcons, kfsel, klatch⟩ := k
  have hreplay := State.replayAll_congr hfsel hlatch fs
  refine ⟨es ++ fs, ?_, hcons.append (kcons.congr hfsel.symm hlatch.symm), ?_, ?_⟩
  · rw [ktrace, htrace, List.append_assoc]
  · rw [kfsel, State.replayAll_append, hreplay.1]
  · rw [klatch, State.replayAll_append, hreplay.2]

/-- A read of a function-select register returned the stored word, and a read changes no register (R90, R91). -/
theorem State.regRead_accounted (s : State) (c : Nat) (r : Reg) : Accounted s (s.regRead c r) := by
  obtain ⟨v, htrace, hv⟩ := s.regRead_trace c r
  refine .of_event htrace ⟨?_, trivial⟩ (s.regRead_fsel c r) (s.regRead_latch c r)
  cases r with
  | fsel k => exact hv k rfl
  | set k => trivial
  | clr k => trivial

/-- The event of a write replays to what the write left (R92, R93, R94). -/
theorem State.regWrite_accounted (s : State) (c : Nat) (r : Reg) (v : Word) : Accounted s (s.regWrite c r v) :=
  .of_event (s.regWrite_trace c r v) ⟨trivial, trivial⟩ (s.regWrite_fsel c r v) (s.regWrite_latch c r v)

/-- Every action is accounted for by its own event, if it has one. -/
theorem perform_accounted {c : Nat} {a : Action} {s s' : State}
    (h : perform c a s = .did s' ∨ perform c a s = .ended s') : Accounted s s' := by
  rcases h with h | h
  · rcases perform_did h with ⟨r, _, rfl⟩ | ⟨r, v, _, _, rfl⟩ | ⟨_, rfl⟩ | ⟨bits, _, rfl⟩ | ⟨_, _, rfl⟩ | ⟨_, _, rfl⟩
      | ⟨name, v, _, rfl⟩ | ⟨_, rfl⟩ | ⟨_, _, _, rfl⟩
    · exact s.regRead_accounted c r
    · exact s.regWrite_accounted c r v
    · exact .of_event (e := .settle c) (by simp) ⟨trivial, trivial⟩ (by simp [State.replay]) (by simp [State.replay])
    · exact .of_same (by simp) (by simp) (by simp)
    · exact .of_event (e := .acq c) (by simp) ⟨trivial, trivial⟩ (by simp [State.replay]) (by simp [State.replay])
    · exact .of_event (e := .rel c) (by simp) ⟨trivial, trivial⟩ (by simp [State.replay]) (by simp [State.replay])
    · exact .of_event (e := .accept c name v) (by simp) ⟨trivial, trivial⟩ (by simp [State.replay])
        (by simp [State.replay])
    · exact .of_same rfl rfl rfl
    · exact .of_same rfl rfl rfl
  · rcases perform_ended h with ⟨name, _, rfl⟩ | ⟨_, _, rfl⟩ | ⟨_, _, rfl⟩ | ⟨_, rfl⟩ | ⟨_, rfl⟩ | ⟨name, _, rfl⟩
    · exact .of_event (e := .reject c name) (by simp) ⟨trivial, trivial⟩ (by simp [State.replay])
        (by simp [State.replay])
    all_goals exact .of_same (by simp) (by simp) (by simp)

theorem runWork_accounted {c : Nat} {work : List Action} {q : Option Nat} {s t : State}
    (h : runWork c work q s = .next t) : Accounted s t :=
  runWork_keeps (P := Accounted s) (fun _ _ _ hu hp => hu.trans (perform_accounted (.inl hp)))
    (fun _ _ _ hu hp => hu.trans (perform_accounted (.inr hp)))
    (fun _ _ hu => hu.trans (.of_same (by simp) (by simp) (by simp))) (.of_same rfl rfl rfl) h

theorem exec_accounted {i : Instr} {s t : State} (h : exec i s = .next t) : Accounted s t := by
  obtain ⟨_, _, hrun⟩ := exec_next h
  have hentry : Accounted s (callEntry i (s.beginCall i)) := .of_same (by simp) (by simp) (by simp)
  exact hentry.trans (runWork_accounted hrun)

/-- Settles O57: what a step does is a run of actions, each accounted for by its own event. -/
theorem traceExplainsTheRegisters : Obligations.TraceExplainsTheRegisters := by
  intro s t h
  rcases step_next h with ⟨rfl, _⟩ | ⟨c, q, rest, i, _, hexec⟩ | ⟨c, q, rest, _, _, hrun⟩
  · exact Accounted.of_same rfl rfl rfl
  · have hbegin : Accounted s ((s.taking c q rest).newLifetime i) := .of_same (by simp) (by simp) (by simp)
    exact hbegin.trans (exec_accounted hexec)
  · have htaken : Accounted s (s.taking c q rest) := .of_same rfl rfl rfl
    exact htaken.trans (runWork_accounted hrun)

/-! ### The actions of a frame by position (R31) -/

/-- The actions of a frame between its acquire and its release. -/
def frameBody (cfg : Config) (bits : List Bool) : List Action :=
  setLevelActions (csPin cfg) .low ++ [.settle] ++ bits.flatMap (sendBitActions cfg)
    ++ setLevelActions (csPin cfg) .high

theorem frameActions_eq (cfg : Config) (bits : List Bool) :
    frameActions cfg bits = .acquire :: (frameBody cfg bits ++ [.release]) := by
  simp [frameActions, frameBody]

theorem frameBody_length (cfg : Config) (bits : List Bool) : (frameBody cfg bits).length = 3 + 6 * bits.length := by
  have hbit (v : Bool) : (sendBitActions cfg v).length = 6 := rfl
  simp [frameBody, setLevelActions, List.length_flatMap, hbit]
  omega

/-- The two kinds of action that drive the lines: a register write and a settle wait. -/
def Action.drives : Action → Bool
  | .write _ _ => true
  | .settle => true
  | _ => false

theorem drives_of_mem_sendBitActions {cfg : Config} {v : Bool} {a : Action} (h : a ∈ sendBitActions cfg v) :
    a.drives = true := by
  simp only [sendBitActions, setLevelActions, List.cons_append, List.nil_append, List.mem_cons, List.not_mem_nil,
    or_false] at h
  rcases h with rfl | rfl | rfl | rfl | rfl | rfl <;> rfl

theorem drives_of_mem_frameBody {cfg : Config} {bits : List Bool} {a : Action} (h : a ∈ frameBody cfg bits) :
    a.drives = true := by
  simp only [frameBody, setLevelActions, List.mem_append, List.mem_singleton, List.mem_flatMap] at h
  rcases h with ((rfl | rfl) | ⟨v, _, hv⟩) | rfl
  · rfl
  · rfl
  · exact drives_of_mem_sendBitActions hv
  · rfl

/-- The actions a frame is made of. -/
def Action.ofFrame (a : Action) : Bool := a.drives || decide (a = .acquire) || decide (a = .release)

theorem ofFrame_of_mem_frameActions {cfg : Config} {bits : List Bool} {a : Action} (h : a ∈ frameActions cfg bits) :
    a.ofFrame = true := by
  rw [frameActions_eq, List.mem_cons, List.mem_append, List.mem_singleton] at h
  rcases h with rfl | h | rfl
  · rfl
  · simp [Action.ofFrame, drives_of_mem_frameBody h]
  · rfl

/-- R31: at position 0 a frame acquires the lock, at its last position `4 + 6n` it releases it, and between the two it
drives the lines. -/
theorem frameActions_drop {cfg : Config} {bits : List Bool} {k : Nat} (hk : k ≤ 4 + 6 * bits.length) :
    ∃ a, (frameActions cfg bits).drop k = a :: (frameActions cfg bits).drop (k + 1)
      ∧ (k = 0 ∧ a = .acquire ∨ k ≠ 0 ∧ k < 4 + 6 * bits.length ∧ a.drives = true
          ∨ k = 4 + 6 * bits.length ∧ a = .release) := by
  have hlen := frameBody_length cfg bits
  have hlt : k < (frameActions cfg bits).length := by
    simp only [frameActions_eq, List.length_cons, List.length_append, List.length_nil, hlen]
    omega
  refine ⟨_, List.drop_eq_getElem_cons hlt, ?_⟩
  simp only [frameActions_eq]
  rcases k with _ | j
  · exact .inl ⟨rfl, rfl⟩
  · rw [List.getElem_cons_succ]
    rcases Nat.lt_or_ge j (frameBody cfg bits).length with hj | hj
    · rw [List.getElem_append_left hj]
      exact .inr (.inl ⟨by omega, by omega, drives_of_mem_frameBody (List.getElem_mem hj)⟩)
    · rw [List.getElem_append_right hj]
      exact .inr (.inr ⟨by omega, by simp⟩)

/-! ### What an action of a program is followed by -/

/-- What stands behind an action in the sequence of a call: a frame is entered with all its actions still to do, a value
is stored only if it is in range, and nothing but an action that ends the call is the last. -/
def Action.FollowedBy (cfg : Config) : Action → List Action → Prop
  | .enter bits, rest => rest = frameActions cfg bits ++ [.ret]
  | .accept name v, rest => v ≤ attrMax cfg name ∧ rest ≠ []
  | .reject _, _ => True
  | .register, _ => True
  | .ret, _ => True
  | .retWord, _ => True
  | .retText _, _ => True
  | _, rest => rest ≠ []

/-- Every action of the list is followed by what must stand behind it. -/
def WellSequenced (cfg : Config) : List Action → Prop
  | [] => True
  | a :: rest => a.FollowedBy cfg rest ∧ WellSequenced cfg rest

theorem WellSequenced.suffix {cfg : Config} {as bs : List Action} (h : WellSequenced cfg bs) (hs : as <:+ bs) :
    WellSequenced cfg as := by
  induction bs with
  | nil => rwa [List.suffix_nil.mp hs]
  | cons b rest ih =>
    rcases List.suffix_cons_iff.mp hs with rfl | hs
    · exact h
    · exact ih h.2 hs

/-- An action of a frame must not be the last of its sequence; nothing else is asked of it. -/
theorem Action.followedBy_of_ofFrame {cfg : Config} {a : Action} {rest : List Action} (ha : a.ofFrame = true)
    (hrest : rest ≠ []) : a.FollowedBy cfg rest := by
  cases a with
  | write r v => exact hrest
  | settle => exact hrest
  | acquire => exact hrest
  | release => exact hrest
  | _ => simp [Action.ofFrame, Action.drives] at ha

theorem wellSequenced_append_ret {cfg : Config} {as : List Action} (h : ∀ a ∈ as, a.ofFrame = true) :
    WellSequenced cfg (as ++ [.ret]) := by
  induction as with
  | nil => exact ⟨trivial, trivial⟩
  | cons a rest ih =>
    obtain ⟨ha, hrest⟩ := List.forall_mem_cons.mp h
    exact ⟨Action.followedBy_of_ofFrame ha (by simp), ih hrest⟩

theorem wellSequenced_frame (cfg : Config) (bits : List Bool) : WellSequenced cfg (frameActions cfg bits ++ [.ret]) :=
  wellSequenced_append_ret fun _ => ofFrame_of_mem_frameActions

theorem wellSequenced_configure (cfg : Config) (p : Pin) (d : Direction) :
    WellSequenced cfg (configureActions cfg p d ++ [.ret]) := by
  unfold configureActions
  split <;> simp [WellSequenced, Action.FollowedBy]

theorem wellSequenced_forward (cfg : Config) (name : Attr) (v : Nat) :
    WellSequenced cfg (forwardActions cfg name v ++ [.ret]) := by
  cases name with
  | volume => exact ⟨rfl, wellSequenced_frame cfg _⟩
  | bass => exact ⟨rfl, wellSequenced_frame cfg _⟩
  | on => simp [forwardActions, setLevelActions, WellSequenced, Action.FollowedBy]

theorem wellSequenced_store (cfg : Config) (name : Attr) (t : Text) : WellSequenced cfg (storeActions cfg name t) := by
  unfold storeActions
  split
  · rename_i v hv
    exact ⟨⟨acceptedValue_le hv, by simp⟩, wellSequenced_forward cfg name v⟩
  · exact ⟨trivial, trivial⟩

theorem wellSequenced_start (cfg : Config) : WellSequenced cfg (startActions cfg) := by
  unfold startActions configureActions
  split <;> simp [setLevelActions, WellSequenced, Action.FollowedBy]

/-- Every call's sequence is well sequenced. -/
theorem wellSequenced_program (cfg : Config) (i : Instr) : WellSequenced cfg (program cfg i) := by
  cases i with
  | loadA m => exact wellSequenced_frame cfg _
  | loadB m => exact wellSequenced_frame cfg _
  | loadAB m => exact wellSequenced_frame cfg _
  | sendFrame bits => exact wellSequenced_frame cfg bits
  | write ch m =>
    simp only [program]
    split
    · exact wellSequenced_frame cfg _
    · trivial
  | fselInput pin | fselOutput pin | configure pin d =>
    simp only [program]
    split
    · exact wellSequenced_configure cfg _ _
    · trivial
  | sendBit v => exact wellSequenced_append_ret fun a ha => by simp [Action.ofFrame, drives_of_mem_sendBitActions ha]
  | storeVolume t => exact wellSequenced_store cfg .volume t
  | storeBass t => exact wellSequenced_store cfg .bass t
  | storeOn t => exact wellSequenced_store cfg .on t
  | start => exact wellSequenced_start cfg
  | regRead n | regWrite n v | setLevel pin l =>
    simp only [program]
    split <;> simp [setLevelActions, WellSequenced, Action.FollowedBy]
  | _ => simp [program, WellSequenced, Action.FollowedBy]

/-! ### The record of a context inside a call -/

theorem Ctx.Ok.call_of_work {cfg : Config} {x : Ctx} {a : Action} {rest : List Action} (h : x.Ok cfg)
    (hw : x.work = a :: rest) : ∃ i, x.call = some i := by
  cases hc : x.call with
  | none => exact absurd (h.between hc).1 (by simp [hw])
  | some i => exact ⟨i, rfl⟩

theorem Ctx.Ok.followedBy {cfg : Config} {x : Ctx} {a : Action} {rest : List Action} (h : x.Ok cfg)
    (hw : x.work = a :: rest) : a.FollowedBy cfg rest := by
  obtain ⟨i, hi⟩ := h.call_of_work hw
  have hseq := (wellSequenced_program cfg i).suffix (h.inside i hi)
  rw [hw] at hseq
  exact hseq.1

/-- R31: inside a frame the next action of the context is that of its position. -/
theorem Ctx.Ok.position_cases {cfg : Config} {x : Ctx} {a : Action} {rest : List Action} {bits : List Bool}
    (h : x.Ok cfg) (hw : x.work = a :: rest) (hf : x.frame = some bits) :
    ∃ k, x.seq = .at k ∧ rest = (frameActions cfg bits).drop (k + 1) ++ [.ret]
      ∧ (k = 0 ∧ a = .acquire ∨ k ≠ 0 ∧ k < 4 + 6 * bits.length ∧ a.drives = true
          ∨ k = 4 + 6 * bits.length ∧ a = .release) := by
  obtain ⟨k, hseq, hk, hwork⟩ := h.position bits hf
  obtain ⟨b, hdrop, hb⟩ := frameActions_drop (cfg := cfg) hk
  rw [hw, hdrop, List.cons_append] at hwork
  obtain ⟨rfl, rfl⟩ := List.cons.inj hwork
  exact ⟨k, hseq, rfl, hb⟩

/-- A context whose next action is none of a frame's is inside none. -/
theorem Ctx.Ok.noFrame {cfg : Config} {x : Ctx} {a : Action} {rest : List Action} (h : x.Ok cfg)
    (hw : x.work = a :: rest) (ha : a.ofFrame = false) : x.frame = none := by
  cases hf : x.frame with
  | none => rfl
  | some bits =>
    obtain ⟨k, _, _, ⟨_, rfl⟩ | ⟨_, _, hd⟩ | ⟨_, rfl⟩⟩ := h.position_cases hw hf
    · simp [Action.ofFrame] at ha
    · simp [Action.ofFrame, hd] at ha
    · simp [Action.ofFrame] at ha

/-- The record as a call begins, with its whole sequence to do, given what it says of a frame. -/
theorem Ctx.ok_of_call {cfg : Config} {x : Ctx} {i : Instr} (hcall : x.call = some i) (hwork : x.work = program cfg i)
    (hpos : ∀ bits, x.frame = some bits → ∃ k, x.seq = .at k ∧ k ≤ 4 + 6 * bits.length
      ∧ x.work = (frameActions cfg bits).drop k ++ [.ret]) : x.Ok cfg where
  between hx := by simp [hcall] at hx
  inside j hj := by
    obtain rfl : i = j := Option.some.inj (hcall.symm.trans hj)
    rw [hwork]
  position := hpos

/-- The record after one action more of the same call, given what it says of a frame. -/
theorem Ctx.Ok.tail {cfg : Config} {x y : Ctx} {a : Action} {rest : List Action} (h : x.Ok cfg)
    (hw : x.work = a :: rest) (hcall : y.call = x.call) (hwork : y.work = rest)
    (hpos : ∀ bits, y.frame = some bits → ∃ k, y.seq = .at k ∧ k ≤ 4 + 6 * bits.length
      ∧ y.work = (frameActions cfg bits).drop k ++ [.ret]) : y.Ok cfg where
  between hy := by
    obtain ⟨i, hi⟩ := h.call_of_work hw
    simp [hcall, hi] at hy
  inside i hi := by
    have hsuffix := h.inside i (hcall ▸ hi)
    rw [hw] at hsuffix
    rw [hwork]
    exact (List.suffix_cons a rest).trans hsuffix
  position := hpos

/-- The record after an action that leaves the context outside every frame. -/
theorem Ctx.Ok.tail_noFrame {cfg : Config} {x y : Ctx} {a : Action} {rest : List Action} (h : x.Ok cfg)
    (hw : x.work = a :: rest) (hcall : y.call = x.call) (hwork : y.work = rest) (hf : y.frame = none) : y.Ok cfg :=
  h.tail hw hcall hwork fun bits hb => by simp [hf] at hb

/-- The record of a context that runs, with the work it still has to do in place of what it stored when it last
stopped. -/
def Ctx.withWork (x : Ctx) (work : List Action) : Ctx := { x with work := work }

/-- The record after a register write or a settle wait: inside a frame, one position further (R31). -/
theorem Ctx.Ok.advance {cfg : Config} {x : Ctx} {a : Action} {rest : List Action} (h : (x.withWork (a :: rest)).Ok cfg)
    (hacq : a ≠ .acquire) (hrel : a ≠ .release) : (x.advance.withWork rest).Ok cfg := by
  refine h.tail rfl x.advance_call rfl fun bits hb => ?_
  have hf : x.frame = some bits := x.advance_frame.symm.trans hb
  obtain ⟨k, hseq, hrest, ⟨_, ha⟩ | ⟨h0, hlt, _⟩ | ⟨_, ha⟩⟩ := h.position_cases rfl hf
  · exact absurd ha hacq
  · obtain ⟨j, rfl⟩ := Nat.exists_eq_succ_of_ne_zero h0
    rw [Ctx.advance_of_frame hf hseq]
    exact ⟨j + 2, rfl, hlt, hrest⟩
  · exact absurd ha hrel

/-- The record after the acquire: inside a frame, at position 1 (R31, R144). -/
theorem Ctx.Ok.acquire {cfg : Config} {x : Ctx} {rest : List Action} (h : (x.withWork (.acquire :: rest)).Ok cfg) :
    (Ctx.withWork { x with seq := .at 1 } rest).Ok cfg := by
  refine h.tail rfl rfl rfl fun bits hf => ?_
  obtain ⟨k, _, hrest, ⟨rfl, _⟩ | ⟨_, _, hd⟩ | ⟨_, ha⟩⟩ := h.position_cases rfl hf
  · exact ⟨1, rfl, by omega, hrest⟩
  · cases hd
  · cases ha

/-- The record after a frame was entered, with all its actions still to do (R30, R31). -/
theorem Ctx.Ok.enter {cfg : Config} {x : Ctx} {bits : List Bool} {rest : List Action}
    (h : (x.withWork (.enter bits :: rest)).Ok cfg) :
    (Ctx.withWork { x with seq := .at 0, frame := some bits } rest).Ok cfg := by
  refine h.tail rfl rfl rfl fun bits' hf => ?_
  cases hf
  exact ⟨0, rfl, Nat.zero_le _, h.followedBy rfl⟩

/-- The record after a call returned outside every frame. -/
theorem State.finish_ctx_ok {cfg : Config} {s : State} {c : Nat} {r : Result} (hf : (s.ctx c).frame = none) :
    ((s.finish c r).ctx c).Ok cfg := by
  rw [State.finish_ctx_same]
  exact Ctx.ok_of_between rfl rfl hf

/-! ### The region and the mirror -/

/-- A context past the acquire step of a region holds the lock (R62). -/
def RegionHeld (s : State) : Prop := ∀ c k, (s.ctx c).seq = .at (k + 1) → s.txLock = .held c

theorem RegionHeld.congr {s t : State} (h : RegionHeld s) (hctx : ∀ c, t.ctx c = s.ctx c)
    (hlock : t.txLock = s.txLock) : RegionHeld t := fun c k hk => hlock.trans (h c k (hctx c ▸ hk))

/-- A record changed without moving its context into a region. -/
theorem RegionHeld.mapCtx {s : State} (h : RegionHeld s) (c : Nat) (f : Ctx → Ctx)
    (hf : ∀ k, (f (s.ctx c)).seq = .at (k + 1) → ∃ j, (s.ctx c).seq = .at (j + 1)) : RegionHeld (s.mapCtx c f) := by
  intro d k hk
  by_cases hd : d = c
  · subst hd
    rw [State.mapCtx_ctx_same] at hk
    obtain ⟨j, hj⟩ := hf k hk
    exact h d j hj
  · rw [State.mapCtx_ctx_other _ _ hd] at hk
    exact h d k hk

theorem RegionHeld.keep {s : State} (h : RegionHeld s) (c : Nat) (v : Word) : RegionHeld (s.keep c v) :=
  h.mapCtx c _ fun k hk => ⟨k, hk⟩

theorem RegionHeld.advance {s : State} (h : RegionHeld s) (c : Nat) : RegionHeld (s.advance c) :=
  h.mapCtx c _ fun _ hk => Ctx.advance_seq hk

theorem RegionHeld.finish {s : State} (h : RegionHeld s) (c : Nat) (r : Result) : RegionHeld (s.finish c r) :=
  h.mapCtx c _ fun k hk => ⟨k, hk⟩

theorem RegionHeld.suspend {s : State} (h : RegionHeld s) (c : Nat) (work : List Action) :
    RegionHeld (s.suspend c work) := h.mapCtx c _ fun k hk => ⟨k, hk⟩

theorem RegionHeld.beginCall {s : State} (h : RegionHeld s) (i : Instr) : RegionHeld (s.beginCall i) :=
  h.mapCtx s.cur _ fun k hk => ⟨k, hk⟩

theorem RegionHeld.enterFrame {s : State} (h : RegionHeld s) (c : Nat) (bits : List Bool) :
    RegionHeld (s.enterFrame c bits) := h.mapCtx c _ fun _ hk => by cases hk

theorem RegionHeld.await {s : State} (h : RegionHeld s) (c : Nat) : RegionHeld (s.await c) :=
  h.mapCtx c _ fun _ hk => by cases hk

/-- With the lock free no context is in a region, so the one that takes the lock is alone in it (R144). -/
theorem RegionHeld.acquire {s : State} (h : RegionHeld s) (hfree : s.txLock = .free) (c : Nat) :
    RegionHeld (((s.putLock (.held c)).emit (.acq c)).mapCtx c fun x => { x with seq := .at 1 }) := by
  intro d k hk
  by_cases hd : d = c
  · simp [hd]
  · rw [State.mapCtx_ctx_other _ _ hd, State.emit_ctx, State.putLock_ctx] at hk
    simp [h d k hk] at hfree

/-- The holder leaves the region with the release, and no other context was in it (R145). -/
theorem RegionHeld.release {s : State} {c : Nat} (h : RegionHeld s) (hheld : s.txLock = .held c) :
    RegionHeld (((s.putLock .free).emit (.rel c)).mapCtx c fun x => { x with seq := .idle, frame := none }) := by
  intro d k hk
  by_cases hd : d = c
  · subst hd
    simp at hk
  · rw [State.mapCtx_ctx_other _ _ hd, State.emit_ctx, State.putLock_ctx] at hk
    have hother := h d k hk
    rw [hheld] at hother
    exact absurd (Lock.held.inj hother).symm hd

/-- Every action keeps the region with the holder of the lock (R62). -/
theorem perform_regionHeld {c : Nat} {a : Action} {s s' : State} (hs : RegionHeld s)
    (h : perform c a s = .did s' ∨ perform c a s = .ended s') : RegionHeld s' := by
  rcases h with h | h
  · rcases perform_did h with ⟨r, _, rfl⟩ | ⟨r, v, _, _, rfl⟩ | ⟨_, rfl⟩ | ⟨bits, _, rfl⟩ | ⟨_, hfree, rfl⟩
      | ⟨_, hheld, rfl⟩ | ⟨name, v, _, rfl⟩ | ⟨_, rfl⟩ | ⟨_, _, _, rfl⟩
    · cases r <;> exact RegionHeld.keep (hs.congr (fun _ => rfl) rfl) c _
    · exact RegionHeld.advance (hs.congr (by simp) (by simp)) c
    · exact RegionHeld.advance (hs.congr (by simp) (by simp)) c
    · exact hs.enterFrame c bits
    · exact hs.acquire hfree c
    · exact hs.release hheld
    · exact hs.congr (by simp) (by simp)
    · exact hs.congr (fun _ => rfl) rfl
    · exact hs.congr (fun _ => rfl) rfl
  · rcases perform_ended h with ⟨name, _, rfl⟩ | ⟨_, _, rfl⟩ | ⟨_, _, rfl⟩ | ⟨_, rfl⟩ | ⟨_, rfl⟩ | ⟨name, _, rfl⟩
    all_goals exact RegionHeld.finish (hs.congr (fun _ => rfl) rfl) c _

/-- Each mirror value is in its range or still the initial one (R32). -/
structure MirrorInRange (s : State) : Prop where
  vol : s.vol ≤ 1023 ∨ s.vol = s.cfg.mirrorInit.vol
  bas : s.bas ≤ 1023 ∨ s.bas = s.cfg.mirrorInit.bas
  onv : s.onv ≤ s.cfg.onMax ∨ s.onv = s.cfg.mirrorInit.onv

theorem MirrorInRange.congr {s t : State} (h : MirrorInRange s) (hcfg : t.cfg = s.cfg) (hvol : t.vol = s.vol)
    (hbas : t.bas = s.bas) (honv : t.onv = s.onv) : MirrorInRange t where
  vol := by rw [hvol, hcfg]; exact h.vol
  bas := by rw [hbas, hcfg]; exact h.bas
  onv := by rw [honv, hcfg]; exact h.onv

/-- An accepted value is stored in range. -/
theorem MirrorInRange.store {s : State} (h : MirrorInRange s) {name : Attr} {v : Nat} (hv : v ≤ attrMax s.cfg name) :
    MirrorInRange (s.store name v) := by
  cases name with
  | volume => exact ⟨.inl hv, h.bas, h.onv⟩
  | bass => exact ⟨h.vol, .inl hv, h.onv⟩
  | on => exact ⟨h.vol, h.bas, .inl hv⟩

/-- A new lifetime begins with the initial mirror (R36). -/
theorem MirrorInRange.newLifetime {s : State} (h : MirrorInRange s) (i : Instr) : MirrorInRange (s.newLifetime i) := by
  rcases s.newLifetime_cases i with ⟨_, _, hnew⟩ | ⟨_, hsame⟩
  · rw [hnew]
    exact ⟨.inr rfl, .inr rfl, .inr rfl⟩
  · rwa [hsame]

/-- Only the store of an accepted value touches the mirror, and the value is one its sequence allows. -/
theorem perform_mirrorInRange {c : Nat} {a : Action} {rest : List Action} {s s' : State} (hs : MirrorInRange s)
    (ha : a.FollowedBy s.cfg rest) (h : perform c a s = .did s' ∨ perform c a s = .ended s') : MirrorInRange s' := by
  rcases h with h | h
  · rcases perform_did h with ⟨r, _, rfl⟩ | ⟨r, v, _, _, rfl⟩ | ⟨_, rfl⟩ | ⟨bits, _, rfl⟩ | ⟨_, _, rfl⟩ | ⟨_, _, rfl⟩
      | ⟨name, v, rfl, rfl⟩ | ⟨_, rfl⟩ | ⟨_, _, _, rfl⟩
    · exact hs.congr (by simp) (by simp) (by simp) (by simp)
    · exact hs.congr (by simp) (by simp) (by simp) (by simp)
    · exact hs.congr rfl rfl rfl rfl
    · exact hs.congr rfl rfl rfl rfl
    · exact hs.congr rfl rfl rfl rfl
    · exact hs.congr rfl rfl rfl rfl
    · exact (hs.store ha.1).congr rfl rfl rfl rfl
    · exact hs.congr rfl rfl rfl rfl
    · exact hs.congr rfl rfl rfl rfl
  · rcases perform_ended h with ⟨name, _, rfl⟩ | ⟨_, _, rfl⟩ | ⟨_, _, rfl⟩ | ⟨_, rfl⟩ | ⟨_, rfl⟩ | ⟨name, _, rfl⟩
    all_goals exact hs.congr rfl rfl rfl rfl

/-! ### The contexts after an action -/

/-- An action of one context leaves the records of the others alone. -/
theorem perform_ctx_other {c d : Nat} {a : Action} {s s' : State} (hd : d ≠ c)
    (h : perform c a s = .did s' ∨ perform c a s = .ended s') : s'.ctx d = s.ctx d := by
  rcases h with h | h
  · rcases perform_did h with ⟨r, _, rfl⟩ | ⟨r, v, _, _, rfl⟩ | ⟨_, rfl⟩ | ⟨bits, _, rfl⟩ | ⟨_, _, rfl⟩ | ⟨_, _, rfl⟩
      | ⟨name, v, _, rfl⟩ | ⟨_, rfl⟩ | ⟨_, _, _, rfl⟩
    · exact s.regRead_ctx_other r hd
    · exact s.regWrite_ctx_other r v hd
    · exact State.advance_ctx_other _ hd
    · exact s.enterFrame_ctx_other bits hd
    · exact State.mapCtx_ctx_other _ _ hd
    · exact State.mapCtx_ctx_other _ _ hd
    · simp
    · rfl
    · rfl
  · rcases perform_ended h with ⟨name, _, rfl⟩ | ⟨_, _, rfl⟩ | ⟨_, _, rfl⟩ | ⟨_, rfl⟩ | ⟨_, rfl⟩ | ⟨name, _, rfl⟩
    all_goals exact State.finish_ctx_other _ _ hd

/-- An action that lets its call go on is not the last of it. -/
theorem perform_did_rest {c : Nat} {a : Action} {rest : List Action} {cfg : Config} {s s' : State}
    (h : perform c a s = .did s') (ha : a.FollowedBy cfg rest) : rest ≠ [] := by
  rcases perform_did h with ⟨r, rfl, _⟩ | ⟨r, v, rfl | ⟨p, d, rfl⟩ | ⟨p, rfl⟩ | ⟨p, d, rfl⟩, _⟩ | ⟨rfl, _⟩
    | ⟨bits, rfl, _⟩ | ⟨rfl, _⟩ | ⟨rfl, _⟩ | ⟨name, v, rfl, _⟩ | ⟨rfl, _⟩ | ⟨rfl, _⟩
  any_goals exact ha
  · have hrest : rest = frameActions cfg bits ++ [.ret] := ha
    simp [hrest]
  · exact ha.2

/-- After an action that lets its call go on, the record is one that calls leave, with the rest of the work. -/
theorem perform_did_ok {c : Nat} {a : Action} {rest : List Action} {s s' : State} (h : perform c a s = .did s')
    (hx : ((s.ctx c).withWork (a :: rest)).Ok s.cfg) : ((s'.ctx c).withWork rest).Ok s.cfg := by
  have outside (ha : a.ofFrame = false) : (s.ctx c).frame = none := hx.noFrame rfl ha
  rcases perform_did h with ⟨r, rfl, rfl⟩ | ⟨r, v, ha, _, rfl⟩ | ⟨rfl, rfl⟩ | ⟨bits, rfl, rfl⟩ | ⟨rfl, _, rfl⟩
    | ⟨rfl, _, rfl⟩ | ⟨name, v, rfl, rfl⟩ | ⟨rfl, rfl⟩ | ⟨rfl, _, _, rfl⟩
  · obtain ⟨v, hv⟩ := s.regRead_ctx_same c r
    rw [hv]
    exact hx.tail_noFrame rfl rfl rfl (outside rfl)
  · have hne : a ≠ .acquire ∧ a ≠ .release := by
      rcases ha with rfl | ⟨p, d, rfl⟩ | ⟨p, rfl⟩ | ⟨p, d, rfl⟩ <;> simp
    rw [State.regWrite_ctx_same]
    exact hx.advance hne.1 hne.2
  · rw [State.advance_ctx_same, State.emit_ctx]
    exact hx.advance (by simp) (by simp)
  · rw [State.enterFrame_ctx_same]
    exact hx.enter
  · rw [State.mapCtx_ctx_same]
    exact hx.acquire
  · rw [State.mapCtx_ctx_same]
    exact hx.tail_noFrame rfl rfl rfl rfl
  · rw [State.emit_ctx, State.store_ctx]
    exact hx.tail_noFrame rfl rfl rfl (outside rfl)
  · exact hx.tail_noFrame rfl rfl rfl (outside rfl)
  · exact hx.tail_noFrame rfl rfl rfl (outside rfl)

/-- After an action that ends its call, the record is one that calls leave: a call returns outside every frame. -/
theorem perform_ended_ok {c : Nat} {a : Action} {rest : List Action} {s s' : State} (h : perform c a s = .ended s')
    (hx : ((s.ctx c).withWork (a :: rest)).Ok s.cfg) : (s'.ctx c).Ok s.cfg := by
  have outside (ha : a.ofFrame = false) : (s.ctx c).frame = none := hx.noFrame rfl ha
  rcases perform_ended h with ⟨name, rfl, rfl⟩ | ⟨rfl, _, rfl⟩ | ⟨rfl, _, rfl⟩ | ⟨rfl, rfl⟩ | ⟨rfl, rfl⟩
    | ⟨name, rfl, rfl⟩
  all_goals exact State.finish_ctx_ok (outside rfl)

/-! ### The invariant over a run -/

theorem Inv.regionHeld {s : State} (h : Inv s) : RegionHeld s := h.region

theorem Inv.mirrorInRange {s : State} (h : Inv s) : MirrorInRange s := ⟨h.vol, h.bas, h.onv⟩

/-- The invariant while context `c` runs with `work` still to do: its record may still list what it stored when it last
stopped, and is one that calls leave once `work` stands there. -/
structure Running (c : Nat) (work : List Action) (s : State) : Prop where
  contexts : s.ctxs.wf = true
  caller : ((s.ctx c).withWork work).Ok s.cfg
  others : ∀ d, d ≠ c → (s.ctx d).Ok s.cfg
  region : RegionHeld s
  mirror : MirrorInRange s

/-- A context of a machine that meets the invariant may run with the work it stored. -/
theorem Inv.running {s : State} (h : Inv s) (c : Nat) : Running c (s.ctx c).work s where
  contexts := h.contexts
  caller := h.calls c
  others d _ := h.calls d
  region := h.regionHeld
  mirror := h.mirrorInRange

/-- The invariant from its parts, the record of one context apart from the others. -/
theorem inv_of_caller {s : State} {c : Nat} (hwf : s.ctxs.wf = true) (hcaller : (s.ctx c).Ok s.cfg)
    (hothers : ∀ d, d ≠ c → (s.ctx d).Ok s.cfg) (hregion : RegionHeld s) (hmirror : MirrorInRange s) : Inv s where
  contexts := hwf
  calls d := by
    by_cases hd : d = c
    · exact hd ▸ hcaller
    · exact hothers d hd
  region := hregion
  vol := hmirror.vol
  bas := hmirror.bas
  onv := hmirror.onv

/-- The machine meets the invariant where the running context has stored the work it still has to do. -/
theorem Running.inv {c : Nat} {work : List Action} {s : State} (h : Running c work s) (hw : (s.ctx c).work = work) :
    Inv s :=
  inv_of_caller h.contexts (by subst hw; exact h.caller) h.others h.region h.mirror

/-- A preempted or waiting context leaves the machine in the invariant. -/
theorem Running.suspend {c : Nat} {work : List Action} {s : State} (h : Running c work s) : Inv (s.suspend c work) := by
  refine inv_of_caller (c := c) (State.mapCtx_wf h.contexts c _) ?_ (fun d hd => ?_) (h.region.suspend c work)
    (h.mirror.congr rfl rfl rfl rfl)
  · rw [State.suspend_ctx_same]
    exact h.caller
  · rw [State.suspend_ctx_other _ _ hd]
    exact h.others d hd

/-- One action of the running context: the invariant goes on with the rest of the work. -/
theorem Running.did {c : Nat} {a : Action} {rest : List Action} {s s' : State} (h : Running c (a :: rest) s)
    (hp : perform c a s = .did s') : Running c rest s' := by
  have hcfg : s'.cfg = s.cfg := perform_cfg (.inl hp)
  refine ⟨perform_wf h.contexts (.inl hp), ?_, fun d hd => ?_, perform_regionHeld h.region (.inl hp),
    perform_mirrorInRange h.mirror (h.caller.followedBy rfl) (.inl hp)⟩
  · rw [hcfg]
    exact perform_did_ok hp h.caller
  · rw [hcfg, perform_ctx_other hd (.inl hp)]
    exact h.others d hd

/-- An action that ends the call leaves the machine in the invariant. -/
theorem Running.ended {c : Nat} {a : Action} {rest : List Action} {s s' : State} (h : Running c (a :: rest) s)
    (hp : perform c a s = .ended s') : Inv s' := by
  have hcfg : s'.cfg = s.cfg := perform_cfg (.inr hp)
  refine inv_of_caller (c := c) (perform_wf h.contexts (.inr hp)) ?_ (fun d hd => ?_)
    (perform_regionHeld h.region (.inr hp)) (perform_mirrorInRange h.mirror (h.caller.followedBy rfl) (.inr hp))
  · rw [hcfg]
    exact perform_ended_ok hp h.caller
  · rw [hcfg, perform_ctx_other hd (.inr hp)]
    exact h.others d hd

/-- A run ends in the invariant, wherever it stops: an action that goes on is never the last, so a run with work to do
is suspended or ends with an action that ends its call. -/
theorem runWork_inv {c : Nat} {work : List Action} {q : Option Nat} {s t : State} (h : Running c work s)
    (hstored : work = [] → (s.ctx c).work = []) (hrun : runWork c work q s = .next t) : Inv t := by
  induction work generalizing q s with
  | nil =>
    cases hrun
    exact h.inv (hstored rfl)
  | cons a rest ih =>
    rcases runWork_next hrun with ⟨rfl, _⟩ | ⟨_, s', hp, hrun'⟩ | ⟨_, hp⟩
    · exact h.suspend
    · exact ih (h.did hp) (fun hnil => absurd hnil (perform_did_rest hp (h.caller.followedBy rfl))) hrun'
    · exact h.ended hp

/-! ### The invariant over a step -/

theorem Inv.taking {s : State} (h : Inv s) (c : Nat) (q : Option Nat) (rest : List Input) : Inv (s.taking c q rest) :=
  ⟨h.contexts, h.calls, h.region, h.vol, h.bas, h.onv⟩

theorem Inv.newLifetime {s : State} (h : Inv s) (i : Instr) : Inv (s.newLifetime i) := by
  obtain ⟨hvol, hbas, honv⟩ := h.mirrorInRange.newLifetime i
  refine ⟨by simpa using h.contexts, fun c => ?_, ?_, hvol, hbas, honv⟩
  · rw [State.newLifetime_ctx, State.newLifetime_cfg]
    exact h.calls c
  · exact h.regionHeld.congr (s.newLifetime_ctx i) (s.newLifetime_txLock i)

/-- The entry of a call moves no context into a region. -/
theorem RegionHeld.callEntry {s : State} (h : RegionHeld s) (i : Instr) : RegionHeld (callEntry i s) := by
  unfold Machine.callEntry
  split
  · exact h.enterFrame s.cur _
  · split
    · exact h.await s.cur
    · exact h

/-- A direct transmission enters its frame at the call. -/
theorem callEntry_of_frame {i : Instr} {bits : List Bool} (hi : frameOf i = some bits) (s : State) :
    callEntry i s = s.enterFrame s.cur bits := by
  simp [callEntry, hi]

/-- Every other call enters no frame, though a direct acquire stands at `At(0)`. -/
theorem callEntry_ctx_of_noFrame {i : Instr} (hi : frameOf i = none) (s : State) :
    ∃ pos, (callEntry i s).ctx s.cur = { s.ctx s.cur with seq := pos } := by
  simp only [callEntry, hi]
  split
  · exact ⟨.at 0, s.await_ctx_same s.cur⟩
  · exact ⟨(s.ctx s.cur).seq, rfl⟩

/-- A call stores no work before it stops. -/
theorem callEntry_work (i : Instr) (s : State) : ((callEntry i s).ctx s.cur).work = (s.ctx s.cur).work := by
  cases hi : frameOf i with
  | none =>
    obtain ⟨pos, hctx⟩ := callEntry_ctx_of_noFrame hi s
    rw [hctx]
  | some bits => rw [callEntry_of_frame hi, State.enterFrame_ctx_same]

/-- A context that was outside every frame begins a call with the whole sequence to do, and with the frame it enters. -/
theorem callEntry_ok {i : Instr} {s : State} (hallowed : Allowed i s) (hframe : (s.ctx s.cur).frame = none) :
    (((callEntry i (s.beginCall i)).ctx s.cur).withWork (program s.cfg i)).Ok s.cfg := by
  have hbegun := s.beginCall_ctx_same i
  cases hi : frameOf i with
  | none =>
    obtain ⟨pos, hctx⟩ := callEntry_ctx_of_noFrame hi (s.beginCall i)
    rw [State.beginCall_cur, hbegun] at hctx
    rw [hctx]
    exact Ctx.ok_of_call rfl rfl fun bits hb => absurd hb (by simp [Ctx.withWork, hframe])
  | some bits =>
    obtain ⟨_, hprogram⟩ := hallowed.frame bits hi
    rw [callEntry_of_frame hi, State.beginCall_cur, State.enterFrame_ctx_same, hbegun]
    refine Ctx.ok_of_call rfl rfl fun bits' hb => ?_
    cases hb
    exact ⟨0, rfl, Nat.zero_le _, hprogram⟩

/-- Every call keeps the invariant. -/
theorem exec_inv {i : Instr} {s t : State} (h : Inv s) (hexec : exec i s = .next t) : Inv t := by
  obtain ⟨hidle, hallowed, hrun⟩ := exec_next hexec
  obtain ⟨hwork, hframe⟩ := (h.calls s.cur).between hidle
  have hbegun : Running s.cur (program s.cfg i) (callEntry i (s.beginCall i)) := by
    refine ⟨callEntry_wf (State.mapCtx_wf h.contexts _ _) i, ?_, fun d hd => ?_,
      (h.regionHeld.beginCall i).callEntry i, ?_⟩
    · simpa using callEntry_ok hallowed hframe
    · rw [callEntry_cfg, callEntry_ctx_other i (s.beginCall i) hd, State.beginCall_ctx_other s i hd]
      exact h.calls d
    · exact h.mirrorInRange.congr (by simp) (by simp) (by simp) (by simp)
  have hstored : ((callEntry i (s.beginCall i)).ctx s.cur).work = [] := by
    have hkept := callEntry_work i (s.beginCall i)
    rwa [State.beginCall_cur, State.beginCall_ctx_same, hwork] at hkept
  exact runWork_inv hbegun (fun _ => hstored) hrun

/-- Settles O54: a step does nothing, performs an operation in the lifetime it finds or begins, or resumes a call with
the work its context stored; the last two are runs, and every action of a run keeps the invariant. -/
theorem stepKeepsTheInvariant : Obligations.StepKeepsTheInvariant := by
  intro s t h hstep
  rcases step_next hstep with ⟨rfl, _⟩ | ⟨c, q, rest, i, _, hexec⟩ | ⟨c, q, rest, _, _, hrun⟩
  · exact h
  · exact exec_inv ((h.taking c q rest).newLifetime i) hexec
  · exact runWork_inv ((h.taking c q rest).running c) id hrun

/-! ### A context that waits (R62, R144) -/

/-- A context put aside with the work it had already stored leaves the machine as it was. -/
theorem State.suspend_stored {s : State} (hwf : s.ctxs.wf = true) (c : Nat) : s.suspend c (s.ctx c).work = s := by
  have hctxs : (s.suspend c (s.ctx c).work).ctxs = s.ctxs := by
    refine Contexts.ext (State.mapCtx_wf hwf c _) hwf fun d => ?_
    by_cases hd : d = c
    · subst hd
      exact State.suspend_ctx_same s d _
    · exact State.suspend_ctx_other s _ hd
  calc s.suspend c (s.ctx c).work = { s with ctxs := (s.suspend c (s.ctx c).work).ctxs } := rfl
    _ = { s with ctxs := s.ctxs } := by rw [hctxs]
    _ = s := rfl

/-- A context before the first step of its frame has the acquire of the lock to do next (R31). -/
theorem Ctx.Ok.work_at_zero {cfg : Config} {x : Ctx} {bits : List Bool} (h : x.Ok cfg) (hf : x.frame = some bits)
    (hseq : x.seq = .at 0) : ∃ rest, x.work = .acquire :: rest := by
  obtain ⟨k, hk, _, hwork⟩ := h.position bits hf
  obtain rfl : 0 = k := Seq.at.inj (hseq.symm.trans hk)
  rw [List.drop_zero, frameActions_eq, List.cons_append] at hwork
  exact ⟨_, hwork⟩

/-- Settles O32: the acquire the context has to do next waits, so it is put aside with the work it had. -/
theorem waitingContextDoesNothing : Obligations.WaitingContextDoesNothing := by
  intro s d q rest bits h hin hframe hseq hlock
  obtain ⟨work, hwork⟩ := (h.calls d).work_at_zero hframe hseq
  have hwait : perform d .acquire (s.taking d q rest) = .wait := perform_acquire_wait hlock
  have hstep : step s = .next (s.taking d q rest) := by
    have hstored := State.suspend_stored (s := s.taking d q rest) h.contexts d
    calc step s = runWork d (s.ctx d).work q (s.taking d q rest) := step_of_resume hin
      _ = .next ((s.taking d q rest).suspend d (s.ctx d).work) := by rw [hwork, runWork_wait hwait]
      _ = .next (s.taking d q rest) := congrArg _ hstored
  exact ⟨_, hstep, rfl, ⟨rfl, rfl⟩, ⟨rfl, rfl, rfl, rfl, rfl, rfl⟩, fun _ => rfl⟩

end Sys2Proof.Machine

/-! Proofs about the encodings (O1, O2, O3, O4, O5, O36, O7, O21): a packet and its operation, the frame word of a
channel and a magnitude, the decimal strings of the boundary, and the one-bit word of `set_level`. -/

namespace Sys2Proof.Machine

/-! ### Joining and cutting words, as arithmetic -/

theorem toNat_append_eq {n m : Nat} (x : BitVec n) (y : BitVec m) : (x ++ y).toNat = x.toNat * 2 ^ m + y.toNat := by
  rw [BitVec.toNat_append, ← Nat.shiftLeft_add_eq_or_of_lt y.isLt, Nat.shiftLeft_eq]

theorem toNat_extract_eq {n : Nat} (x : BitVec n) (start len : Nat) :
    (x.extractLsb' start len).toNat = x.toNat / 2 ^ start % 2 ^ len := by
  rw [BitVec.extractLsb'_toNat, Nat.shiftRight_eq_div_pow]

theorem byte_of_toNat {b : Byte} {n : Nat} (h : b.toNat = n) : b = BitVec.ofNat 8 n := by
  rw [← h, BitVec.ofNat_toNat, BitVec.setWidth_eq]

/-! ### A frame word and its two bytes -/

@[simp] theorem frameWordOf_extract (w : BitVec 16) : frameWordOf (w.extractLsb' 8 8) (w.extractLsb' 0 8) = w :=
  BitVec.extractLsb'_append_extractLsb' (w := 8) (len := 8)

theorem frameBytes_frameWordOf (hi lo : Byte) : frameBytes (frameWordOf hi lo) = [hi, lo] := by
  rw [frameBytes, frameWordOf, BitVec.extractLsb'_append_eq_left, BitVec.extractLsb'_append_eq_right]

theorem frameBytes_injective {v w : BitVec 16} (h : frameBytes v = frameBytes w) : v = w := by
  simp only [frameBytes, List.cons.injEq, and_true] at h
  obtain ⟨hhi, hlo⟩ := h
  rw [← frameWordOf_extract v, ← frameWordOf_extract w, hhi, hlo]

/-- The command of a frame word is the high half of the byte that is sent first (R77). -/
theorem extract_command_eq (w : BitVec 16) : (w.extractLsb' 8 8).extractLsb' 4 4 = w.extractLsb' 12 4 := by
  refine BitVec.eq_of_toNat_eq ?_
  simp only [toNat_extract_eq]
  omega

/-! ### The frame word of a channel and a magnitude (R77, R79) -/

theorem command_cases (ch : Channel) : command ch = 9#4 ∨ command ch = 10#4 ∨ command ch = 15#4 := by
  cases ch <;> decide

theorem command_injective {ch ch' : Channel} (h : command ch = command ch') : ch = ch' := by
  cases ch <;> cases ch' <;> simp [command] at h ⊢

theorem frameWord_toNat (ch : Channel) (m : BitVec 10) :
    (frameWord ch m).toNat = (command ch).toNat * 4096 + m.toNat * 4 := by
  have hm := m.isLt
  have hcmd : ((command ch).setWidth 16 <<< 12).toNat = (command ch).toNat <<< 12 := by cases ch <;> rfl
  have hmag : (m.setWidth 16 <<< 2).toNat = m.toNat <<< 2 := by
    simp only [BitVec.toNat_shiftLeft, BitVec.toNat_setWidth, Nat.shiftLeft_eq]
    omega
  have hlt : m.toNat <<< 2 < 2 ^ 12 := by
    rw [Nat.shiftLeft_eq]
    omega
  rw [frameWord, BitVec.toNat_or, hcmd, hmag, ← Nat.shiftLeft_add_eq_or_of_lt hlt, Nat.shiftLeft_eq, Nat.shiftLeft_eq]

theorem frameWord_eq_append (ch : Channel) (m : BitVec 10) : frameWord ch m = command ch ++ m ++ 0b00#2 := by
  refine BitVec.eq_of_toNat_eq ?_
  rw [frameWord_toNat, toNat_append_eq, toNat_append_eq, BitVec.toNat_ofNat]
  omega

@[simp] theorem frameWord_command (ch : Channel) (m : BitVec 10) : (frameWord ch m).extractLsb' 12 4 = command ch := by
  have hm := m.isLt
  have hc := (command ch).isLt
  refine BitVec.eq_of_toNat_eq ?_
  rw [toNat_extract_eq, frameWord_toNat]
  omega

@[simp] theorem frameWord_magnitude (ch : Channel) (m : BitVec 10) : (frameWord ch m).extractLsb' 2 10 = m := by
  have hm := m.isLt
  refine BitVec.eq_of_toNat_eq ?_
  rw [toNat_extract_eq, frameWord_toNat]
  omega

@[simp] theorem frameWord_padding (ch : Channel) (m : BitVec 10) : (frameWord ch m).extractLsb' 0 2 = 0b00#2 := by
  refine BitVec.eq_of_toNat_eq ?_
  rw [toNat_extract_eq, frameWord_toNat, BitVec.toNat_ofNat]
  omega

/-- A word with the padding and a channel's command is the frame word of that channel and the magnitude it holds. -/
theorem eq_frameWord {w : BitVec 16} {ch : Channel} (hpad : w.extractLsb' 0 2 = 0b00#2)
    (hcmd : w.extractLsb' 12 4 = command ch) : w = frameWord ch (w.extractLsb' 2 10) := by
  have hw := w.isLt
  have hpad' : w.toNat / 2 ^ 0 % 2 ^ 2 = 0 := by rw [← toNat_extract_eq, hpad, BitVec.toNat_ofNat]
  refine BitVec.eq_of_toNat_eq ?_
  rw [frameWord_toNat, ← hcmd, toNat_extract_eq, toNat_extract_eq]
  omega

/-- Different channels or magnitudes have different frame words (R123). -/
theorem frameWord_injective {ch ch' : Channel} {m m' : BitVec 10} (h : frameWord ch m = frameWord ch' m') :
    ch = ch' ∧ m = m' := by
  have hcmd : command ch = command ch' := by rw [← frameWord_command ch m, h, frameWord_command]
  have hmag : m = m' := by rw [← frameWord_magnitude ch m, h, frameWord_magnitude]
  exact ⟨command_injective hcmd, hmag⟩

/-! ### The bits of a frame (R78) -/

theorem bitsMsb_append {n m : Nat} (x : BitVec n) (y : BitVec m) : bitsMsb (x ++ y) = bitsMsb x ++ bitsMsb y := by
  refine List.ext_getElem (by simp) fun j hj _ => ?_
  simp only [bitsMsb, List.getElem_map, List.getElem_range, List.getElem_append, BitVec.getMsbD_append,
    List.length_map, List.length_range]
  by_cases h : j < n
  · rw [dif_pos h, if_neg (by omega)]
  · rw [dif_neg h, if_pos (by omega)]

theorem bitsMsb_injective {n : Nat} {x y : BitVec n} (h : bitsMsb x = bitsMsb y) : x = y := by
  refine BitVec.eq_of_getMsbD_eq fun i hi => ?_
  have hbit := congrArg (·[i]?) h
  simpa [bitsMsb, hi] using hbit

theorem bitsMsb_frameWord (ch : Channel) (m : BitVec 10) : bitsMsb (frameWord ch m) = frameBits ch m := by
  rw [frameWord_eq_append, bitsMsb_append, bitsMsb_append, frameBits]
  rfl

theorem frameBits_injective {ch ch' : Channel} {m m' : BitVec 10} (h : frameBits ch m = frameBits ch' m') :
    ch = ch' ∧ m = m' := by
  rw [← bitsMsb_frameWord, ← bitsMsb_frameWord] at h
  exact frameWord_injective (bitsMsb_injective h)

/-! ### The frame commands, by their channel -/

/-- The frame command of a channel: the rows `LOAD_A`, `LOAD_B`, `LOAD_AB` (R79). -/
def frameCommand : Channel → BitVec 10 → Instr
  | .A => .loadA
  | .B => .loadB
  | .AB => .loadAB

theorem frameCommand_wellFormed (ch : Channel) (m : BitVec 10) : (frameCommand ch m).wellFormed = true := by
  cases ch <;> rfl

theorem encode_frameCommand (ch : Channel) (m : BitVec 10) :
    encode (frameCommand ch m) = frameBytes (frameWord ch m) := by
  rw [frameWord_eq_append]
  cases ch <;> rfl

theorem decodeFrame_frameWord (ch : Channel) (m : BitVec 10) :
    decodeFrame (frameWord ch m) = .ok (frameCommand ch m) := by
  rw [decodeFrame, if_neg (by simp)]
  cases ch <;> simp [command, frameCommand]

/-- The frame words of channels and magnitudes are frame commands, and no other word is (R79, R83). -/
theorem decodeFrame_ok_iff {w : BitVec 16} {i : Instr} :
    decodeFrame w = .ok i ↔ ∃ ch m, w = frameWord ch m ∧ i = frameCommand ch m := by
  constructor
  · intro h
    unfold decodeFrame at h
    split_ifs at h with hpad hA hB hAB
    all_goals cases h
    · exact ⟨.A, _, eq_frameWord (not_not.mp hpad) hA, rfl⟩
    · exact ⟨.B, _, eq_frameWord (not_not.mp hpad) hB, rfl⟩
    · exact ⟨.AB, _, eq_frameWord (not_not.mp hpad) hAB, rfl⟩
  · rintro ⟨ch, m, rfl, rfl⟩
    exact decodeFrame_frameWord ch m

theorem decode_frameBytes {w : BitVec 16}
    (h : w.extractLsb' 12 4 = 9#4 ∨ w.extractLsb' 12 4 = 10#4 ∨ w.extractLsb' 12 4 = 15#4) :
    decode (frameBytes w) = decodeFrame w := by
  rw [frameBytes, decode, extract_command_eq, if_pos h, frameWordOf_extract]

theorem decode_frameWord (ch : Channel) (m : BitVec 10) :
    decode (frameBytes (frameWord ch m)) = .ok (frameCommand ch m) := by
  have hcmd := command_cases ch
  rw [← frameWord_command ch m] at hcmd
  rw [decode_frameBytes hcmd, decodeFrame_frameWord]

/-! ### Function codes (R72) -/

theorem fieldByte_high (c : BitVec 3) : (0b00000#5 ++ c).extractLsb' 4 4 = 0#4 := by
  revert c
  decide

theorem decode_encodeField (c : BitVec 3) (pin : Nat) :
    decode (encodeField c pin) = decodeField c (BitVec.ofNat 8 pin) := by
  have hhead : (0b00000#5 ++ c).extractLsb' 3 5 = 0b00000#5 := BitVec.extractLsb'_append_eq_left
  have hcode : (0b00000#5 ++ c).extractLsb' 0 3 = c := BitVec.extractLsb'_append_eq_right
  rw [encodeField, decode, fieldByte_high, hhead, if_neg (by decide), if_pos rfl, hcode]

theorem decodeField_reserved {c : BitVec 3} (pin : Byte) (hin : c ≠ 0b000#3) (hout : c ≠ 0b001#3) :
    decodeField c pin = .error .reservedCode := by
  rw [decodeField, if_neg hin, if_neg hout]

theorem decode_encode_fselInput {pin : Nat} (h : byteFits pin = true) :
    decode (encode (.fselInput pin)) = .ok (.fselInput pin) := by
  rw [encode, decode_encodeField, decodeField, if_pos rfl, toNat_ofNat_of_fits h]

theorem decode_encode_fselOutput {pin : Nat} (h : byteFits pin = true) :
    decode (encode (.fselOutput pin)) = .ok (.fselOutput pin) := by
  rw [encode, decode_encodeField, decodeField, if_neg (by decide), if_pos rfl, toNat_ofNat_of_fits h]

theorem encodeField_toNat (c : BitVec 3) (pin : Byte) : encodeField c pin.toNat = [0b00000#5 ++ c, pin] := by
  rw [encodeField, BitVec.ofNat_toNat, BitVec.setWidth_eq]

/-- A function code and its pin are the packet of the operation they decode to. -/
theorem encode_of_decodeField {c : BitVec 3} {pin : Byte} {i : Instr} (h : decodeField c pin = .ok i) :
    i.wellFormed = true ∧ encode i = [0b00000#5 ++ c, pin] := by
  unfold decodeField at h
  split_ifs at h with hin hout
  · cases h
    exact ⟨byteFits_toNat pin, hin ▸ encodeField_toNat _ pin⟩
  · cases h
    exact ⟨byteFits_toNat pin, hout ▸ encodeField_toNat _ pin⟩

/-! ### The calls (log 8) -/

/-- A packet that begins with a byte from `0x40` to `0x61` is read by its call code. -/
theorem decode_call {code : Byte} (args : List Byte) (hlo : 0x40 ≤ code.toNat) (hhi : code.toNat ≤ 0x61) :
    decode (code :: args) = decodeCall code args := by
  have hframe : ¬ (code.extractLsb' 4 4 = 9#4 ∨ code.extractLsb' 4 4 = 10#4 ∨ code.extractLsb' 4 4 = 15#4) := by
    simp only [← BitVec.toNat_inj, toNat_extract_eq, BitVec.toNat_ofNat]
    omega
  have hfield : code.extractLsb' 3 5 ≠ 0#5 := by
    simp only [ne_eq, ← BitVec.toNat_inj, toNat_extract_eq, BitVec.toNat_ofNat]
    omega
  exact (if_neg hframe).trans (if_neg hfield)

/-- The high half of a call code is 4, 5 or 6. -/
theorem decodeCall_high {code : Byte} {args : List Byte} {i : Instr} (h : decodeCall code args = .ok i) :
    code.extractLsb' 4 4 = 4#4 ∨ code.extractLsb' 4 4 = 5#4 ∨ code.extractLsb' 4 4 = 6#4 := by
  have hrange := decodeCall_ok h
  simp only [← BitVec.toNat_inj, toNat_extract_eq, BitVec.toNat_ofNat]
  omega

@[simp] theorem operand_some (i : Instr) : operand (some i) = .ok i := rfl

@[simp] theorem oneByte_singleton (f : Byte → Option Instr) (b : Byte) : oneByte f [b] = operand (f b) := rfl

@[simp] theorem byteWord_wordBytes (f : Byte → Word → Option Instr) (b : Byte) (v : Word) :
    byteWord f (b :: wordBytes v) = operand (f b v) := by
  rw [wordBytes, byteWord, wordOfBytes_extract]

@[simp] theorem wordByte_wordBytes (f : Word → Byte → Option Instr) (v : Word) (b : Byte) :
    wordByte f (wordBytes v ++ [b]) = operand (f v b) := by
  have hargs : wordBytes v ++ [b]
      = [v.extractLsb' 24 8, v.extractLsb' 16 8, v.extractLsb' 8 8, v.extractLsb' 0 8, b] := rfl
  rw [hargs, wordByte, wordOfBytes_extract]

@[simp] theorem finOfByte_zero_ofNat {n : Nat} (i : Fin n) (h : n ≤ 256) :
    finOfByte n 0 (BitVec.ofNat 8 i.val) = some i := by
  simpa using finOfByte_ofNat (base := 0) i (by omega)

theorem ofNat_of_finOfByte_zero {n : Nat} {b : Byte} {i : Fin n} (h : finOfByte n 0 b = some i) :
    BitVec.ofNat 8 i.val = b := by simpa using ofNat_of_finOfByte h

/-- The register number of `SETCLR_READ` is counted from 6 (R91). -/
@[simp] theorem finOfByte_six_ofNat (j : Fin 4) : finOfByte 4 6 (BitVec.ofNat 8 (6 + j.val)) = some j :=
  finOfByte_ofNat j (by decide)

theorem intBytes_toInt (v : Word) : intBytes v.toInt = wordBytes v := by rw [intBytes, BitVec.ofInt_toInt]

theorem oneByte_map_ok {α : Type} {read : Byte → Option α} {call : α → Instr} {args : List Byte} {i : Instr}
    (h : oneByte (fun b => (read b).map call) args = .ok i) : ∃ b x, args = [b] ∧ read b = some x ∧ i = call x := by
  obtain ⟨b, rfl, hb⟩ := oneByte_ok h
  obtain ⟨x, hx, rfl⟩ := Option.map_eq_some_iff.mp hb
  exact ⟨b, x, rfl, hx, rfl⟩

theorem byteWord_map_ok {α : Type} {read : Byte → Option α} {call : α → Word → Instr} {args : List Byte} {i : Instr}
    (h : byteWord (fun b v => (read b).map (call · v)) args = .ok i) :
    ∃ b v x, args = b :: wordBytes v ∧ read b = some x ∧ i = call x v := by
  obtain ⟨b, v, rfl, hb⟩ := byteWord_ok h
  obtain ⟨x, hx, rfl⟩ := Option.map_eq_some_iff.mp hb
  exact ⟨b, v, x, rfl, hx, rfl⟩

theorem wordByte_map_ok {α : Type} {read : Byte → Option α} {call : Word → α → Instr} {args : List Byte} {i : Instr}
    (h : wordByte (fun v b => (read b).map (call v ·)) args = .ok i) :
    ∃ v b x, args = wordBytes v ++ [b] ∧ read b = some x ∧ i = call v x := by
  obtain ⟨v, b, rfl, hb⟩ := wordByte_ok h
  obtain ⟨x, hx, rfl⟩ := Option.map_eq_some_iff.mp hb
  exact ⟨v, b, x, rfl, hx, rfl⟩

/-- A call code and its operands are the packet of the operation they decode to: each operand's bytes are those of the
value that was read from them. The cases are the call codes, in the decoder's order. -/
theorem encode_of_decodeCall {code : Byte} {args : List Byte} {i : Instr} (h : decodeCall code args = .ok i) :
    i.wellFormed = true ∧ encode i = code :: args := by
  unfold decodeCall at h
  split at h
  case h_24 => cases h
  all_goals obtain rfl := byte_of_toNat ‹code.toNat = _›
  -- `FSEL_READ`
  case h_1 =>
    obtain ⟨b, k, rfl, hk, rfl⟩ := oneByte_map_ok h
    exact ⟨rfl, by rw [encode, ofNat_of_finOfByte_zero hk]⟩
  -- `FSEL_WRITE`, `SET_WRITE`, `CLR_WRITE`
  case h_2 | h_3 | h_4 =>
    obtain ⟨b, v, k, rfl, hk, rfl⟩ := byteWord_map_ok h
    exact ⟨rfl, by rw [encode, ofNat_of_finOfByte_zero hk]⟩
  -- `SETCLR_READ`
  case h_5 =>
    obtain ⟨b, j, rfl, hj, rfl⟩ := oneByte_map_ok h
    exact ⟨rfl, by rw [encode, ofNat_of_finOfByte hj]⟩
  -- `reg_read`
  case h_6 =>
    obtain ⟨b, rfl, hb⟩ := oneByte_ok h
    cases hb
    exact ⟨byteFits_toNat b, by rw [encode, BitVec.ofNat_toNat, BitVec.setWidth_eq]⟩
  -- `reg_write`
  case h_7 =>
    obtain ⟨b, v, rfl, hb⟩ := byteWord_ok h
    cases hb
    exact ⟨byteFits_toNat b, by rw [encode, BitVec.ofNat_toNat, BitVec.setWidth_eq]⟩
  -- `configure`
  case h_8 =>
    obtain ⟨v, b, d, rfl, hd, rfl⟩ := wordByte_map_ok h
    exact ⟨intFits_toInt v, by rw [encode, intBytes_toInt, directionByte_of_directionOfByte hd]⟩
  -- `set_level`
  case h_9 =>
    obtain ⟨v, b, l, rfl, hl, rfl⟩ := wordByte_map_ok h
    exact ⟨intFits_toInt v, by rw [encode, intBytes_toInt, levelByte_of_levelOfByte hl]⟩
  -- `send_bit`
  case h_11 =>
    obtain ⟨b, v, rfl, hv, rfl⟩ := oneByte_map_ok h
    exact ⟨rfl, by rw [encode, boolByte_of_boolOfByte hv]⟩
  -- `send_frame`
  case h_12 =>
    obtain ⟨bits, hbits, rfl⟩ := Option.map_eq_some_iff.mp (operand_ok h)
    exact ⟨rfl, by rw [encode, map_of_boolsOfBytes hbits]⟩
  -- `write`
  case h_13 =>
    obtain ⟨b, v, ch, rfl, hch, rfl⟩ := byteWord_map_ok h
    exact ⟨intFits_toInt v, by rw [encode, intBytes_toInt, channelByte_of_channelOfByte hch]⟩
  -- `store_volume`, `store_bass`, `store_on`
  case h_14 | h_15 | h_16 =>
    cases h
    exact ⟨rfl, rfl⟩
  -- The calls without operands.
  all_goals
    obtain ⟨rfl, rfl⟩ := bare_ok h
    exact ⟨rfl, rfl⟩

/-! ### Packets (O1, O2, O4) -/

/-- Settles O1: the first byte of an operation's packet leads the decoder to its row, which reads each operand back. -/
theorem decodeReadsBackEncode : Obligations.DecodeReadsBackEncode := by
  intro i h
  cases i with
  | loadA m => exact (congrArg decode (encode_frameCommand .A m)).trans (decode_frameWord .A m)
  | loadB m => exact (congrArg decode (encode_frameCommand .B m)).trans (decode_frameWord .B m)
  | loadAB m => exact (congrArg decode (encode_frameCommand .AB m)).trans (decode_frameWord .AB m)
  | fselInput pin => exact decode_encode_fselInput h
  | fselOutput pin => exact decode_encode_fselOutput h
  | fselRead | fselWrite | setWrite | clrWrite | setclrRead => simp [encode, decode_call, decodeCall]
  | regRead | regWrite => simp [encode, decode_call, decodeCall, toNat_ofNat_of_fits h]
  | configure | setLevel | write => simp [encode, decode_call, decodeCall, intBytes, toInt_ofInt_of_fits h]
  | sendBit | sendFrame => simp [encode, decode_call, decodeCall]
  | storeVolume | storeBass | storeOn => simp [encode, decode_call, decodeCall]
  | settle | showVolume | showBass | showOn | start | stop | lockAcquire | lockRelease => rfl

/-- A packet that is a call is a frame word, a function code with its pin, or a call code with its operands. -/
theorem decode_ok {packet : List Byte} {i : Instr} (h : decode packet = .ok i) :
    (∃ w, packet = frameBytes w ∧ decodeFrame w = .ok i)
      ∨ (∃ c pin, packet = [0b00000#5 ++ c, pin] ∧ decodeField c pin = .ok i)
      ∨ ∃ code args, packet = code :: args ∧ decodeCall code args = .ok i := by
  unfold decode at h
  split at h
  · cases h
  next b rest =>
    split_ifs at h with hframe hfield
    · split at h
      next lo => exact .inl ⟨frameWordOf b lo, (frameBytes_frameWordOf b lo).symm, h⟩
      · cases h
    · split at h
      next pin =>
        have hb : 0b00000#5 ++ b.extractLsb' 0 3 = b := by
          rw [← hfield]
          exact BitVec.extractLsb'_append_extractLsb' (w := 5) (len := 3)
        exact .inr (.inl ⟨_, pin, by rw [hb], h⟩)
      · cases h
    · exact .inr (.inr ⟨b, rest, rfl, h⟩)

/-- Settles O2, by the three kinds of packet that are calls. -/
theorem encodeReadsBackDecode : Obligations.EncodeReadsBackDecode := by
  intro packet i h
  rcases decode_ok h with ⟨w, rfl, hframe⟩ | ⟨c, pin, rfl, hfield⟩ | ⟨code, args, rfl, hcall⟩
  · obtain ⟨ch, m, rfl, rfl⟩ := decodeFrame_ok_iff.mp hframe
    exact ⟨frameCommand_wellFormed ch m, encode_frameCommand ch m⟩
  · exact encode_of_decodeField hfield
  · exact encode_of_decodeCall hcall

/-- Settles O4: as a packet, a word that is no frame word has the high half of a function code, 0, or that of a call
code, 4, 5 or 6. -/
theorem unusedEncodingsAreNoCall : Obligations.UnusedEncodingsAreNoCall := by
  refine ⟨fun w i h => ?word, fun w i h h0 h4 h5 h6 => ?packet, fun c pin hin hout => ?code⟩
  case word =>
    obtain ⟨ch, m, rfl, -⟩ := decodeFrame_ok_iff.mp h
    rw [frameWord_command]
    exact ⟨frameWord_padding ch m, command_cases ch⟩
  case packet =>
    rw [← extract_command_eq] at h0 h4 h5 h6
    rcases decode_ok h with ⟨v, hv, hframe⟩ | ⟨c, pin, hb, -⟩ | ⟨code, args, hcode, hcall⟩
    · rwa [frameBytes_injective hv]
    · obtain ⟨hhi, -⟩ := List.cons.inj hb
      rw [hhi] at h0
      exact absurd (fieldByte_high c) h0
    · obtain ⟨rfl, -⟩ := List.cons.inj hcode
      rcases decodeCall_high hcall with h' | h' | h'
      · exact absurd h' h4
      · exact absurd h' h5
      · exact absurd h' h6
  case code => rw [decode_encodeField, decodeField_reserved _ hin hout]

/-! ### The words of the table (O3) -/

/-- The packet of a 16-bit table word is its two bytes, the high one first. -/
theorem tablePacket_sixteen (w : Nat) : tablePacket 16 w = frameBytes (BitVec.ofNat 16 w) := by
  have hhi : BitVec.ofNat 8 (w >>> 8) = (BitVec.ofNat 16 w).extractLsb' 8 8 := by
    refine BitVec.eq_of_toNat_eq ?_
    rw [toNat_extract_eq, BitVec.toNat_ofNat, BitVec.toNat_ofNat, Nat.shiftRight_eq_div_pow]
    omega
  have hlo : BitVec.ofNat 8 w = (BitVec.ofNat 16 w).extractLsb' 0 8 := by
    refine BitVec.eq_of_toNat_eq ?_
    rw [toNat_extract_eq, BitVec.toNat_ofNat, BitVec.toNat_ofNat]
    omega
  calc tablePacket 16 w = [BitVec.ofNat 8 (w >>> 8), BitVec.ofNat 8 w] := rfl
    _ = frameBytes (BitVec.ofNat 16 w) := by rw [hhi, hlo, frameBytes]

theorem decodeTableWord_of_ok {nbits w : Nat} {i : Instr} (h : decode (tablePacket nbits w) = .ok i) :
    decodeTableWord nbits w = some i := by
  rw [decodeTableWord, h]

/-- The table word of a channel's frame command and a magnitude (R79). -/
theorem decodeTableWord_frameCommand (ch : Channel) (m : Fin 1024) :
    decodeTableWord 16 ((command ch).toNat * 4096 + 4 * m.val) = some (frameCommand ch (BitVec.ofNat 10 m.val)) := by
  have hword : BitVec.ofNat 16 ((command ch).toNat * 4096 + 4 * m.val) = frameWord ch (BitVec.ofNat 10 m.val) := by
    have hm := m.isLt
    have hc := (command ch).isLt
    refine BitVec.eq_of_toNat_eq ?_
    rw [frameWord_toNat, BitVec.toNat_ofNat, BitVec.toNat_ofNat]
    omega
  refine decodeTableWord_of_ok ?_
  rw [tablePacket_sixteen, hword, decode_frameWord]

/-- Settles O3: the row of each channel, and the two function codes with pin byte 0. -/
theorem tableWordsDecodeToTheirRows : Obligations.TableWordsDecodeToTheirRows :=
  ⟨fun m => ⟨decodeTableWord_frameCommand .A m, decodeTableWord_frameCommand .B m, decodeTableWord_frameCommand .AB m⟩,
    decodeTableWord_of_ok rfl, decodeTableWord_of_ok rfl⟩

/-! ### Frames (O5, O36) -/

/-- Settles O5: the frame is the bits of its word, and the word is known by its fields. -/
theorem frameIsCommandMagnitudePadding : Obligations.FrameIsCommandMagnitudePadding :=
  ⟨fun ch m => ⟨frameBits_length ch m, rfl, bitsMsb_frameWord ch m, frameWord_toNat ch m⟩, ⟨rfl, rfl, rfl⟩,
    fun _ _ _ _ => frameBits_injective⟩

/-- A frame command of an operational block sends the bits of its frame word (R79, R121). -/
theorem exec_frameCommand {s : State} (h : s.life = .operational) (ch : Channel) (m : BitVec 10) :
    exec (frameCommand ch m) s = runFrame (frameCommand ch m) (bitsMsb (frameWord ch m)) s := by
  have hop : s.operational = true := decide_eq_true h
  cases ch <;> exact if_pos hop

/-- Settles O36: the three words are the frame words of the three channels. -/
theorem frameCommandSendsItsWord : Obligations.FrameCommandSendsItsWord := by
  intro s m i w hready hcfg hlife hlock hi
  have hword : ∃ ch, i = frameCommand ch m ∧ w = frameWord ch m := by
    rcases hi with hA | hB | hAB
    · exact ⟨.A, hA⟩
    · exact ⟨.B, hB⟩
    · exact ⟨.AB, hAB⟩
  obtain ⟨ch, rfl, rfl⟩ := hword
  obtain ⟨t, ht, k⟩ := runFrame_next (i := frameCommand ch m) (bits := bitsMsb (frameWord ch m)) hready hlock
  exact ⟨t, (exec_frameCommand hlife ch m).trans ht, k.returns, frameLatches_of_frameLatch hcfg k.latches, k.fsel,
    k.control, k.draws⟩

/-! ### The decimal string of a number (R85) -/

/-- The character of a digit. -/
def digitChar (d : Nat) : Byte := BitVec.ofNat 8 (0x30 + d)

theorem digitChar_toNat {d : Nat} (h : d < 10) : (digitChar d).toNat = 0x30 + d := by
  rw [digitChar, BitVec.toNat_ofNat]
  omega

theorem isDigit_digitChar {d : Nat} (h : d < 10) : isDigit (digitChar d) = true := by
  rw [isDigit, digitChar_toNat h, decide_eq_true_eq]
  omega

/-- Any fuel that is large enough gives the same digits. -/
theorem digitsLow_fuel {fuel fuel' n : Nat} (hn : n ≠ 0) (h : n < 10 ^ fuel) (h' : n < 10 ^ fuel') :
    digitsLow fuel n = digitsLow fuel' n := by
  induction fuel generalizing fuel' n with
  | zero => omega
  | succ fuel ih =>
    cases fuel' with
    | zero => omega
    | succ fuel' =>
      rw [digitsLow, digitsLow]
      split
      · rfl
      · rw [pow_succ] at h h'
        rw [ih (fuel' := fuel') (by omega) (by omega) (by omega)]

theorem decimal_of_lt {n : Nat} (h : n < 10) : decimal n = [digitChar n] := by
  rw [decimal, digitsLow, if_pos h, Nat.mod_eq_of_lt h]
  rfl

theorem lt_ten_pow_log2 (n : Nat) : n < 10 ^ (n.log2 + 1) :=
  Nat.lt_of_lt_of_le Nat.lt_log2_self (Nat.pow_le_pow_left (by decide) _)

theorem decimal_of_ge {n : Nat} (h : 10 ≤ n) : decimal n = decimal (n / 10) ++ [digitChar (n % 10)] := by
  have hfuel : n / 10 < 10 ^ n.log2 := by
    have hn := lt_ten_pow_log2 n
    rw [pow_succ] at hn
    omega
  have hdigits : digitsLow n.log2 (n / 10) = digitsLow ((n / 10).log2 + 1) (n / 10) :=
    digitsLow_fuel (by omega) hfuel (lt_ten_pow_log2 _)
  rw [decimal, digitsLow, if_neg (by omega), List.reverse_cons, hdigits]
  rfl

/-- What holds of the one-digit numbers and carries over from `n / 10` to `n` holds of every number. -/
theorem decimal_induction {P : Nat → Prop} (one : ∀ n, n < 10 → P n) (more : ∀ n, 10 ≤ n → P (n / 10) → P n)
    (n : Nat) : P n := by
  induction n using Nat.strong_induction_on with
  | _ n ih =>
    by_cases h : n < 10
    · exact one n h
    · exact more n (by omega) (ih _ (by omega))

theorem digitsValue_append_digit (t : Text) {d : Nat} (h : d < 10) :
    digitsValue (t ++ [digitChar d]) = 10 * digitsValue t + d := by
  simp [digitsValue, digitChar_toNat h]

theorem digitsValue_decimal (n : Nat) : digitsValue (decimal n) = n := by
  induction n using decimal_induction with
  | one n h =>
    rw [decimal_of_lt h]
    exact (digitsValue_append_digit [] h).trans (Nat.zero_add n)
  | more n h ih =>
    rw [decimal_of_ge h, digitsValue_append_digit _ (by omega), ih]
    omega

theorem isDigit_of_mem_decimal {n : Nat} {b : Byte} (hb : b ∈ decimal n) : isDigit b = true := by
  induction n using decimal_induction with
  | one n h =>
    rw [decimal_of_lt h, List.mem_singleton] at hb
    exact hb ▸ isDigit_digitChar h
  | more n h ih =>
    rw [decimal_of_ge h, List.mem_append, List.mem_singleton] at hb
    rcases hb with hb | rfl
    · exact ih hb
    · exact isDigit_digitChar (by omega)

/-- The decimal string of a number other than 0 starts with a digit other than `0`. -/
theorem decimal_head {n : Nat} (hn : n ≠ 0) : ∃ b rest, decimal n = b :: rest ∧ b ≠ 0x30#8 := by
  induction n using decimal_induction with
  | one n h =>
    refine ⟨_, _, decimal_of_lt h, fun hb => hn ?_⟩
    have hv := congrArg BitVec.toNat hb
    rw [digitChar_toNat h, BitVec.toNat_ofNat] at hv
    omega
  | more n h ih =>
    obtain ⟨b, rest, hd, hb⟩ := ih (by omega)
    exact ⟨b, rest ++ [digitChar (n % 10)], by rw [decimal_of_ge h, hd, List.cons_append], hb⟩

theorem isPlainDecimal_cons {b : Byte} {rest : Text} (hb : b ≠ 0x30#8) (h : ∀ d ∈ b :: rest, isDigit d = true) :
    isPlainDecimal (b :: rest) = true := by
  have hdigit : isDigit b = true := h b List.mem_cons_self
  have hrest : rest.all isDigit = true := List.all_eq_true.mpr fun d hd => h d (List.mem_cons_of_mem _ hd)
  cases rest with
  | nil => exact hdigit
  | cons c rest => simp [isPlainDecimal, hdigit, hb, hrest]

theorem isPlainDecimal_decimal (n : Nat) : isPlainDecimal (decimal n) = true := by
  by_cases hn : n = 0
  · subst hn
    rfl
  · obtain ⟨b, rest, hd, hb⟩ := decimal_head hn
    rw [hd]
    exact isPlainDecimal_cons hb fun d hmem => isDigit_of_mem_decimal (n := n) (hd ▸ hmem)

/-! ### Texts that are no plain decimal string (R130) -/

theorem isDigit_of_isPlainDecimal {t : Text} (h : isPlainDecimal t = true) {b : Byte} (hb : b ∈ t) :
    isDigit b = true := by
  unfold isPlainDecimal at h
  split at h
  · cases hb
  · rwa [List.mem_singleton.mp hb]
  · simp only [Bool.and_eq_true, List.all_eq_true] at h
    obtain ⟨⟨hhead, -⟩, hrest⟩ := h
    rcases List.mem_cons.mp hb with rfl | hb
    · exact hhead
    · exact hrest b hb

theorem isPlainDecimal_eq_false {t : Text} {b : Byte} (hb : b ∈ t) (h : isDigit b = false) :
    isPlainDecimal t = false := by
  rw [← Bool.not_eq_true]
  intro ht
  rw [isDigit_of_isPlainDecimal ht hb] at h
  cases h

theorem parseDec_of_plain {t : Text} (h : isPlainDecimal t = true) : parseDec t = some (digitsValue t : Int) := if_pos h

theorem parseDec_of_nonNumeric {t : Text} {b : Byte} (hb : b ∈ t) (hdigit : isDigit b = false)
    (hsign : isSign b = false) (hspace : isSpace b = false) : parseDec t = none := by
  have hnon : isNonNumeric t = true := by
    rw [isNonNumeric, Bool.or_eq_true, List.any_eq_true]
    exact .inr ⟨b, hb, by rw [hdigit, hsign, hspace]; rfl⟩
  rw [parseDec, if_neg (by rw [isPlainDecimal_eq_false hb hdigit]; decide), if_pos hnon]

/-- A negative decimal number does not parse, or parses to a negative number. -/
theorem parseDec_of_negative {t : Text} (hplain : isPlainDecimal t = false) (hneg : isNegative t = true) :
    parseDec t = none ∨ ∃ v, parseDec t = some v ∧ v < 0 := by
  rw [parseDec, if_neg (by rw [hplain]; decide), if_pos hneg]
  split
  · exact .inl rfl
  · cases hv : negativeParse t with
    | none => exact .inl rfl
    | some v => exact .inr ⟨v, rfl, negativeParse_neg hv⟩

/-! ### The decimal string of a negative number -/

theorem trimmed_of_noSpace {t : Text} (h : ∀ b ∈ t, isSpace b = false) : trimmed t = t := by
  have hdrop (u : Text) (hu : ∀ b ∈ u, isSpace b = false) : u.dropWhile isSpace = u := by
    cases u with
    | nil => rfl
    | cons b rest => exact List.dropWhile_cons_of_neg (by simp [hu b])
  rw [trimmed, hdrop t h, hdrop _ (by simpa using h), List.reverse_reverse]

theorem isSpace_of_isDigit {b : Byte} (h : isDigit b = true) : isSpace b = false := by
  revert b
  decide

/-- A minus sign and digits that are not all `0` are a negative decimal number, and nothing is trimmed from them. -/
theorem isNegative_minus {digits : Text} (h : ∀ d ∈ digits, isDigit d = true) (hnz : ∃ d ∈ digits, d ≠ 0x30#8) :
    isNegative (0x2D#8 :: digits) = true := by
  have htrim : trimmed (0x2D#8 :: digits) = 0x2D#8 :: digits :=
    trimmed_of_noSpace (List.forall_mem_cons.mpr ⟨rfl, fun d hd => isSpace_of_isDigit (h d hd)⟩)
  have hall : digits.all isDigit = true := List.all_eq_true.mpr h
  have hany : (digits.any fun d => d != 0x30#8) = true := by simpa using hnz
  simp [isNegative, htrim, hall, hany]

/-! ### Decimal texts (O7) -/

/-- Settles O7: the string of a number is plain and has its value; with a minus sign before it, that of a positive
number is a negative one. -/
theorem decimalTextParsesBack : Obligations.DecimalTextParsesBack := by
  refine ⟨fun n => ⟨?value, isPlainDecimal_decimal n⟩, rfl, fun n => ?negative, fun t b => parseDec_of_nonNumeric⟩
  case value => rw [parseDec_of_plain (isPlainDecimal_decimal n), digitsValue_decimal]
  case negative =>
    obtain ⟨b, rest, hd, hb⟩ := decimal_head n.succ_ne_zero
    have hnz : ∃ d ∈ decimal (n + 1), d ≠ 0x30#8 := ⟨b, hd ▸ List.mem_cons_self, hb⟩
    exact parseDec_of_negative (isPlainDecimal_eq_false List.mem_cons_self rfl)
      (isNegative_minus (fun _ => isDigit_of_mem_decimal) hnz)

/-! ### `set_level` as a whole call (O21, R102) -/

theorem exec_setLevel_pin (p : Pin) (l : Level) (s : State) :
    exec (.setLevel p.val l) s = runCall (.setLevel p.val l) id (setLevelActions p l ++ [.ret]) s := by
  simp [exec, execSetLevel]

/-- What a whole call of `set_level(p, l)` leaves and returns. -/
structure SetLevelCalled (s t : State) (p : Pin) (l : Level) : Prop where
  returns : Returns s t (s.ctx s.cur) .done [setLevelEvent s.cur p l]
  latches : ∀ q, t.latchAt q = if q = p then l else s.latchAt q
  fsel : t.fsel = s.fsel
  control : SameControl s t
  draws : t.draws = s.draws

/-- The one write of `set_level` drives one latch (R76, R102). -/
theorem doAll_setLevel_drives (c : Nat) (p : Pin) (l : Level) (s : State) :
    ∃ t, doAll c (setLevelActions p l) s = some t
      ∧ Drives c 1 s t [setLevelEvent c p l]
      ∧ ∀ q, t.latchAt q = if q = p then l else s.latchAt q :=
  ⟨_, doAll_setLevel c p l s, drives_setLevel c p l s, fun q => State.regWrite_level_latchAt s c p q l⟩

theorem exec_setLevel_next {s : State} (h : Ready s) (p : Pin) (l : Level) :
    ∃ t, exec (.setLevel p.val l) s = .next t ∧ SetLevelCalled s t p l := by
  obtain ⟨hctx, hframe⟩ := h.beginCall (.setLevel p.val l)
  obtain ⟨u, hu, k, hlatch⟩ := doAll_setLevel_drives s.cur p l (s.beginCall (.setLevel p.val l))
  refine ⟨u.finish s.cur .done, (exec_setLevel_pin p l s).trans (runCall_ret h hu), ?_⟩
  constructor
  case returns =>
    constructor
    case caller =>
      rw [State.finish_ctx_same, k.caller, Ctx.advance_iterate_of_noFrame hframe, hctx]
      rfl
    case others =>
      intro d hd
      rw [State.finish_ctx_other _ _ hd, k.others d hd, State.beginCall_ctx_other _ _ hd]
    case trace => exact k.trace
    case cfg => exact k.cfg
    case cur => exact k.cur
    case quantum => exact k.quantum
    case inputs => exact k.inputs
  case latches => exact hlatch
  case fsel => exact k.fsel
  case control => exact ⟨k.life, k.txLock, k.vol, k.bas, k.onv, k.surface⟩
  case draws => exact k.draws

/-- An output pin's line shows its latch (R27). -/
theorem State.line_of_output {s : State} {p : Pin} (h : s.dir p = .output) : s.line p = .driven (s.latchAt p) := by
  rw [State.line, h]

theorem State.dir_congr {s t : State} (hcfg : t.cfg = s.cfg) (hfsel : t.fsel = s.fsel) (p : Pin) :
    t.dir p = s.dir p := by
  rw [State.dir, State.dir, State.fn_congr hfsel, hcfg]

/-- Settles O21: the one action of the call is the write. -/
theorem setLevelDrivesOneLatch : Obligations.SetLevelDrivesOneLatch := by
  intro s p l hready
  obtain ⟨t, ht, k⟩ := exec_setLevel_next hready p l
  have hlatch : t.latchAt p = l := (k.latches p).trans (if_pos rfl)
  refine ⟨t, ht, ?returns, hlatch, fun q hq => (k.latches q).trans (if_neg hq), k.fsel, fun hout => ?line, k.control,
    k.draws⟩
  case returns => cases l <;> exact k.returns
  case line => rw [State.line_of_output ((State.dir_congr k.returns.cfg k.fsel p).trans hout), hlatch]

end Sys2Proof.Machine

/-! Proofs about the register accesses (O13, O15, O16, O17): what a whole call of one read or one write leaves, under
whatever name it was called, and which call the operations and the logical indices are. -/

namespace Sys2Proof.Machine

/-! ### The operations as calls of one access (R90 to R95) -/

theorem exec_regRead_of_some {n : Nat} {r : Reg} (hr : regOfIndex n = some r) (s : State) :
    exec (.regRead n) s = runCall (.regRead n) id [.read r, .retWord] s := by
  simp [exec, execRegRead, hr]

theorem exec_regRead_of_none {n : Nat} (hr : regOfIndex n = none) (s : State) :
    exec (.regRead n) s = .refused .badAccess := by
  simp [exec, execRegRead, hr]

theorem exec_regWrite_of_some {n : Nat} {r : Reg} (hr : regOfIndex n = some r) (v : Word) (s : State) :
    exec (.regWrite n v) s = runCall (.regWrite n v) id [.write r v, .ret] s := by
  simp [exec, execRegWrite, hr]

theorem exec_regWrite_of_none {n : Nat} (hr : regOfIndex n = none) (v : Word) (s : State) :
    exec (.regWrite n v) s = .refused .badAccess := by
  simp [exec, execRegWrite, hr]

/-- Settles O17: no register has such an index. -/
theorem indexOutsideTheMapIsRefused : Obligations.IndexOutsideTheMapIsRefused := by
  intro s n v hn
  have hr : regOfIndex n = none := regOfIndex_none hn
  exact ⟨exec_regRead_of_none hr s, exec_regWrite_of_none hr v s⟩

/-! ### A whole call of one read (R90, R91) -/

/-- A read keeps for its context the word that its event records. -/
theorem State.regRead_keeps_recorded (s : State) (c : Nat) (r : Reg) :
    ∃ v, (s.regRead c r).ctx c = { s.ctx c with temp := v } ∧ (s.regRead c r).trace = s.trace ++ [.rd c r v] := by
  cases r with
  | fsel k => exact ⟨_, State.keep_ctx_same _ _ _, rfl⟩
  | set k => exact ⟨_, State.keep_ctx_same _ _ _, rfl⟩
  | clr k => exact ⟨_, State.keep_ctx_same _ _ _, rfl⟩

/-- A call of one read by a ready context returns the word its event records, and writes nothing. -/
theorem runCall_read {s : State} (h : Ready s) (i : Instr) (r : Reg) :
    ∃ t v, runCall i id [.read r, .retWord] s = .next t
      ∧ Returns s t (s.ctx s.cur) (.word v) [.rd s.cur r v] ∧ SameRegisters s t ∧ SameControl s t := by
  obtain ⟨v, hctx, htrace⟩ := (s.beginCall i).regRead_keeps_recorded s.cur r
  have hreturn : perform s.cur .retWord ((s.beginCall i).regRead s.cur r)
      = .ended (((s.beginCall i).regRead s.cur r).finish s.cur (.word v)) := by
    rw [perform, hctx]
  have hread : doAll s.cur [.read r] (s.beginCall i) = some ((s.beginCall i).regRead s.cur r) :=
    doAll_cons (perform_read s.cur r _) []
  have hrun : runCall i id [.read r, .retWord] s
      = .next (((s.beginCall i).regRead s.cur r).finish s.cur (.word v)) :=
    (runCall_doAll (as := [.read r]) h hread).trans (runWork_ended (by simp) hreturn)
  refine ⟨_, v, hrun, ?returns, ⟨?fsel, ?latch⟩, ?control⟩
  case returns =>
    constructor
    case caller =>
      rw [State.finish_ctx_same, hctx, State.beginCall_ctx_same]
      rfl
    case others =>
      intro d hd
      rw [State.finish_ctx_other _ _ hd, State.regRead_ctx_other _ _ hd, State.beginCall_ctx_other _ _ hd]
    case trace => exact htrace
    all_goals simp
  case fsel => simp
  case latch => simp
  case control => constructor <;> simp

/-- Settles O13: both operations are a call of one read of the register. -/
theorem levelReadReturnsSomeWord : Obligations.LevelReadReturnsSomeWord := by
  intro s j i hready hi
  have hexec : exec i s = runCall i id [.read (levelReg j), .retWord] s := by
    obtain rfl | rfl := hi
    · rfl
    · exact exec_regRead_of_some (regOfIndex_level j) s
  rw [hexec]
  exact runCall_read hready i (levelReg j)

/-! ### A whole call of one write (R92, R93, R94) -/

/-- What a whole call of one write of `v` to `r` leaves and returns. -/
structure WriteCalled (s t : State) (r : Reg) (v : Word) : Prop where
  returns : Returns s t (s.ctx s.cur) .done [.wr s.cur r v]
  fsel : t.fsel = (s.applyWrite r v).fsel
  latch : t.latch = (s.applyWrite r v).latch
  control : SameControl s t
  draws : t.draws = s.draws

theorem perform_write {c : Nat} {r : Reg} {v : Word} (hr : reservedWrite r v = false) (s : State) :
    perform c (.write r v) s = .did (s.regWrite c r v) := State.tryWrite_eq s c r v hr

theorem perform_write_reserved {c : Nat} {r : Reg} {v : Word} (hr : reservedWrite r v = true) (s : State) :
    perform c (.write r v) s = .refuse .reservedBits := if_pos hr

/-- A call of one write by a ready context runs to its return when no reserved bit is set. -/
theorem runCall_write {s : State} (h : Ready s) (i : Instr) {r : Reg} {v : Word} (hr : reservedWrite r v = false) :
    ∃ t, runCall i id [.write r v, .ret] s = .next t ∧ WriteCalled s t r v := by
  obtain ⟨hctx, hframe⟩ := h.beginCall i
  have hwrite : doAll s.cur [.write r v] (s.beginCall i) = some ((s.beginCall i).regWrite s.cur r v) :=
    doAll_cons (perform_write hr _) []
  refine ⟨_, runCall_ret (as := [.write r v]) h hwrite, ?_⟩
  constructor
  case returns =>
    constructor
    case caller =>
      rw [State.finish_ctx_same, State.regWrite_ctx_same, Ctx.advance_of_noFrame hframe, hctx]
      rfl
    case others =>
      intro d hd
      rw [State.finish_ctx_other _ _ hd, State.regWrite_ctx_other _ _ _ hd, State.beginCall_ctx_other _ _ hd]
    all_goals simp
  case fsel => cases r <;> rfl
  case latch => cases r <;> rfl
  case control => constructor <;> simp
  case draws => simp

/-- A call of one write with a reserved bit is refused (R93, R94, R152). -/
theorem runCall_write_reserved {s : State} (h : Ready s) (i : Instr) {r : Reg} {v : Word}
    (hr : reservedWrite r v = true) : runCall i id [.write r v, .ret] s = .refused .reservedBits := by
  rw [runCall_idle h.idle, h.whole]
  exact runWork_refuse (by simp) (perform_write_reserved hr _)

/-! ### Set and clear registers (R73, R93, R94) -/

/-- The register whose word drives the pins it names to a level: `SET[k]` for high, `CLR[k]` for low. -/
def driveReg (k : Fin 2) : Level → Reg
  | .high => .set k
  | .low => .clr k

theorem reservedWrite_driveReg_iff (k : Fin 2) (v : Word) (l : Level) :
    reservedWrite (driveReg k l) v = true ↔ k = 1 ∧ v.extractLsb' 28 4 ≠ 0#4 := by
  cases l <;> simp [driveReg, reservedWrite, reservedLevelBits]

theorem State.applyWrite_driveReg (s : State) (k : Fin 2) (v : Word) (l : Level) :
    s.applyWrite (driveReg k l) v = s.drive k v l := by cases l <;> rfl

theorem namesPin_iff (k : Fin 2) (v : Word) (p : Pin) :
    namesPin k v p = true ↔ p.val / 32 = k.val ∧ v.getLsbD (p.val % 32) = true := by
  simp [namesPin, levelIndex, levelBit, Fin.ext_iff]

/-- A call of one write to a set or clear register drives the latches its word names, or is refused for a reserved
bit. -/
theorem exec_driveReg {s : State} (h : Ready s) {i : Instr} {k : Fin 2} {v : Word} {l : Level}
    (hexec : exec i s = runCall i id [.write (driveReg k l) v, .ret] s) :
    if k = 1 ∧ v.extractLsb' 28 4 ≠ 0#4 then exec i s = .refused .reservedBits
    else ∃ t, exec i s = .next t
      ∧ Returns s t (s.ctx s.cur) .done [.wr s.cur (driveReg k l) v]
      ∧ (∀ p : Pin, t.latchAt p = if p.val / 32 = k.val ∧ v.getLsbD (p.val % 32) = true then l else s.latchAt p)
      ∧ t.fsel = s.fsel ∧ SameControl s t ∧ t.draws = s.draws := by
  have hiff := reservedWrite_driveReg_iff k v l
  rw [hexec]
  split
  case isTrue hr => exact runCall_write_reserved h i (hiff.mpr hr)
  case isFalse hr =>
    obtain ⟨t, ht, w⟩ := runCall_write h i (Bool.eq_false_iff.mpr (mt hiff.mp hr))
    have hfsel := w.fsel
    have hlatch := w.latch
    rw [State.applyWrite_driveReg] at hfsel hlatch
    refine ⟨t, ht, w.returns, fun p => ?latches, hfsel, w.control, w.draws⟩
    simp only [State.latchAt_congr hlatch, State.drive_latchAt, namesPin_iff]

/-- Settles O15: both operations are a call of one write to `SET[k]`. -/
theorem setWriteRaisesTheNamedLatches : Obligations.SetWriteRaisesTheNamedLatches := by
  intro s k v i hready hi
  have hexec : exec i s = runCall i id [.write (driveReg k .high) v, .ret] s := by
    obtain rfl | rfl := hi
    · rfl
    · exact exec_regWrite_of_some (regOfIndex_set k) v s
  exact exec_driveReg hready hexec

/-- Settles O16: both operations are a call of one write to `CLR[k]`. -/
theorem clrWriteLowersTheNamedLatches : Obligations.ClrWriteLowersTheNamedLatches := by
  intro s k v i hready hi
  have hexec : exec i s = runCall i id [.write (driveReg k .low) v, .ret] s := by
    obtain rfl | rfl := hi
    · rfl
    · exact exec_regWrite_of_some (regOfIndex_clr k) v s
  exact exec_driveReg hready hexec

end Sys2Proof.Machine

/-! Proofs about the GPIO primitives (O18, O19, O22): what a `configure` leaves in the function-select words, and that a
pin outside the map is refused. -/

namespace Sys2Proof.Machine

/-! ### `configure` as a whole call (O18, O19, R100, R101) -/

theorem exec_configure_pin (p : Pin) (d : Direction) (s : State) :
    exec (.configure p.val d) s = runCall (.configure p.val d) id (configureActions s.cfg p d ++ [.ret]) s := by
  simp [exec, execConfigure]

theorem exec_configure_next {s : State} (h : Ready s) (p : Pin) (d : Direction) :
    ∃ t, exec (.configure p.val d) s = .next t ∧ ConfigureCalled s t p d := by
  rw [exec_configure_pin]
  exact runCall_configure h _ p d

theorem ConfigureCalled.fsel_same {s t : State} {p : Pin} {d : Direction} (k : ConfigureCalled s t p d) :
    t.fsel[(fselIndex p).val] = updatedField (s.fsel[(fselIndex p).val]) p (code s.cfg d) := by
  simp [k.fsel, configuredFsel]

theorem ConfigureCalled.fsel_other {s t : State} {p : Pin} {d : Direction} (k : ConfigureCalled s t p d) (j : Fin 6)
    (hj : j.val ≠ p.val / 10) : t.fsel[j.val] = s.fsel[j.val] := by
  rw [k.fsel]
  exact configuredFsel_other fun e => hj (congrArg Fin.val e)

theorem configureEvents_of_whole {s : State} (hs : s.cfg.configureSplit = false) (c : Nat) (p : Pin) (d : Direction) :
    configureEvents s c p d =
      [.rd c (.fsel (fselIndex p)) (s.fsel[(fselIndex p).val]),
        .wr c (.fsel (fselIndex p)) (updatedField (s.fsel[(fselIndex p).val]) p (code s.cfg d))] := by
  simp [configureEvents, hs]

theorem configureEvents_of_split {s : State} (hs : s.cfg.configureSplit = true) (c : Nat) (p : Pin) (d : Direction) :
    configureEvents s c p d =
      [.rd c (.fsel (fselIndex p)) (s.fsel[(fselIndex p).val]),
        .wr c (.fsel (fselIndex p)) (clearedField (s.fsel[(fselIndex p).val]) p),
        .rd c (.fsel (fselIndex p)) (clearedField (s.fsel[(fselIndex p).val]) p),
        .wr c (.fsel (fselIndex p)) (updatedField (s.fsel[(fselIndex p).val]) p (code s.cfg d))] := by
  simp [configureEvents, hs]

/-- Settles O18: the word the statement writes out is `updatedField` of the old one, and the call's end is that of every
`configure`. -/
theorem configureWritesOneField : Obligations.ConfigureWritesOneField := by
  intro s p d hready hs old off new
  obtain ⟨t, ht, k⟩ := exec_configure_next hready p d
  have hreturns := k.returns
  rw [configureEvents_of_whole hs] at hreturns
  exact ⟨t, ht, hreturns, k.fsel_same, k.fsel_other, configuredFsel_fn_same k.fsel,
    fun _ hq => configuredFsel_fn_other k.fsel hq, updatedField_top old p (code s.cfg d), k.latch, k.control, k.draws⟩

/-- Settles O19: the end is that of every `configure`; the split shows in the events alone, and the first word written
is `clearedField` of the old one. -/
theorem splitConfigureClearsThenSets : Obligations.SplitConfigureClearsThenSets := by
  intro s p d hready hs r old off cleared new
  obtain ⟨t, ht, k⟩ := exec_configure_next hready p d
  have hreturns := k.returns
  rw [configureEvents_of_split hs] at hreturns
  exact ⟨t, ht, hreturns, fieldOf_clearedField old p, k.fsel_same, k.fsel_other, configuredFsel_fn_same k.fsel,
    fun _ hq => configuredFsel_fn_other k.fsel hq, k.latch, k.control, k.draws⟩

/-! ### Pins outside the map (R103, R152) -/

theorem exec_configure_of_badPin {n : Int} (hp : pinOf n = none) (d : Direction) (s : State) :
    exec (.configure n d) s = .refused .badPin := by
  simp [exec, execConfigure, hp]

theorem exec_setLevel_of_badPin {n : Int} (hp : pinOf n = none) (l : Level) (s : State) :
    exec (.setLevel n l) s = .refused .badPin := by
  simp [exec, execSetLevel, hp]

theorem exec_fselInput_of_badPin {n : Nat} (hp : pinOf n = none) (s : State) :
    exec (.fselInput n) s = .refused .badPin := by
  simp [exec, execFselInput, hp]

theorem exec_fselOutput_of_badPin {n : Nat} (hp : pinOf n = none) (s : State) :
    exec (.fselOutput n) s = .refused .badPin := by
  simp [exec, execFselOutput, hp]

/-- Settles O22: no pin has such a number, as an integer or as a function code's natural number. -/
theorem pinOutsideTheMapIsRefused : Obligations.PinOutsideTheMapIsRefused := by
  intro s
  refine ⟨fun n d l hn => ?primitives, fun n hn => ?functionCodes⟩
  case primitives =>
    have hp : pinOf n = none := pinOf_none hn
    exact ⟨exec_configure_of_badPin hp d s, exec_setLevel_of_badPin hp l s⟩
  case functionCodes =>
    have hp : pinOf n = none := pinOf_none (.inr (by omega))
    exact ⟨exec_fselInput_of_badPin hp s, exec_fselOutput_of_badPin hp s⟩

end Sys2Proof.Machine

/-! Proofs about the serial transmitter (O25, O26, O27, O31): what a call that only drives lines and waits leaves, and
what the reference receiver makes of the levels of a frame. -/

namespace Sys2Proof.Machine

/-! ### A whole call of actions that drive the lines (R110, R111) -/

/-- What a whole call of register writes to set and clear registers and settle waits leaves and returns; `latch` is
what the writes leave of the latches. -/
structure DriveCalled (s t : State) (es : List Event) (latch : BitVec 60) : Prop where
  returns : Returns s t (s.ctx s.cur) .done es
  fsel : t.fsel = s.fsel
  latch : t.latch = latch
  control : SameControl s t
  draws : t.draws = s.draws

/-- A call of actions that drive the lines, by a ready context, runs to its return. -/
theorem runCall_drives {s u : State} {i : Instr} {as : List Action} {n : Nat} {es : List Event} (h : Ready s)
    (hdo : doAll s.cur as (s.beginCall i) = some u) (k : Drives s.cur n (s.beginCall i) u es) :
    ∃ t, runCall i id (as ++ [.ret]) s = .next t ∧ DriveCalled s t es u.latch := by
  obtain ⟨hctx, hframe⟩ := h.beginCall i
  refine ⟨u.finish s.cur .done, runCall_ret h hdo, ?_⟩
  constructor
  case returns =>
    constructor
    case caller =>
      rw [State.finish_ctx_same, k.caller, Ctx.advance_iterate_of_noFrame hframe, hctx]
      rfl
    case others =>
      intro d hd
      rw [State.finish_ctx_other _ _ hd, k.others d hd, State.beginCall_ctx_other _ _ hd]
    case trace => exact k.trace
    case cfg => exact k.cfg
    case cur => exact k.cur
    case quantum => exact k.quantum
    case inputs => exact k.inputs
  case fsel => exact k.fsel
  case latch => rfl
  case control => exact ⟨k.life, k.txLock, k.vol, k.bas, k.onv, k.surface⟩
  case draws => exact k.draws

/-- Settles O25: the one action of the call is the wait, and it touches no register. -/
theorem settleRecordsOneWait : Obligations.SettleRecordsOneWait := by
  intro s hready
  have hdo : doAll s.cur [.settle] (s.beginCall .settle) = some _ := doAll_cons (perform_settle _ _) []
  obtain ⟨t, ht, k⟩ := runCall_drives hready hdo (drives_settle _ _)
  exact ⟨t, ht, k.returns, ⟨k.fsel, k.latch⟩, k.control, k.draws⟩

/-! ### The direct calls of the transmitter (R111, R113) -/

theorem exec_sendBit {s : State} (h : s.life = .operational) (v : Bool) :
    exec (.sendBit v) s = runCall (.sendBit v) id (sendBitActions s.cfg v ++ [.ret]) s :=
  if_pos (operational_iff.mpr h)

theorem exec_sendFrame {s : State} (h : s.life = .operational) (bits : List Bool) :
    exec (.sendFrame bits) s = runFrame (.sendFrame bits) bits s := if_pos (operational_iff.mpr h)

/-- Settles O26: the call's actions are those of one bit, and the data and clock pins are two. -/
theorem sendBitPulsesTheClockOnce : Obligations.SendBitPulsesTheClockOnce := by
  intro s v hready hcfg hlife
  obtain ⟨_, _, _, hclkData, _, _⟩ := Config.rolePins_distinct hcfg
  obtain ⟨u, hdo, hdrives, hlatch⟩ := doAll_sendBit s.cur v (s.beginCall (.sendBit v))
  obtain ⟨t, ht, k⟩ := runCall_drives hready hdo hdrives
  have latchAt (p : Pin) : t.latchAt p =
      if p = clkPin s.cfg then .low else if p = dataPin s.cfg then Level.ofBool v else s.latchAt p :=
    (State.latchAt_congr k.latch p).trans (hlatch p)
  refine ⟨t, (exec_sendBit hlife v).trans ht, k.returns, ?data, ?clock, fun p hdata hclk => ?others, k.fsel, k.control,
    k.draws⟩
  case data => rw [latchAt, if_neg hclkData.symm, if_pos rfl]; rfl
  case clock => rw [latchAt, if_pos rfl]
  case others => rw [latchAt, if_neg hclk, if_neg hdata]

/-- Settles O27: with the lock free the whole frame runs to its end. -/
theorem sendFrameSendsEveryBitInOrder : Obligations.SendFrameSendsEveryBitInOrder := by
  intro s bits hready hcfg hlife hlock
  obtain ⟨t, ht, k⟩ := runFrame_next (i := .sendFrame bits) (bits := bits) hready hlock
  exact ⟨t, (exec_sendFrame hlife bits).trans ht, k.returns, frameLatches_of_frameLatch hcfg k.latches, k.fsel,
    k.control, k.draws⟩

/-! ### The levels that an event leaves (R27, R34) -/

/-- The role lines all driven, at these levels. -/
def Levels.driven (a : Levels) : Lines where
  cs := .driven a.cs
  clk := .driven a.clk
  data := .driven a.data
  en := .driven a.en

/-- Lines the block drives have the levels it drives, at every position. -/
@[simp] theorem Lines.levelsAt_driven (cfg : Config) (n : Nat) (a : Levels) : a.driven.levelsAt cfg n = a := rfl

/-- With the parameters `cfg`, the block drives its role lines at the levels `a`. -/
structure Shows (cfg : Config) (s : State) (a : Levels) : Prop where
  cfg : s.cfg = cfg
  lines : s.lines = a.driven

/-- The state an event leaves, as an observer has it: the registers replayed, the trace one longer. -/
def State.after (s : State) (e : Event) : State := (s.replay e).emit e

@[simp] theorem State.after_cfg (s : State) (e : Event) : (s.after e).cfg = s.cfg := by simp [State.after]

theorem State.after_trace (s : State) (e : Event) : (s.after e).trace = s.trace ++ [e] := by
  cases e <;> simp [State.after, State.replay]

/-- R27: a line is driven where its pin is an output, at the level of its latch. -/
theorem State.line_eq_driven_iff (s : State) (p : Pin) (l : Level) :
    s.line p = .driven l ↔ s.dir p = .output ∧ s.latchAt p = l := by
  unfold State.line
  split <;> simp [*]

/-- The write of `set_level` moves the driven line of its pin and no other (R102). -/
theorem State.line_after_setLevel {s : State} {q : Pin} {m : Level} (h : s.line q = .driven m) (c : Nat) (p : Pin)
    (l : Level) : (s.after (setLevelEvent c p l)).line q = .driven (if q = p then l else m) := by
  obtain ⟨hdir, hlatch⟩ := (s.line_eq_driven_iff q m).mp h
  refine (State.line_eq_driven_iff _ q _).mpr ⟨?_, ?_⟩
  · rw [← hdir]
    exact State.dir_congr (by simp) (s.applyWrite_level_fsel p l) q
  · rw [← hlatch]
    exact s.applyWrite_level_latchAt p q l

/-- The role lines after a `set_level`: all still driven, those of its pin at its level. -/
theorem Shows.setLevel {cfg : Config} {s : State} {a : Levels} (h : Shows cfg s a) (c : Nat) (p : Pin) (l : Level) :
    Shows cfg (s.after (setLevelEvent c p l))
      { cs := if csPin cfg = p then l else a.cs, clk := if clkPin cfg = p then l else a.clk,
        data := if dataPin cfg = p then l else a.data, en := if enPin cfg = p then l else a.en } := by
  obtain ⟨rfl, hlines⟩ := h
  simp only [State.lines, Levels.driven, Lines.mk.injEq] at hlines
  obtain ⟨hcs, hclk, hdata, hen⟩ := hlines
  refine ⟨s.after_cfg _, ?_⟩
  simp only [State.lines, Levels.driven, State.after_cfg, State.line_after_setLevel hcs,
    State.line_after_setLevel hclk, State.line_after_setLevel hdata, State.line_after_setLevel hen]

/-- Of distinct role pins, a `set_level` of chip-select moves its line alone (R9). -/
theorem Shows.setCs {cfg : Config} {s : State} {a : Levels} (hwf : cfg.wf = true) (h : Shows cfg s a) (c : Nat)
    (l : Level) : Shows cfg (s.after (setLevelEvent c (csPin cfg) l)) { a with cs := l } := by
  obtain ⟨hcsClk, hcsData, hcsEn, _, _, _⟩ := Config.rolePins_distinct hwf
  simpa only [if_pos, if_neg hcsClk.symm, if_neg hcsData.symm, if_neg hcsEn.symm] using h.setLevel c (csPin cfg) l

theorem Shows.setClk {cfg : Config} {s : State} {a : Levels} (hwf : cfg.wf = true) (h : Shows cfg s a) (c : Nat)
    (l : Level) : Shows cfg (s.after (setLevelEvent c (clkPin cfg) l)) { a with clk := l } := by
  obtain ⟨hcsClk, _, _, hclkData, hclkEn, _⟩ := Config.rolePins_distinct hwf
  simpa only [if_pos, if_neg hcsClk, if_neg hclkData.symm, if_neg hclkEn.symm] using h.setLevel c (clkPin cfg) l

theorem Shows.setData {cfg : Config} {s : State} {a : Levels} (hwf : cfg.wf = true) (h : Shows cfg s a) (c : Nat)
    (l : Level) : Shows cfg (s.after (setLevelEvent c (dataPin cfg) l)) { a with data := l } := by
  obtain ⟨_, hcsData, _, hclkData, _, hdataEn⟩ := Config.rolePins_distinct hwf
  simpa only [if_pos, if_neg hcsData, if_neg hclkData, if_neg hdataEn.symm] using h.setLevel c (dataPin cfg) l

/-! ### The receiver over a stretch of events (R117) -/

/-- The events `es`, from a state `s` on, take the receiver from `x` to `y`, and leave a state `t` in which the block
drives its role lines at the levels `b`. -/
structure Leads (cfg : Config) (s : State) (x : Receiver) (es : List Event) (t : State) (b : Levels) (y : Receiver) :
    Prop where
  shows_end : Shows cfg t b
  watched : ∀ fs, x.over s (es ++ fs) = y.over t fs

theorem Leads.refl {cfg : Config} {s : State} {a : Levels} (h : Shows cfg s a) (x : Receiver) :
    Leads cfg s x [] s a x := ⟨h, fun _ => rfl⟩

theorem Leads.trans {cfg : Config} {s t u : State} {x y z : Receiver} {es fs : List Event} {b d : Levels}
    (h : Leads cfg s x es t b y) (k : Leads cfg t y fs u d z) : Leads cfg s x (es ++ fs) u d z where
  shows_end := k.shows_end
  watched gs := by rw [List.append_assoc, h.watched, k.watched]

/-- One event, from driven lines to driven lines, is one observation of their levels. -/
theorem Leads.event {cfg : Config} {s : State} {a b : Levels} {e : Event} (h : Shows cfg s a)
    (k : Shows cfg (s.after e) b) (x : Receiver) : Leads cfg s x [e] (s.after e) b (x.observe a b) where
  shows_end := k
  watched fs := by
    have hreplay : (s.replay e).lines = b.driven := k.lines
    have hone : x.over s [e] = x.observe a b := by
      rw [Receiver.over_one, State.levels, h.lines, hreplay, Lines.levelsAt_driven, Lines.levelsAt_driven]
    rw [Receiver.over_append (s.after_cfg e) rfl rfl (s.after_trace e), hone]

/-- An event that replays to nothing is not seen. -/
theorem Leads.unseen {cfg : Config} {s : State} {a : Levels} (h : Shows cfg s a) {e : Event} (he : s.replay e = s)
    (x : Receiver) : Leads cfg s x [e] (s.after e) a x := by
  have hafter : Shows cfg (s.after e) a := by
    rw [State.after, he]
    exact ⟨h.cfg, h.lines⟩
  have k := Leads.event h hafter x
  rwa [Receiver.observe_same] at k

/-- R110: a settle wait is not seen, so an event and the wait after it are one observation. -/
theorem Leads.event_settle {cfg : Config} {s : State} {a b : Levels} {e : Event} (h : Shows cfg s a)
    (k : Shows cfg (s.after e) b) (c : Nat) (x : Receiver) :
    Leads cfg s x [e, .settle c] ((s.after e).after (.settle c)) b (x.observe a b) :=
  (Leads.event h k x).trans (Leads.unseen k rfl _)

/-! ### The receiver over a frame (R117, R118) -/

/-- The receiver with more bits collected. -/
def Receiver.collect (x : Receiver) (bits : List Bool) : Receiver := { x with collected := x.collected ++ bits }

@[simp] theorem Receiver.collect_nil (x : Receiver) : x.collect [] = x := by simp [Receiver.collect]

@[simp] theorem Receiver.collect_collect (x : Receiver) (bits rest : List Bool) :
    (x.collect bits).collect rest = x.collect (bits ++ rest) := by simp [Receiver.collect]

/-- The levels while chip-select and the clock are low: those of a frame before, between and after its bits. -/
def insideFrame (data en : Level) : Levels where
  cs := .low
  clk := .low
  data := data
  en := en

/-- The levels inside a frame while the clock is high. -/
def clockPulse (data en : Level) : Levels := { insideFrame data en with clk := .high }

/-- The levels while chip-select is high and the clock low: those before and after a frame. -/
def outsideFrame (data en : Level) : Levels := { insideFrame data en with cs := .high }

/-- A falling edge of chip-select, the clock standing, only empties what was collected (R117). -/
theorem Receiver.observe_frameStart (x : Receiver) (data en : Level) :
    x.observe (outsideFrame data en) (insideFrame data en) = { x with collected := [] } := rfl

theorem Receiver.observe_data (x : Receiver) (before after en : Level) :
    x.observe (insideFrame before en) (insideFrame after en) = x := rfl

/-- A rising clock edge inside a frame collects the level of the data line (R117). -/
theorem Receiver.observe_clockRise (x : Receiver) (v : Bool) (en : Level) :
    x.observe (insideFrame (Level.ofBool v) en) (clockPulse (Level.ofBool v) en) = x.collect [v] := by
  cases v <;> rfl

theorem Receiver.observe_clockFall (x : Receiver) (data en : Level) :
    x.observe (clockPulse data en) (insideFrame data en) = x := rfl

/-- A rising edge of chip-select, the clock standing, only delivers what was collected (R117). -/
theorem Receiver.observe_frameEnd (x : Receiver) (data en : Level) :
    x.observe (insideFrame data en) (outsideFrame data en) =
      { x with deliveries := x.deliveries ++ [deliver x.collected] } := rfl

/-- The receiver collects the bit that `send_bit` sends, as the clock rises, and is moved by nothing else of it
(R111, R117). -/
theorem leads_sendBit {cfg : Config} {s : State} {data en : Level} (hwf : cfg.wf = true)
    (h : Shows cfg s (insideFrame data en)) (c : Nat) (v : Bool) (x : Receiver) :
    ∃ t, Leads cfg s x (sendBitEvents cfg c v) t (insideFrame (Level.ofBool v) en) (x.collect [v]) := by
  have hdata : Shows cfg _ (insideFrame (Level.ofBool v) en) := Shows.setData hwf h c (Level.ofBool v)
  have kdata := Leads.event_settle h hdata c x
  rw [Receiver.observe_data] at kdata
  have hrise : Shows cfg _ (clockPulse (Level.ofBool v) en) := Shows.setClk hwf kdata.shows_end c .high
  have krise := Leads.event_settle kdata.shows_end hrise c x
  rw [Receiver.observe_clockRise] at krise
  have hfall : Shows cfg _ (insideFrame (Level.ofBool v) en) := Shows.setClk hwf krise.shows_end c .low
  have kfall := Leads.event_settle krise.shows_end hfall c (x.collect [v])
  rw [Receiver.observe_clockFall] at kfall
  exact ⟨_, (kdata.trans krise).trans kfall⟩

/-- The receiver collects the bits of a sequence in order (R113, R117). -/
theorem leads_bits {cfg : Config} (hwf : cfg.wf = true) (c : Nat) (en : Level) (bits : List Bool) :
    ∀ {s : State} {data : Level}, Shows cfg s (insideFrame data en) → ∀ x : Receiver, ∃ t last,
      Leads cfg s x (bits.flatMap (sendBitEvents cfg c)) t (insideFrame last en) (x.collect bits) := by
  induction bits with
  | nil =>
    intro s data h x
    rw [Receiver.collect_nil]
    exact ⟨s, data, Leads.refl h x⟩
  | cons v rest ih =>
    intro s data h x
    obtain ⟨t, kfirst⟩ := leads_sendBit hwf h c v x
    obtain ⟨u, last, krest⟩ := ih kfirst.shows_end (x.collect [v])
    rw [Receiver.collect_collect] at krest
    exact ⟨u, last, kfirst.trans krest⟩

/-- The receiver over a frame: it forgets what it held as chip-select falls, collects the bits, and delivers them as
chip-select rises (R113, R117). -/
theorem leads_frame {cfg : Config} {s : State} {data en : Level} (hwf : cfg.wf = true)
    (h : Shows cfg s (outsideFrame data en)) (c : Nat) (bits : List Bool) (x : Receiver) :
    ∃ t b, Leads cfg s x (frameEvents cfg c bits) t b
      { collected := bits, deliveries := x.deliveries ++ [deliver bits] } := by
  have kacq := Leads.unseen h (e := .acq c) rfl x
  have hstart : Shows cfg _ (insideFrame data en) := Shows.setCs hwf kacq.shows_end c .low
  have kstart := Leads.event_settle kacq.shows_end hstart c x
  rw [Receiver.observe_frameStart] at kstart
  obtain ⟨t, last, kbits⟩ := leads_bits hwf c en bits kstart.shows_end { x with collected := [] }
  have hend : Shows cfg _ (outsideFrame last en) := Shows.setCs hwf kbits.shows_end c .high
  have kend := Leads.event kbits.shows_end hend (Receiver.collect { x with collected := [] } bits)
  rw [Receiver.observe_frameEnd] at kend
  have krel := Leads.unseen kend.shows_end (e := .rel c) rfl
    { collected := bits, deliveries := x.deliveries ++ [deliver bits] }
  exact ⟨_, _, ((kacq.trans kstart).trans kbits).trans (kend.trans krel)⟩

/-- Once started the block drives its role lines, chip-select high and the clock low (R37). -/
theorem Started.shows_levels {s : State} (h : Started s) :
    Shows s.cfg s (outsideFrame (s.latchAt (dataPin s.cfg)) (s.latchAt (enPin s.cfg))) := by
  have driven {p : Pin} (hp : s.fn p = s.cfg.codeOutput) : s.line p = .driven (s.latchAt p) :=
    State.line_of_output (if_pos hp)
  refine ⟨rfl, ?_⟩
  simp only [State.lines, Levels.driven, outsideFrame, insideFrame, driven h.cs, driven h.clk, driven h.data,
    driven h.en, h.csHigh, h.clkLow]

/-- Settles O31: the events of the frame are those of O27, and all the receiver sees of them is its bits between the
two edges of chip-select. -/
theorem receiverGetsTheFrameSent : Obligations.ReceiverGetsTheFrameSent := by
  intro s bits hready hcfg hstarted hlock
  obtain ⟨t, ht, k⟩ := runFrame_next (i := .sendFrame bits) (bits := bits) hready hlock
  obtain ⟨u, b, kframe⟩ := leads_frame hcfg hstarted.shows_levels s.cur bits (Receiver.start s.trace.length)
  have hreceived : received s (frameEvents s.cfg s.cur bits) = { collected := bits, deliveries := [deliver bits] } := by
    have hover := kframe.watched []
    rwa [List.append_nil] at hover
  refine ⟨t, _, (exec_sendFrame hstarted.life bits).trans ht, k.returns.trace, ?_, ?_⟩
  · rw [hreceived]
  · rw [hreceived]

end Sys2Proof.Machine

/-! Proof that preemption only delays (O60): no action sees what its context has stored to do, nor how it is scheduled, so
the rest of a run, done later, ends where the whole run ends. -/

namespace Sys2Proof.Machine

/-! ### Changes that no action sees -/

/-- What an action does, with its next state changed: by `going` where the call goes on, by `ended` where it is over. -/
def Performed.map (going ended : State → State) : Performed → Performed
  | .did s => .did (going s)
  | .wait => .wait
  | .ended s => .ended (ended s)
  | .refuse r => .refuse r

theorem Performed.map_ite (going ended : State → State) (p : Prop) [Decidable p] (a b : Performed) :
    (if p then a else b).map going ended = if p then a.map going ended else b.map going ended :=
  apply_ite _ p a b

theorem State.tryWrite_scheduled (s : State) (d : Nat) (q : Option Nat) (c : Nat) (r : Reg) (v : Word) :
    (s.scheduled d q).tryWrite c r v = (s.tryWrite c r v).map (·.scheduled d q) (·.scheduled d q) := by
  rw [State.tryWrite, State.tryWrite, Performed.map_ite]
  cases r <;> rfl

/-- No action sees which context is scheduled and with what quantum, and none changes it (R17). -/
theorem perform_scheduled (c : Nat) (a : Action) (s : State) (d : Nat) (q : Option Nat) :
    perform c a (s.scheduled d q) = (perform c a s).map (·.scheduled d q) (·.scheduled d q) := by
  cases a with
  | read r => cases r <;> rfl
  | write r v => exact s.tryWrite_scheduled d q c r v
  | writeField p dir => exact s.tryWrite_scheduled d q c _ _
  | clearField p => exact s.tryWrite_scheduled d q c _ _
  | orField p dir => exact s.tryWrite_scheduled d q c _ _
  | acquire =>
    simp only [perform, State.acquire, Performed.map_ite]
    rfl
  | release =>
    simp only [perform, State.release, Performed.map_ite]
    rfl
  | register =>
    simp only [perform, State.registerSurface, Performed.map_ite]
    rfl
  | teardown =>
    simp only [perform, State.tearDown, Performed.map_ite]
    rfl
  | accept name v => cases name <;> rfl
  | _ => rfl

/-! ### What a context has stored to do -/

/-- What no fresh record meets, some listed record meets just when the record of some label does. -/
theorem Contexts.any_iff {m : Contexts} (hm : m.wf = true) {p : Nat × Ctx → Bool}
    (hfresh : ∀ d, p (d, Ctx.fresh) = false) : m.any p = true ↔ ∃ d, p (d, m.get d) = true := by
  rw [List.any_eq_true]
  constructor
  · rintro ⟨⟨d, x⟩, hmem, hp⟩
    have hget : m.get d = x := Contexts.get_of_mem hm hmem
    exact ⟨d, hget ▸ hp⟩
  · rintro ⟨d, hp⟩
    rcases Contexts.mem_of_get m d with hget | hmem
    · rw [hget, hfresh] at hp
      cases hp
    · exact ⟨_, hmem, hp⟩

theorem Contexts.any_congr {m n : Contexts} (hm : m.wf = true) (hn : n.wf = true) {p : Nat × Ctx → Bool}
    (hfresh : ∀ d, p (d, Ctx.fresh) = false) (h : ∀ d, p (d, m.get d) = p (d, n.get d)) : m.any p = n.any p := by
  rw [Bool.eq_iff_iff, Contexts.any_iff hm hfresh, Contexts.any_iff hn hfresh]
  simp only [h]

/-- Two changes of one record are one change. -/
theorem State.mapCtx_mapCtx {s : State} (hwf : s.ctxs.wf = true) (c : Nat) (f g : Ctx → Ctx) :
    (s.mapCtx c f).mapCtx c g = s.mapCtx c fun x => g (f x) := by
  have hctxs : ((s.mapCtx c f).mapCtx c g).ctxs = (s.mapCtx c fun x => g (f x)).ctxs := by
    refine Contexts.ext (State.mapCtx_wf (State.mapCtx_wf hwf c f) c g) (State.mapCtx_wf hwf c _) fun d => ?_
    change ((s.mapCtx c f).mapCtx c g).ctx d = (s.mapCtx c fun x => g (f x)).ctx d
    by_cases hd : d = c
    · subst hd
      simp
    · rw [State.mapCtx_ctx_other _ _ hd, State.mapCtx_ctx_other _ _ hd, State.mapCtx_ctx_other _ _ hd]
  calc (s.mapCtx c f).mapCtx c g = { s with ctxs := ((s.mapCtx c f).mapCtx c g).ctxs } := rfl
    _ = { s with ctxs := (s.mapCtx c fun x => g (f x)).ctxs } := by rw [hctxs]
    _ = s.mapCtx c fun x => g (f x) := rfl

/-- A change that leaves the stored work alone may be made before the work is stored or after. -/
theorem State.suspend_mapCtx {s : State} (hwf : s.ctxs.wf = true) (c : Nat) (work : List Action) {f : Ctx → Ctx}
    (hf : ∀ x, f (x.withWork work) = (f x).withWork work) :
    (s.suspend c work).mapCtx c f = (s.mapCtx c f).suspend c work := by
  calc (s.suspend c work).mapCtx c f = s.mapCtx c fun x => f (x.withWork work) := State.mapCtx_mapCtx hwf c _ f
    _ = s.mapCtx c fun x => (f x).withWork work := by simp only [hf]
    _ = (s.mapCtx c f).suspend c work := (State.mapCtx_mapCtx hwf c f (·.withWork work)).symm

/-- A change that sets the stored work makes no difference between what was stored. -/
theorem State.suspend_mapCtx_of_sets {s : State} (hwf : s.ctxs.wf = true) (c : Nat) (work : List Action) {f : Ctx → Ctx}
    (hf : ∀ x, f (x.withWork work) = f x) : (s.suspend c work).mapCtx c f = s.mapCtx c f := by
  calc (s.suspend c work).mapCtx c f = s.mapCtx c fun x => f (x.withWork work) := State.mapCtx_mapCtx hwf c _ f
    _ = s.mapCtx c f := by simp only [hf]

theorem State.suspend_suspend {s : State} (hwf : s.ctxs.wf = true) (c : Nat) (stored work : List Action) :
    (s.suspend c stored).suspend c work = s.suspend c work := State.suspend_mapCtx_of_sets hwf c stored fun _ => rfl

theorem State.suspend_finish {s : State} (hwf : s.ctxs.wf = true) (c : Nat) (stored : List Action) (r : Result) :
    (s.suspend c stored).finish c r = s.finish c r := State.suspend_mapCtx_of_sets hwf c stored fun _ => rfl

theorem Ctx.advance_withWork (x : Ctx) (work : List Action) : (x.withWork work).advance = x.advance.withWork work := by
  obtain ⟨seq, frame, call, w, temp, result⟩ := x
  unfold Ctx.advance Ctx.withWork
  split <;> simp_all

theorem State.suspend_advance {s : State} (hwf : s.ctxs.wf = true) (c : Nat) (work : List Action) :
    (s.suspend c work).advance c = (s.advance c).suspend c work :=
  State.suspend_mapCtx hwf c work fun x => x.advance_withWork work

/-- A record with other work stored differs in that alone. -/
theorem State.suspend_ctx (s : State) (c : Nat) (work : List Action) (d : Nat) :
    ∃ w, (s.suspend c work).ctx d = (s.ctx d).withWork w := by
  by_cases hd : d = c
  · subst hd
    exact ⟨work, s.suspend_ctx_same d work⟩
  · exact ⟨(s.ctx d).work, s.suspend_ctx_other work hd⟩

/-- Whether something is in flight does not depend on the stored work (R142). -/
theorem State.suspend_inFlight {s : State} (hwf : s.ctxs.wf = true) (c : Nat) (work : List Action) :
    (s.suspend c work).inFlight = s.inFlight := by
  have hget (d : Nat) : ∃ w, (s.suspend c work).ctxs.get d = (s.ctxs.get d).withWork w := s.suspend_ctx c work d
  have hwf' : (s.suspend c work).ctxs.wf = true := State.mapCtx_wf hwf c _
  unfold State.inFlight State.anyCall
  congr 1
  · congr 1
    refine Contexts.any_congr hwf' hwf (fun _ => rfl) fun d => ?_
    obtain ⟨w, hw⟩ := hget d
    rw [hw]
    rfl
  · refine Contexts.any_congr hwf' hwf (fun _ => rfl) fun d => ?_
    obtain ⟨w, hw⟩ := hget d
    rw [hw]
    rfl

theorem State.tryWrite_suspend {s : State} (hwf : s.ctxs.wf = true) (c : Nat) (work : List Action) (r : Reg) (v : Word) :
    (s.suspend c work).tryWrite c r v = (s.tryWrite c r v).map (·.suspend c work) id := by
  have hwrite : (s.suspend c work).regWrite c r v = (s.regWrite c r v).suspend c work := by
    have hkeep : ((s.applyWrite r v).emit (.wr c r v)).ctxs.wf = true := by simpa using hwf
    cases r <;> exact State.suspend_advance hkeep c work
  rw [State.tryWrite, State.tryWrite, Performed.map_ite, hwrite]
  rfl

/-- No action sees the work its context has stored: one that goes on leaves it stored, one that ends the call clears
it. -/
theorem perform_suspend {s : State} (hwf : s.ctxs.wf = true) (c : Nat) (work : List Action) (a : Action) :
    perform c a (s.suspend c work) = (perform c a s).map (·.suspend c work) id := by
  have htemp : ((s.suspend c work).ctx c).temp = (s.ctx c).temp := by rw [State.suspend_ctx_same]
  cases a with
  | read r =>
    have reads (t : State) (ht : t.ctxs = s.ctxs) (v : Word) :
        Performed.did ((t.suspend c work).keep c v) = .did ((t.keep c v).suspend c work) :=
      congrArg Performed.did (State.suspend_mapCtx (ht ▸ hwf) c work fun _ => rfl)
    cases r with
    | fsel k => exact reads (s.emit (.rd c (.fsel k) s.fsel[k.val])) rfl _
    | set k => exact reads (s.drawn.emit (.rd c (.set k) (freeLevelRead s.draws))) rfl _
    | clr k => exact reads (s.drawn.emit (.rd c (.clr k) (freeLevelRead s.draws))) rfl _
  | write r v => exact State.tryWrite_suspend hwf c work r v
  | writeField p d =>
    simp only [perform, htemp]
    exact State.tryWrite_suspend hwf c work _ _
  | clearField p =>
    simp only [perform, htemp]
    exact State.tryWrite_suspend hwf c work _ _
  | orField p d =>
    simp only [perform, htemp]
    exact State.tryWrite_suspend hwf c work _ _
  | settle => exact congrArg Performed.did (State.suspend_advance (s := s.emit (.settle c)) hwf c work)
  | enter bits => exact congrArg Performed.did (State.suspend_mapCtx hwf c work fun _ => rfl)
  | acquire =>
    simp only [perform, State.acquire, Performed.map_ite]
    exact if_congr Iff.rfl (congrArg Performed.did
      (State.suspend_mapCtx (s := (s.putLock (.held c)).emit (.acq c)) hwf c work fun _ => rfl)) rfl
  | release =>
    simp only [perform, State.release, Performed.map_ite]
    exact if_congr Iff.rfl (congrArg Performed.did
      (State.suspend_mapCtx (s := (s.putLock .free).emit (.rel c)) hwf c work fun _ => rfl)) rfl
  | accept name v => cases name <;> rfl
  | reject name => exact congrArg Performed.ended (State.suspend_finish (s := s.emit (.reject c name)) hwf c work _)
  | pinsConfigured => rfl
  | register =>
    have ends {t : State} (ht : t.ctxs.wf = true) (r : Result) :
        Performed.ended ((t.suspend c work).finish c r) = .ended (t.finish c r) :=
      congrArg Performed.ended (State.suspend_finish ht c work r)
    simp only [perform, State.registerSurface, Performed.map_ite]
    exact if_congr Iff.rfl
      (ends (t := (s.putLife .uninitialized).putSurface s.surface.tail) hwf _)
      (ends (t := (s.putLife .operational).putSurface s.surface.tail) hwf _)
  | teardown =>
    simp only [perform, State.tearDown, State.suspend_inFlight hwf, Performed.map_ite]
    rfl
  | ret => exact congrArg Performed.ended (State.suspend_finish hwf c work _)
  | retWord =>
    simp only [perform, htemp]
    exact congrArg Performed.ended (State.suspend_finish hwf c work _)
  | retText name => exact congrArg Performed.ended (State.suspend_finish hwf c work _)

/-! ### A run cut in two (R17, R59) -/

/-- A run with something to do goes the same way whatever its context has stored. -/
theorem runWork_suspend {cfg : Config} {c : Nat} (stored : List Action) {work : List Action} (q : Option Nat)
    (hseq : WellSequenced cfg work) (hne : work ≠ []) {s : State} (hwf : s.ctxs.wf = true) :
    runWork c work q (s.suspend c stored) = runWork c work q s := by
  induction work generalizing q s with
  | nil => exact absurd rfl hne
  | cons a rest ih =>
    obtain ⟨hfollowed, hrest⟩ := hseq
    rw [runWork, runWork, State.suspend_suspend hwf, perform_suspend hwf]
    split
    · rfl
    · cases hp : perform c a s with
      | did s' => exact ih (spend q) hrest (perform_did_rest hp hfollowed) (perform_wf hwf (.inl hp))
      | wait => rfl
      | ended s' => rfl
      | refuse r => rfl

/-- A call that ended has no work left. -/
theorem perform_ended_work {c : Nat} {a : Action} {s s' : State} (h : perform c a s = .ended s') :
    (s'.ctx c).work = [] := by
  rcases perform_ended h with ⟨name, _, rfl⟩ | ⟨_, _, rfl⟩ | ⟨_, _, rfl⟩ | ⟨_, rfl⟩ | ⟨_, rfl⟩ | ⟨name, _, rfl⟩
  all_goals simp [Ctx.returned]

/-- A run of a call, preempted after `n` actions and then let go on with the work it has stored, is the whole run. -/
theorem runWork_resumed {cfg : Config} {c : Nat} {work : List Action} (n : Nat) (hseq : WellSequenced cfg work)
    (hne : work ≠ []) {s : State} (hwf : s.ctxs.wf = true) :
    andThen (runWork c work (some n) s) (fun t => resumeCall (t.scheduled c none))
      = runWork c work none (s.scheduled c none) := by
  have resume (t : State) : resumeCall (t.scheduled c none) = runWork c (t.ctx c).work none (t.scheduled c none) := rfl
  induction work generalizing n s with
  | nil => exact absurd rfl hne
  | cons a rest ih =>
    have hsuspended : resumeCall ((s.suspend c (a :: rest)).scheduled c none)
        = runWork c (a :: rest) none (s.scheduled c none) := by
      rw [resume, State.suspend_ctx_same]
      exact runWork_suspend (s := s.scheduled c none) (a :: rest) none hseq hne hwf
    have hlater := perform_scheduled c a s c none
    cases n with
    | zero => exact hsuspended
    | succ n =>
      cases hp : perform c a s with
      | did s' =>
        rw [hp] at hlater
        rw [runWork_did (by simp) hp, runWork_did (by simp) hlater]
        exact ih n hseq.2 (perform_did_rest hp hseq.1) (perform_wf hwf (.inl hp))
      | wait =>
        rw [runWork_wait hp]
        exact hsuspended
      | ended s' =>
        rw [hp] at hlater
        rw [runWork_ended (by simp) hp, runWork_ended (by simp) hlater, andThen, resume, perform_ended_work hp]
        rfl
      | refuse r =>
        rw [hp] at hlater
        rw [runWork_refuse (by simp) hp, runWork_refuse (by simp) hlater, andThen]

/-! ### Calls cut in two -/

/-- A call of the running context of `s`, preempted after any number of its actions and resumed, is the whole call. -/
def DelaysOnly (s : State) (call : State → Host.Outcome State Fault Refusal) : Prop :=
  ∀ n, andThen (call (s.scheduled s.cur (some n))) (fun t => resumeCall (t.scheduled s.cur none))
    = call (s.scheduled s.cur none)

/-- A refusal is the same refusal whatever the quantum. -/
theorem DelaysOnly.refused (s : State) (r : Refusal) : DelaysOnly s fun _ => .refused r := fun _ => rfl

theorem DelaysOnly.of_refused {s : State} {i : Instr} {r : Refusal} (h : ∀ u, exec i u = .refused r) :
    DelaysOnly s (exec i) := by
  rw [funext h]
  exact .refused s r

/-- A check that does not see the quantum comes before a call as before its two parts. -/
theorem DelaysOnly.guarded {s : State} {call : State → Host.Outcome State Fault Refusal} (h : DelaysOnly s call)
    {allowed : State → Bool} (hsame : ∀ q, allowed (s.scheduled s.cur q) = allowed s) (r : Refusal) :
    DelaysOnly s fun u => if allowed u then call u else .refused r := by
  intro n
  simp only [hsame]
  split
  · exact h n
  · rfl

/-- The entry of a call by the running context does not see the quantum. -/
theorem callEntry_scheduled (i : Instr) (u : State) (q : Option Nat) :
    callEntry i (u.scheduled u.cur q) = (callEntry i u).scheduled u.cur q := by
  unfold callEntry
  split
  · rfl
  · split <;> rfl

/-- A call with something to do is its run after its entry, or refused to a busy context. -/
theorem DelaysOnly.call {s : State} (hwf : s.ctxs.wf = true) (i : Instr) (hne : program s.cfg i ≠ []) :
    DelaysOnly s fun u => runCall i (callEntry i) (program u.cfg i) u := by
  intro n
  change andThen (runCall i (callEntry i) (program s.cfg i) (s.scheduled s.cur (some n))) _
    = runCall i (callEntry i) (program s.cfg i) (s.scheduled s.cur none)
  by_cases hidle : (s.ctx s.cur).call = none
  · have hrun (q : Option Nat) : runCall i (callEntry i) (program s.cfg i) (s.scheduled s.cur q)
        = runWork s.cur (program s.cfg i) q ((callEntry i (s.beginCall i)).scheduled s.cur q) :=
      (runCall_idle (s := s.scheduled s.cur q) hidle).trans
        (congrArg (runWork s.cur (program s.cfg i) q) (callEntry_scheduled i (s.beginCall i) q))
    have hentered : (callEntry i (s.beginCall i)).ctxs.wf = true := callEntry_wf (State.mapCtx_wf hwf s.cur _) i
    rw [hrun, hrun]
    exact runWork_resumed (s := (callEntry i (s.beginCall i)).scheduled s.cur (some n)) n
      (wellSequenced_program s.cfg i) hne hentered
  · have hbusy (q : Option Nat) :
        runCall i (callEntry i) (program s.cfg i) (s.scheduled s.cur q) = .refused .contextBusy := runCall_busy hidle
    rw [hbusy, hbusy]
    rfl

/-- An operation that is its call, without a check before it. -/
theorem DelaysOnly.of_call {s : State} (hwf : s.ctxs.wf = true) {i : Instr}
    (h : ∀ u, exec i u = runCall i (callEntry i) (program u.cfg i) u) (hne : program s.cfg i ≠ []) :
    DelaysOnly s (exec i) := by
  rw [funext h]
  exact .call hwf i hne

/-- An operation that is its call where the block is operational (R131, R152). -/
theorem DelaysOnly.of_operational_call {s : State} (hwf : s.ctxs.wf = true) {i : Instr}
    (h : ∀ u, exec i u =
      if u.operational then runCall i (callEntry i) (program u.cfg i) u else .refused .badLifecycle)
    (hne : program s.cfg i ≠ []) : DelaysOnly s (exec i) := by
  rw [funext h]
  exact (DelaysOnly.call hwf i hne).guarded (fun _ => rfl) .badLifecycle

theorem storeActions_ne_nil (cfg : Config) (name : Attr) (t : Text) : storeActions cfg name t ≠ [] := by
  unfold storeActions
  split <;> simp

theorem startActions_ne_nil (cfg : Config) : startActions cfg ≠ [] := by simp [startActions]

/-- Every operation is refused, or is a call with something to do, as its checks of the lifetime and of its operands
have it, and none of these sees the quantum. -/
theorem delaysOnly_exec {s : State} (hwf : s.ctxs.wf = true) (i : Instr) : DelaysOnly s (exec i) := by
  cases i with
  | fselRead k | fselWrite k v | setWrite k v | clrWrite k v | setclrRead j | settle | stop | lockAcquire
  | lockRelease => exact .of_call hwf (fun _ => rfl) (by simp [program])
  | loadA m | loadB m | loadAB m | sendBit v | sendFrame bits | showVolume | showBass | showOn =>
    exact .of_operational_call hwf (fun _ => rfl) (by simp [program])
  | storeVolume t | storeBass t | storeOn t =>
    exact .of_operational_call hwf (fun _ => rfl) (storeActions_ne_nil _ _ _)
  | start => exact (DelaysOnly.call hwf .start (startActions_ne_nil _)).guarded (fun _ => rfl) .badLifecycle
  | fselInput pin | fselOutput pin | configure pin d | setLevel pin l =>
    cases hp : pinOf pin with
    | none =>
      exact .of_refused (r := .badPin) fun u => by
        simp only [exec, execFselInput, execFselOutput, execConfigure, execSetLevel, hp]
    | some p =>
      refine .of_call hwf (fun u => ?_) (by simp [program, hp])
      simp only [exec, execFselInput, execFselOutput, execConfigure, execSetLevel, program, hp]
      rfl
  | regRead n | regWrite n v =>
    cases hr : regOfIndex n with
    | none => exact .of_refused (r := .badAccess) fun u => by simp only [exec, execRegRead, execRegWrite, hr]
    | some r =>
      refine .of_call hwf (fun u => ?_) (by simp [program, hr])
      simp only [exec, execRegRead, execRegWrite, program, hr]
      rfl
  | write ch m =>
    cases hm : magnitudeOf m with
    | none =>
      have hrefused := (DelaysOnly.refused s .badMagnitude).guarded (allowed := State.operational) (fun _ => rfl)
        .badLifecycle
      change DelaysOnly s fun u => execWrite ch m u
      simpa only [execWrite, hm] using hrefused
    | some mag =>
      have hentry : callEntry (.write ch m) = fun u => u.enterFrame u.cur (frameBits ch mag) :=
        funext (callEntry_of_frame (by simp [frameOf, hm]))
      refine .of_operational_call hwf (fun u => ?_) (by simp [program, hm])
      simp only [exec, execWrite, program, hm, hentry]
      rfl

/-- Settles O60: an operation's checks do not see the quantum, and its run is cut in two where the quantum ends. -/
theorem preemptionOnlyDelays : Obligations.PreemptionOnlyDelays := fun _ i n hwf => delaysOnly_exec hwf i n

end Sys2Proof.Machine

/-! Proofs about the DAC command encoder (O35, O37): `write` as the transmission of one frame, and its refusal of a
magnitude that has no ten bits. -/

namespace Sys2Proof.Machine

/-! ### The magnitude of a `write` (R121, R122) -/

theorem magnitudeOf_fin (m : Fin 1024) : magnitudeOf (m.val : Int) = some (BitVec.ofNat 10 m.val) :=
  magnitudeOf_in_range (Int.natCast_nonneg _) (by omega)

theorem exec_write_of_some {s : State} (h : s.life = .operational) (ch : Channel) {m : Int} {mag : BitVec 10}
    (hm : magnitudeOf m = some mag) : exec (.write ch m) s = runFrame (.write ch m) (frameBits ch mag) s := by
  change execWrite ch m s = _
  rw [execWrite, if_pos (operational_iff.mpr h), hm]

theorem exec_write_of_none {s : State} (h : s.life = .operational) (ch : Channel) {m : Int}
    (hm : magnitudeOf m = none) : exec (.write ch m) s = .refused .badMagnitude := by
  change execWrite ch m s = _
  rw [execWrite, if_pos (operational_iff.mpr h), hm]

/-! ### The obligations -/

/-- Settles O35: a magnitude in range has its ten bits, and with the lock free their frame runs to its end. -/
theorem writeSendsTheEncodedFrame : Obligations.WriteSendsTheEncodedFrame := by
  intro s ch m hready hcfg hlife hlock bits
  obtain ⟨t, ht, k⟩ := runFrame_next (i := .write ch m.val) (bits := bits) hready hlock
  exact ⟨t, (exec_write_of_some hlife ch (magnitudeOf_fin m)).trans ht, k.returns,
    frameLatches_of_frameLatch hcfg k.latches, k.fsel, k.control, k.draws⟩

/-- Settles O37: a magnitude out of range has no ten bits. -/
theorem magnitudeOutOfRangeIsRefused : Obligations.MagnitudeOutOfRangeIsRefused :=
  fun _ ch _ hlife hm => exec_write_of_none hlife ch (magnitudeOf_none hm)

end Sys2Proof.Machine

/-! Proof that every step keeps the lifetime invariant (O55): which actions take a context into a frame or change the
lifetime state, and in whose call they stand. -/

namespace Sys2Proof.Machine

/-! ### In whose sequence an action stands -/

/-- The actions that enter a frame inside their call, or change the lifetime state, stand in the sequences of these
calls only (R132, R133, R140, R142). -/
def Action.CalledBy (i : Instr) : Action → Prop
  | .enter _ => isBoundary i = true
  | .pinsConfigured => i = .start
  | .register => i = .start
  | .teardown => i = .stop
  | _ => True

/-- Every action of the list may stand in a sequence of the call. -/
def CalledBy (i : Instr) (as : List Action) : Prop := ∀ a ∈ as, a.CalledBy i

theorem CalledBy.nil (i : Instr) : CalledBy i [] := fun _ h => by cases h

theorem CalledBy.cons {i : Instr} {a : Action} {as : List Action} (ha : a.CalledBy i) (has : CalledBy i as) :
    CalledBy i (a :: as) := List.forall_mem_cons.mpr ⟨ha, has⟩

theorem CalledBy.append {i : Instr} {as bs : List Action} (has : CalledBy i as) (hbs : CalledBy i bs) :
    CalledBy i (as ++ bs) := List.forall_mem_append.mpr ⟨has, hbs⟩

theorem CalledBy.append_ret {i : Instr} {as : List Action} (h : CalledBy i as) : CalledBy i (as ++ [.ret]) :=
  h.append (.cons trivial (.nil i))

theorem calledBy_of_ofFrame {i : Instr} {as : List Action} (h : ∀ a ∈ as, a.ofFrame = true) : CalledBy i as := by
  intro a ha
  have hframe := h a ha
  cases a with
  | enter bits | pinsConfigured | register | teardown => simp [Action.ofFrame, Action.drives] at hframe
  | _ => trivial

theorem calledBy_frame (i : Instr) (cfg : Config) (bits : List Bool) : CalledBy i (frameActions cfg bits) :=
  calledBy_of_ofFrame fun _ => ofFrame_of_mem_frameActions

theorem calledBy_setLevel (i : Instr) (p : Pin) (l : Level) : CalledBy i (setLevelActions p l) :=
  .cons trivial (.nil i)

theorem calledBy_configure (i : Instr) (cfg : Config) (p : Pin) (d : Direction) :
    CalledBy i (configureActions cfg p d) := by
  unfold configureActions CalledBy
  split <;> simp [Action.CalledBy]

theorem calledBy_store {i : Instr} (hi : isBoundary i = true) (cfg : Config) (name : Attr) (t : Text) :
    CalledBy i (storeActions cfg name t) := by
  have hforward (v : Nat) : CalledBy i (forwardActions cfg name v) := by
    cases name with
    | volume => exact .cons hi (calledBy_frame i cfg _)
    | bass => exact .cons hi (calledBy_frame i cfg _)
    | on => exact calledBy_setLevel i _ _
  unfold storeActions
  split
  · exact .cons trivial (hforward _).append_ret
  · exact .cons trivial (.nil i)

theorem calledBy_start (cfg : Config) : CalledBy .start (startActions cfg) := by
  have hconfigure (p : Pin) := calledBy_configure .start cfg p .output
  have hend : CalledBy .start [.pinsConfigured, .register] := .cons rfl (.cons rfl (.nil _))
  exact ((((((hconfigure _).append (hconfigure _)).append (hconfigure _)).append (hconfigure _)).append
    (calledBy_setLevel _ _ _)).append (calledBy_setLevel _ _ _)).append hend

/-- The sequence of a call holds no action that is another call's. -/
theorem calledBy_program (cfg : Config) (i : Instr) : CalledBy i (program cfg i) := by
  cases i with
  | loadA m => exact (calledBy_frame _ cfg _).append_ret
  | loadB m => exact (calledBy_frame _ cfg _).append_ret
  | loadAB m => exact (calledBy_frame _ cfg _).append_ret
  | sendFrame bits => exact (calledBy_frame _ cfg bits).append_ret
  | write ch m =>
    simp only [program]
    split
    · exact (calledBy_frame _ cfg _).append_ret
    · exact .nil _
  | fselInput pin | fselOutput pin | configure pin d =>
    simp only [program]
    split
    · exact (calledBy_configure _ cfg _ _).append_ret
    · exact .nil _
  | setLevel pin l =>
    simp only [program]
    split
    · exact (calledBy_setLevel _ _ _).append_ret
    · exact .nil _
  | sendBit v =>
    have hbit : CalledBy (.sendBit v) (sendBitActions cfg v) :=
      calledBy_of_ofFrame fun a ha => by simp [Action.ofFrame, drives_of_mem_sendBitActions ha]
    exact hbit.append_ret
  | storeVolume t => exact calledBy_store rfl cfg .volume t
  | storeBass t => exact calledBy_store rfl cfg .bass t
  | storeOn t => exact calledBy_store rfl cfg .on t
  | start => exact calledBy_start cfg
  | regRead n | regWrite n v =>
    simp only [program]
    split
    · exact .cons trivial (.cons trivial (.nil _))
    · exact .nil _
  | stop => exact .cons rfl (.cons trivial (.nil _))
  | showVolume | showBass | showOn => exact .cons trivial (.nil _)
  | fselRead | fselWrite | setWrite | clrWrite | setclrRead | settle | lockAcquire | lockRelease =>
    exact .cons trivial (.cons trivial (.nil _))

/-- The next action of a running context stands in the sequence of the call it is inside. -/
theorem Running.calledBy {c : Nat} {a : Action} {rest : List Action} {s : State} (h : Running c (a :: rest) s) :
    ∃ i, (s.ctx c).call = some i ∧ a.CalledBy i := by
  obtain ⟨i, hi⟩ := h.caller.call_of_work rfl
  exact ⟨i, hi, calledBy_program s.cfg i a ((h.caller.inside i hi).subset List.mem_cons_self)⟩

/-! ### What a context is inside -/

/-- The record `y` is inside no call and no frame but those `x` is inside. -/
structure Ctx.Within (y x : Ctx) : Prop where
  call : ∀ i, y.call = some i → x.call = some i
  frame : ∀ bits, y.frame = some bits → x.frame = some bits

theorem Ctx.Within.of_eq {x y : Ctx} (hcall : y.call = x.call) (hframe : y.frame = x.frame) : y.Within x :=
  ⟨fun _ h => hcall.symm.trans h, fun _ h => hframe.symm.trans h⟩

theorem Ctx.Within.advance (x : Ctx) : x.advance.Within x := .of_eq x.advance_call x.advance_frame

theorem Ctx.Within.returned (x : Ctx) (r : Result) : (x.returned r).Within x :=
  ⟨fun _ h => (nomatch h), fun _ h => h⟩

theorem Ctx.Within.refl (x : Ctx) : x.Within x := .of_eq rfl rfl

/-- One record changed to one no further in. -/
theorem State.mapCtx_within (s : State) {c : Nat} {f : Ctx → Ctx} (hf : (f (s.ctx c)).Within (s.ctx c)) (d : Nat) :
    ((s.mapCtx c f).ctx d).Within (s.ctx d) := by
  by_cases hd : d = c
  · subst hd
    rwa [State.mapCtx_ctx_same]
  · rw [State.mapCtx_ctx_other _ _ hd]
    exact .refl _

theorem State.finish_within (s : State) (c : Nat) (r : Result) (d : Nat) : ((s.finish c r).ctx d).Within (s.ctx d) :=
  s.mapCtx_within (.returned _ r) d

theorem State.suspend_within (s : State) (c : Nat) (work : List Action) (d : Nat) :
    ((s.suspend c work).ctx d).Within (s.ctx d) := s.mapCtx_within (.of_eq rfl rfl) d

theorem State.regRead_within (s : State) (c : Nat) (r : Reg) : ((s.regRead c r).ctx c).Within (s.ctx c) := by
  obtain ⟨v, hv⟩ := s.regRead_ctx_same c r
  rw [hv]
  exact .of_eq rfl rfl

/-- No action but `enter` takes its context further in (R30). -/
theorem perform_within {c : Nat} {a : Action} {s s' : State} (ha : ∀ bits, a ≠ .enter bits)
    (h : perform c a s = .did s' ∨ perform c a s = .ended s') (d : Nat) : (s'.ctx d).Within (s.ctx d) := by
  by_cases hd : d = c
  case neg => rw [perform_ctx_other hd h]; exact .refl _
  subst hd
  rcases h with h | h
  · rcases perform_did h with ⟨r, _, rfl⟩ | ⟨r, v, _, _, rfl⟩ | ⟨_, rfl⟩ | ⟨bits, rfl, _⟩ | ⟨_, _, rfl⟩ | ⟨_, _, rfl⟩
      | ⟨name, v, _, rfl⟩ | ⟨_, rfl⟩ | ⟨_, _, _, rfl⟩
    · exact s.regRead_within d r
    · rw [State.regWrite_ctx_same]; exact .advance _
    · rw [State.advance_ctx_same, State.emit_ctx]; exact .advance _
    · exact absurd rfl (ha bits)
    · rw [State.mapCtx_ctx_same]; exact .of_eq rfl rfl
    · rw [State.mapCtx_ctx_same]; exact ⟨fun _ hi => hi, fun _ hb => by cases hb⟩
    · rw [State.emit_ctx, State.store_ctx]; exact .of_eq rfl rfl
    · exact .of_eq rfl rfl
    · exact .of_eq rfl rfl
  · rcases perform_ended h with ⟨name, _, rfl⟩ | ⟨_, _, rfl⟩ | ⟨_, _, rfl⟩ | ⟨_, rfl⟩ | ⟨_, rfl⟩ | ⟨name, _, rfl⟩
    all_goals exact State.finish_within _ _ _ _

/-- No action but those of `start` and `stop` changes the lifetime state (R143). -/
theorem perform_life {c : Nat} {a : Action} {s s' : State} (hpins : a ≠ .pinsConfigured) (hreg : a ≠ .register)
    (hdown : a ≠ .teardown) (h : perform c a s = .did s' ∨ perform c a s = .ended s') : s'.life = s.life := by
  rcases h with h | h
  · rcases perform_did h with ⟨r, _, rfl⟩ | ⟨r, v, _, _, rfl⟩ | ⟨_, rfl⟩ | ⟨bits, _, rfl⟩ | ⟨_, _, rfl⟩ | ⟨_, _, rfl⟩
      | ⟨name, v, _, rfl⟩ | ⟨rfl, _⟩ | ⟨rfl, _⟩
    · exact s.regRead_life c r
    · exact s.regWrite_life c r v
    · simp
    · simp
    · simp
    · simp
    · simp
    · exact absurd rfl hpins
    · exact absurd rfl hdown
  · rcases perform_ended h with ⟨name, _, rfl⟩ | ⟨rfl, _⟩ | ⟨rfl, _⟩ | ⟨_, rfl⟩ | ⟨_, rfl⟩ | ⟨name, _, rfl⟩
    · rfl
    · exact absurd rfl hreg
    · exact absurd rfl hreg
    all_goals rfl

/-! ### The lifetime invariant where nothing, or less, is in flight -/

/-- Contexts no further in, in the same lifetime state. -/
theorem LifeInv.mono {s t : State} (h : LifeInv s) (hlife : t.life = s.life)
    (hin : ∀ c, (t.ctx c).Within (s.ctx c)) : LifeInv t where
  sending c bits hb := hlife.trans (h.sending c bits ((hin c).frame bits hb))
  boundary c i hi hb := hlife.trans (h.boundary c i ((hin c).call i hi) hb)
  starting c hc := hlife ▸ h.starting c ((hin c).call _ hc)
  oneStart c d hc hd := h.oneStart c d ((hin c).call _ hc) ((hin d).call _ hd)

/-- No context is inside a frame or a boundary call. -/
structure Quiet (s : State) : Prop where
  frame : ∀ c, (s.ctx c).frame = none
  boundary : ∀ c i, (s.ctx c).call = some i → isBoundary i = false

/-- Outside `Operational` nothing is in flight (R131, R143). -/
theorem LifeInv.quiet {s : State} (h : LifeInv s) (hlife : s.life ≠ .operational) : Quiet s where
  frame c := by
    by_contra hne
    obtain ⟨bits, hb⟩ := Option.ne_none_iff_exists'.mp hne
    exact hlife (h.sending c bits hb)
  boundary c i hi := by
    by_contra hne
    exact hlife (h.boundary c i hi (by simpa using hne))

/-- Where nothing is in flight, any lifetime state but `Operational` will do. -/
theorem LifeInv.putLife {s : State} (h : LifeInv s) (hquiet : Quiet s) {l : Life} (hl : l ≠ .operational) :
    LifeInv (s.putLife l) where
  sending c bits hb := by
    rw [State.putLife_ctx, hquiet.frame c] at hb
    cases hb
  boundary c i hi hb := by
    rw [hquiet.boundary c i hi] at hb
    cases hb
  starting _ _ := hl
  oneStart := h.oneStart

/-- Only an operational block sends, so a frame is entered in no other (R113, R131). -/
theorem LifeInv.enterFrame {s : State} (h : LifeInv s) (hlife : s.life = .operational) (c : Nat) (bits : List Bool) :
    LifeInv (s.enterFrame c bits) := by
  have hcall (d : Nat) : ((s.enterFrame c bits).ctx d).call = (s.ctx d).call := by
    by_cases hd : d = c
    · subst hd; rw [State.enterFrame_ctx_same]
    · rw [State.enterFrame_ctx_other _ _ hd]
  exact {
    sending := fun _ _ _ => hlife
    boundary := fun _ _ _ _ => hlife
    starting := fun d hd => h.starting d ((hcall d).symm.trans hd)
    oneStart := fun d e hd he => h.oneStart d e ((hcall d).symm.trans hd) ((hcall e).symm.trans he) }

/-! ### The lifetime invariant over a run -/

/-- The last step of `start`: it is the only one in progress, so none is left in the operational block (R141, R143). -/
theorem LifeInv.register {s : State} {c : Nat} (h : LifeInv s) (hcall : (s.ctx c).call = some .start)
    (rest : List Bool) : LifeInv (((s.putLife .operational).putSurface rest).finish c .done) := by
  have hnone (d : Nat) :
      ((((s.putLife .operational).putSurface rest).finish c .done).ctx d).call ≠ some .start := by
    by_cases hd : d = c
    · subst hd; rw [State.finish_ctx_same]; simp [Ctx.returned]
    · rw [State.finish_ctx_other _ _ hd]
      exact fun hs => hd (h.oneStart d c hs hcall)
  exact {
    sending := fun _ _ _ => rfl
    boundary := fun _ _ _ _ => rfl
    starting := fun d hd => absurd hd (hnone d)
    oneStart := fun d _ hd _ => absurd hd (hnone d) }

/-- No context is inside a call of a kind that none is found in. -/
theorem State.kind_of_anyCall {s : State} {kind : Instr → Bool} (h : s.anyCall kind = false) {d : Nat} {i : Instr}
    (hi : (s.ctx d).call = some i) : kind i = false := by
  rcases Contexts.mem_of_get s.ctxs d with hfresh | hmem
  · rw [State.ctx, hfresh] at hi
    cases hi
  · have hnone := List.any_eq_false.mp h _ hmem
    change (s.ctxs.get d).call = some i at hi
    simpa [hi] using hnone

/-- Whatever work a context has stored, its frame has a position (R31). -/
theorem Running.position {c : Nat} {work : List Action} {s : State} (h : Running c work s) {d : Nat} {bits : List Bool}
    (hb : (s.ctx d).frame = some bits) : ∃ k, (s.ctx d).seq = .at k := by
  by_cases hd : d = c
  · subst hd
    obtain ⟨k, hk, _⟩ := h.caller.position bits hb
    exact ⟨k, hk⟩
  · obtain ⟨k, hk, _⟩ := (h.others d hd).position bits hb
    exact ⟨k, hk⟩

/-- Where `stop` need not wait nothing is in flight: a context in a frame has a sequencer away from idle (R31, R142). -/
theorem Running.quiet {c : Nat} {work : List Action} {s : State} (h : Running c work s) (hfree : s.inFlight = false) :
    Quiet s := by
  unfold State.inFlight at hfree
  simp only [Bool.or_eq_false_iff] at hfree
  obtain ⟨⟨_, hseq⟩, hcall⟩ := hfree
  refine ⟨fun d => ?_, fun d i hi => State.kind_of_anyCall hcall hi⟩
  by_contra hne
  obtain ⟨bits, hb⟩ := Option.ne_none_iff_exists'.mp hne
  obtain ⟨k, hk⟩ := h.position hb
  have hany := (Contexts.any_iff h.contexts (p := fun e => decide (e.2.seq ≠ .idle)) fun _ => rfl).mpr
    ⟨d, decide_eq_true fun hidle => by cases hk.symm.trans hidle⟩
  rw [hseq] at hany
  cases hany

/-- The actions that take a context into a frame or change the lifetime state. -/
def Action.shifts : Action → Bool
  | .enter _ => true
  | .pinsConfigured => true
  | .register => true
  | .teardown => true
  | _ => false

/-- Every other action leaves the lifetime state and takes no context further in. -/
theorem LifeInv.perform {c : Nat} {a : Action} {s s' : State} (h : LifeInv s) (ha : a.shifts = false)
    (hp : perform c a s = .did s' ∨ perform c a s = .ended s') : LifeInv s' := by
  refine h.mono (perform_life ?_ ?_ ?_ hp) (perform_within ?_ hp)
  · rintro rfl; cases ha
  · rintro rfl; cases ha
  · rintro rfl; cases ha
  · rintro bits rfl; cases ha

/-- An action that lets its call go on: the calls it stands in are those whose lifetime state it needs. -/
theorem Running.lifeInv_did {c : Nat} {a : Action} {rest : List Action} {s s' : State} (h : Running c (a :: rest) s)
    (hlife : LifeInv s) (hp : perform c a s = .did s') : LifeInv s' := by
  obtain ⟨i, hi, hcalled⟩ := h.calledBy
  have ordinary (ha : a.shifts = false) : LifeInv s' := hlife.perform ha (.inl hp)
  rcases perform_did hp with ⟨r, rfl, _⟩ | ⟨r, v, ha, _⟩ | ⟨rfl, _⟩ | ⟨bits, rfl, rfl⟩ | ⟨rfl, _⟩ | ⟨rfl, _⟩
    | ⟨name, v, rfl, _⟩ | ⟨rfl, rfl⟩ | ⟨rfl, _, hfree, rfl⟩
  · exact ordinary rfl
  · rcases ha with rfl | ⟨p, d, rfl⟩ | ⟨p, rfl⟩ | ⟨p, d, rfl⟩ <;> exact ordinary rfl
  · exact ordinary rfl
  · exact hlife.enterFrame (hlife.boundary c i hi hcalled) c bits
  · exact ordinary rfl
  · exact ordinary rfl
  · exact ordinary rfl
  · obtain rfl : i = .start := hcalled
    exact hlife.putLife (hlife.quiet (hlife.starting c hi)) (by decide)
  · exact hlife.putLife (h.quiet hfree) (by decide)

/-- An action that ends its call: the registration ends the only `start` in progress. -/
theorem Running.lifeInv_ended {c : Nat} {a : Action} {rest : List Action} {s s' : State} (h : Running c (a :: rest) s)
    (hlife : LifeInv s) (hp : perform c a s = .ended s') : LifeInv s' := by
  obtain ⟨i, hi, hcalled⟩ := h.calledBy
  have ordinary (ha : a.shifts = false) : LifeInv s' := hlife.perform ha (.inr hp)
  rcases perform_ended hp with ⟨name, rfl, _⟩ | ⟨rfl, _, rfl⟩ | ⟨rfl, _, rfl⟩ | ⟨rfl, _⟩ | ⟨rfl, _⟩ | ⟨name, rfl, _⟩
  · exact ordinary rfl
  · obtain rfl : i = .start := hcalled
    have hback : LifeInv (s.putLife .uninitialized) :=
      hlife.putLife (hlife.quiet (hlife.starting c hi)) (by decide)
    exact hback.mono rfl (State.finish_within ((s.putLife .uninitialized).putSurface s.surface.tail) c _)
  · obtain rfl : i = .start := hcalled
    exact hlife.register hi _
  · exact ordinary rfl
  · exact ordinary rfl
  · exact ordinary rfl

/-- Every run of a context keeps the lifetime invariant. -/
theorem runWork_lifeInv {c : Nat} {work : List Action} {q : Option Nat} {s t : State} (h : Running c work s)
    (hlife : LifeInv s) (hrun : runWork c work q s = .next t) : LifeInv t := by
  induction work generalizing q s with
  | nil =>
    cases hrun
    exact hlife
  | cons a rest ih =>
    rcases runWork_next hrun with ⟨rfl, _⟩ | ⟨_, s', hp, hrun'⟩ | ⟨_, hp⟩
    · exact hlife.mono rfl (s.suspend_within c _)
    · exact ih (h.did hp) (h.lifeInv_did hlife hp) hrun'
    · exact h.lifeInv_ended hlife hp

/-! ### The lifetime invariant over a step -/

/-- A call begins in the lifetime state it needs: a boundary call in the operational block, a `start` in the
uninitialised one, where no other is in progress (R131, R141). -/
theorem LifeInv.beginCall {s : State} {i : Instr} (h : LifeInv s) (hallowed : Allowed i s) :
    LifeInv (s.beginCall i) := by
  have hself {j : Instr} (hj : ((s.beginCall i).ctx s.cur).call = some j) : i = j := by
    rw [State.beginCall_ctx_same] at hj
    exact Option.some.inj hj
  have hother {d : Nat} (hd : d ≠ s.cur) : (s.beginCall i).ctx d = s.ctx d := State.beginCall_ctx_other s i hd
  have hstart (hi : i = .start) : s.life = .uninitialized ∧ s.anyCall isStart = false :=
    s.startable_iff.mp (hallowed.start hi)
  have only {d : Nat} (hd : ((s.beginCall i).ctx d).call = some .start) (hi : i = .start) : d = s.cur := by
    by_contra hne
    rw [hother hne] at hd
    cases State.kind_of_anyCall (hstart hi).2 hd
  constructor
  case sending =>
    intro d bits hb
    by_cases hd : d = s.cur
    · subst hd
      rw [State.beginCall_ctx_same] at hb
      exact h.sending s.cur bits hb
    · exact h.sending d bits (hother hd ▸ hb)
  case boundary =>
    intro d j hj hb
    by_cases hd : d = s.cur
    · subst hd
      exact hallowed.boundary (hself hj ▸ hb)
    · exact h.boundary d j (hother hd ▸ hj) hb
  case starting =>
    intro d hd'
    by_cases hd : d = s.cur
    · subst hd
      rw [State.beginCall_life, (hstart (hself hd')).1]
      decide
    · exact h.starting d (hother hd ▸ hd')
  case oneStart =>
    intro d e hd' he'
    by_cases hd : d = s.cur
    · subst hd
      exact (only he' (hself hd')).symm
    by_cases he : e = s.cur
    · subst he
      exact only hd' (hself he')
    · exact h.oneStart d e (hother hd ▸ hd') (hother he ▸ he')

/-- A direct transmission enters its frame in the operational block (R113, R143). -/
theorem LifeInv.callEntry {s : State} {i : Instr} (h : LifeInv s)
    (hframe : ∀ bits, frameOf i = some bits → s.life = .operational) : LifeInv (callEntry i s) := by
  cases hi : frameOf i with
  | some bits =>
    rw [callEntry_of_frame hi]
    exact h.enterFrame (hframe bits hi) s.cur bits
  | none =>
    refine h.mono (callEntry_life i s) fun d => ?_
    by_cases hd : d = s.cur
    · subst hd
      obtain ⟨pos, hctx⟩ := callEntry_ctx_of_noFrame hi s
      rw [hctx]
      exact .of_eq rfl rfl
    · rw [callEntry_ctx_other i s hd]
      exact .refl _

/-- A call that is taken runs, from its entry, with its whole sequence to do. -/
theorem Inv.running_call {s : State} {i : Instr} (h : Inv s) (hidle : (s.ctx s.cur).call = none)
    (hallowed : Allowed i s) : Running s.cur (program s.cfg i) (callEntry i (s.beginCall i)) where
  contexts := callEntry_wf (State.mapCtx_wf h.contexts _ _) i
  caller := by simpa using callEntry_ok hallowed ((h.calls s.cur).between hidle).2
  others d hd := by
    rw [callEntry_cfg, callEntry_ctx_other i (s.beginCall i) hd, State.beginCall_ctx_other s i hd]
    exact h.calls d
  region := (h.regionHeld.beginCall i).callEntry i
  mirror := h.mirrorInRange.congr (by simp) (by simp) (by simp) (by simp)

/-- Every call keeps the lifetime invariant. -/
theorem exec_lifeInv {i : Instr} {s t : State} (h : Inv s) (hlife : LifeInv s) (hexec : exec i s = .next t) :
    LifeInv t := by
  obtain ⟨hidle, hallowed, hrun⟩ := exec_next hexec
  have hentered : LifeInv (callEntry i (s.beginCall i)) :=
    (hlife.beginCall hallowed).callEntry fun bits hb => (hallowed.frame bits hb).1
  exact runWork_lifeInv (h.running_call hidle hallowed) hentered hrun

/-- Settles O55: only four actions take a context into a frame or change the lifetime state; each stands in the
sequence of a call that the invariant ties to the lifetime state it needs, but for the end of `stop`, which waits until
nothing is in flight. -/
theorem stepKeepsTheLifetimeInvariant : Obligations.StepKeepsTheLifetimeInvariant := by
  intro s t h hlife hstep
  rcases step_next hstep with ⟨rfl, _⟩ | ⟨c, q, rest, i, _, hexec⟩ | ⟨c, q, rest, _, _, hrun⟩
  · exact hlife
  · have htaken : LifeInv ((s.taking c q rest).newLifetime i) :=
      hlife.mono ((s.taking c q rest).newLifetime_life i) fun d => by
        rw [State.newLifetime_ctx, State.taking_ctx]
        exact .refl _
    exact exec_lifeInv ((h.taking c q rest).newLifetime i) htaken hexec
  · have htaken : LifeInv (s.taking c q rest) := hlife.mono rfl fun _ => .refl _
    exact runWork_lifeInv ((h.taking c q rest).running c) htaken hrun

end Sys2Proof.Machine

/-! Proofs about the parameter boundary (O38 to O45): which texts are accepted, what a rejected `store_*` leaves, that an
accepted one stores its value before anything else and then forwards it, and what the `show_*` return. -/

namespace Sys2Proof.Machine

/-! ### The boundary calls by their parameter (R131 to R135) -/

/-- `store_*` of a parameter. -/
def storeInstr : Attr → Text → Instr
  | .volume => .storeVolume
  | .bass => .storeBass
  | .on => .storeOn

/-- `show_*` of a parameter. -/
def showInstr : Attr → Instr
  | .volume => .showVolume
  | .bass => .showBass
  | .on => .showOn

theorem exec_storeInstr {s : State} (h : s.life = .operational) (name : Attr) (x : Text) :
    exec (storeInstr name x) s = runCall (storeInstr name x) id (storeActions s.cfg name x) s := by
  cases name <;> exact if_pos (operational_iff.mpr h)

theorem exec_storeInstr_refused {s : State} (h : s.life ≠ .operational) (name : Attr) (x : Text) :
    exec (storeInstr name x) s = .refused .badLifecycle := by
  cases name <;> exact if_neg (mt operational_iff.mp h)

theorem exec_showInstr {s : State} (h : s.life = .operational) (name : Attr) :
    exec (showInstr name) s = runCall (showInstr name) id [.retText name] s := by
  cases name <;> exact if_pos (operational_iff.mpr h)

theorem exec_showInstr_refused {s : State} (h : s.life ≠ .operational) (name : Attr) :
    exec (showInstr name) s = .refused .badLifecycle := by
  cases name <;> exact if_neg (mt operational_iff.mp h)

/-! ### Accepted and rejected texts (R130, R132 to R134) -/

/-- The text does not parse, or to a number out of the range of the parameter. -/
def Unacceptable (cfg : Config) (name : Attr) (x : Text) : Prop :=
  parseDec x = none ∨ ∃ v, parseDec x = some v ∧ (v < 0 ∨ (attrMax cfg name : Int) < v)

theorem acceptedValue_of_unacceptable {cfg : Config} {name : Attr} {x : Text} (h : Unacceptable cfg name x) :
    acceptedValue cfg name x = none := by
  unfold acceptedValue
  rcases h with hnone | ⟨v, hv, hout⟩
  · rw [hnone]
  · rw [hv]
    exact if_pos hout

theorem acceptedValue_of_parseDec {cfg : Config} {name : Attr} {x : Text} {v : Nat} (hp : parseDec x = some (v : Int))
    (hv : v ≤ attrMax cfg name) : acceptedValue cfg name x = some v := by
  unfold acceptedValue
  rw [hp]
  exact if_neg (by omega)

theorem parseDec_decimal (n : Nat) : parseDec (decimal n) = some (n : Int) := (decimalTextParsesBack.1 n).1

/-- The decimal string of an integer out of range is unacceptable (R138). -/
theorem unacceptable_decimalInt {cfg : Config} {name : Attr} {m : Int} (h : m < 0 ∨ (attrMax cfg name : Int) < m) :
    Unacceptable cfg name (decimalInt m) := by
  by_cases hneg : m < 0
  · obtain ⟨n, rfl⟩ := Int.eq_negSucc_of_lt_zero hneg
    rw [decimalInt, if_pos hneg]
    rcases decimalTextParsesBack.2.2.1 n with hnone | ⟨v, hv, hlt⟩
    · exact .inl hnone
    · exact .inr ⟨v, hv, .inl hlt⟩
  · have hnat : (m.natAbs : Int) = m := by omega
    rw [decimalInt, if_neg hneg]
    exact .inr ⟨m, by rw [parseDec_decimal, hnat], h⟩

theorem storeActions_of_unacceptable {cfg : Config} {name : Attr} {x : Text} (h : Unacceptable cfg name x) :
    storeActions cfg name x = [.reject name] := by
  rw [storeActions, acceptedValue_of_unacceptable h]

theorem storeActions_of_parseDec {cfg : Config} {name : Attr} {x : Text} {v : Nat} (hp : parseDec x = some (v : Int))
    (hv : v ≤ attrMax cfg name) :
    storeActions cfg name x = .accept name v :: (forwardActions cfg name v ++ [.ret]) := by
  rw [storeActions, acceptedValue_of_parseDec hp hv]

/-! ### Calls that write nothing: a rejected `store_*`, a `show_*` (R132 to R135) -/

/-- The call of the running context returned `r`, recorded the events `es`, and left everything else. -/
structure Answers (s t : State) (r : Result) (es : List Event) : Prop where
  returns : Returns s t (s.ctx s.cur) r es
  registers : SameRegisters s t
  control : SameControl s t
  draws : t.draws = s.draws

/-- The state with more events recorded. -/
def State.recorded (s : State) (es : List Event) : State := { s with trace := s.trace ++ es }

@[simp] theorem State.recorded_nil (s : State) : s.recorded [] = s := by simp [State.recorded]

@[simp] theorem State.recorded_ctx (s : State) (es : List Event) (d : Nat) : (s.recorded es).ctx d = s.ctx d := rfl

/-- A call of one action, which records events and returns. -/
theorem runCall_answers {s : State} {i : Instr} {a : Action} {r : Result} {es : List Event} (h : Ready s)
    (hp : perform s.cur a (s.beginCall i) = .ended (((s.beginCall i).recorded es).finish s.cur r)) :
    ∃ t, runCall i id [a] s = .next t ∧ Answers s t r es := by
  have hrun : runCall i id [a] s = .next (((s.beginCall i).recorded es).finish s.cur r) := by
    rw [runCall_idle h.idle, h.whole]
    exact runWork_ended (by simp) hp
  refine ⟨_, hrun, ?returns, ⟨rfl, rfl⟩, ⟨rfl, rfl, rfl, rfl, rfl, rfl⟩, rfl⟩
  constructor
  case caller =>
    rw [State.finish_ctx_same, State.recorded_ctx, State.beginCall_ctx_same]
    rfl
  case others =>
    intro d hd
    rw [State.finish_ctx_other _ _ hd, State.recorded_ctx, State.beginCall_ctx_other _ _ hd]
  all_goals rfl

theorem exec_store_rejected {s : State} {name : Attr} {x : Text} (h : Ready s) (hlife : s.life = .operational)
    (hx : Unacceptable s.cfg name x) :
    ∃ t, exec (storeInstr name x) s = .next t
      ∧ Answers s t (.failed (.invalidArgument name)) [.reject s.cur name] := by
  rw [exec_storeInstr hlife, storeActions_of_unacceptable hx]
  exact runCall_answers h rfl

theorem exec_show {s : State} (h : Ready s) (hlife : s.life = .operational) (name : Attr) :
    ∃ t, exec (showInstr name) s = .next t ∧ Answers s t (.text (shownText (s.stored name))) [] := by
  rw [exec_showInstr hlife]
  refine runCall_answers h ?_
  rw [State.recorded_nil]
  cases name <;> rfl

/-! ### An accepted `store_*` (R132, R133, R134) -/

/-- The state with an accepted value stored and recorded by the running context. -/
def State.accepted (s : State) (name : Attr) (v : Nat) : State := (s.store name v).emit (.accept s.cur name v)

section accepted
variable (s : State) (name : Attr) (v : Nat)

@[simp] theorem State.accepted_cfg : (s.accepted name v).cfg = s.cfg := by simp [State.accepted]
@[simp] theorem State.accepted_fsel : (s.accepted name v).fsel = s.fsel := by simp [State.accepted]
@[simp] theorem State.accepted_latch : (s.accepted name v).latch = s.latch := by simp [State.accepted]
@[simp] theorem State.accepted_life : (s.accepted name v).life = s.life := by simp [State.accepted]
@[simp] theorem State.accepted_txLock : (s.accepted name v).txLock = s.txLock := by simp [State.accepted]
@[simp] theorem State.accepted_trace : (s.accepted name v).trace = s.trace ++ [.accept s.cur name v] := by
  simp [State.accepted]
@[simp] theorem State.accepted_cur : (s.accepted name v).cur = s.cur := by simp [State.accepted]
@[simp] theorem State.accepted_quantum : (s.accepted name v).quantum = s.quantum := by simp [State.accepted]
@[simp] theorem State.accepted_inputs : (s.accepted name v).inputs = s.inputs := by simp [State.accepted]
@[simp] theorem State.accepted_surface : (s.accepted name v).surface = s.surface := by simp [State.accepted]
@[simp] theorem State.accepted_draws : (s.accepted name v).draws = s.draws := by simp [State.accepted]
@[simp] theorem State.accepted_ctx (d : Nat) : (s.accepted name v).ctx d = s.ctx d := by simp [State.accepted]

@[simp] theorem State.accepted_stored : (s.accepted name v).stored name = v := by
  cases name <;> rfl

theorem State.accepted_stored_other {other : Attr} (ho : other ≠ name) :
    (s.accepted name v).stored other = s.stored other := by
  have hstore := s.store_stored_other v ho
  cases other <;> exact hstore

/-- The store of a value and the beginning of its call touch different fields. -/
theorem State.accepted_beginCall (i : Instr) :
    (s.accepted name v).beginCall i = ((s.beginCall i).store name v).emit (.accept s.cur name v) := by
  cases name <;> rfl

end accepted

theorem Ready.accepted {s : State} (h : Ready s) (name : Attr) (v : Nat) : Ready (s.accepted name v) where
  idle := by simpa using h.idle
  noFrame := by simpa using h.noFrame
  whole := by simpa using h.whole

/-- An accepted `store_*` stores and records its value at once; what is left is a call that forwards it. -/
theorem exec_store_accepted {s : State} {name : Attr} {x : Text} {v : Nat} (h : Ready s) (hlife : s.life = .operational)
    (hp : parseDec x = some (v : Int)) (hv : v ≤ attrMax s.cfg name) :
    exec (storeInstr name x) s =
      runCall (storeInstr name x) id (forwardActions s.cfg name v ++ [.ret]) (s.accepted name v) := by
  have haccept : perform s.cur (.accept name v) (s.beginCall (storeInstr name x))
      = .did ((s.accepted name v).beginCall (storeInstr name x)) := by
    rw [State.accepted_beginCall]
    rfl
  rw [exec_storeInstr hlife, storeActions_of_parseDec hp hv, runCall_idle h.idle, h.whole,
    runCall_idle (h.accepted name v).idle, (h.accepted name v).whole, State.accepted_cur]
  exact runWork_did (by simp) haccept

/-- What a `store_*` whose value was accepted and forwarded to its end leaves and returns, but for the latches. -/
structure Stored (s t : State) (x : Ctx) (name : Attr) (v : Nat) (es : List Event) : Prop where
  returns : Returns s t x .done (.accept s.cur name v :: es)
  stored : t.stored name = v
  others : ∀ other, other ≠ name → t.stored other = s.stored other
  fsel : t.fsel = s.fsel
  life : t.life = s.life
  txLock : t.txLock = s.txLock
  surface : t.surface = s.surface
  draws : t.draws = s.draws

/-- The stored values are three fields of the control state. -/
theorem SameControl.stored {s t : State} (h : SameControl s t) (name : Attr) : t.stored name = s.stored name := by
  cases name
  case volume => exact h.vol
  case bass => exact h.bas
  case on => exact h.onv

/-- What the forwarding call leaves of the state that has stored the value. -/
theorem Stored.of_forwarded {s t : State} {x : Ctx} {name : Attr} {v : Nat} {es : List Event}
    (k : Returns (s.accepted name v) t x .done es) (hfsel : t.fsel = (s.accepted name v).fsel)
    (hcontrol : SameControl (s.accepted name v) t) (hdraws : t.draws = (s.accepted name v).draws) :
    Stored s t x name v es where
  returns :=
    { caller := by simpa using k.caller
      others := by simpa using k.others
      trace := by simpa using k.trace
      cfg := by simpa using k.cfg
      cur := by simpa using k.cur
      quantum := by simpa using k.quantum
      inputs := by simpa using k.inputs }
  stored := by rw [hcontrol.stored, State.accepted_stored]
  others other ho := by rw [hcontrol.stored, State.accepted_stored_other _ _ _ ho]
  fsel := by simpa using hfsel
  life := by simpa using hcontrol.life
  txLock := by simpa using hcontrol.txLock
  surface := by simpa using hcontrol.surface
  draws := by simpa using hdraws

/-! ### Volume and bass: a frame (R132, R133) -/

/-- The channel a parameter is sent to, if it is sent in a frame. -/
def sendsTo : Attr → Option Channel
  | .volume => some .A
  | .bass => some .B
  | .on => none

/-- The frame of an accepted value. -/
def valueBits (ch : Channel) (v : Nat) : List Bool := frameBits ch (BitVec.ofNat 10 v)

theorem forwardActions_of_sendsTo {name : Attr} {ch : Channel} (h : sendsTo name = some ch) (cfg : Config) (v : Nat) :
    forwardActions cfg name v = .enter (valueBits ch v) :: frameActions cfg (valueBits ch v) := by
  cases name <;> cases h <;> rfl

theorem attrMax_of_sendsTo {name : Attr} {ch : Channel} (h : sendsTo name = some ch) (cfg : Config) :
    attrMax cfg name = 1023 := by
  cases name <;> cases h <;> rfl

/-- A frame entered as the first action of a call is a frame entered at the call. -/
theorem runCall_enter {s : State} (h : Ready s) (i : Instr) (bits : List Bool) :
    runCall i id (.enter bits :: (frameActions s.cfg bits ++ [.ret])) s = runFrame i bits s := by
  rw [runFrame, runCall_idle h.idle, runCall_idle h.idle, h.whole]
  exact runWork_did (by simp) rfl

/-- An accepted value that is sent in a frame is stored, and what is left is the call of that frame. -/
theorem exec_store_frame {s : State} {name : Attr} {ch : Channel} {x : Text} {m : Fin 1024} (h : Ready s)
    (hlife : s.life = .operational) (hch : sendsTo name = some ch) (hp : parseDec x = some (m.val : Int)) :
    exec (storeInstr name x) s = runFrame (storeInstr name x) (valueBits ch m.val) (s.accepted name m.val) := by
  have hle : m.val ≤ attrMax s.cfg name := by rw [attrMax_of_sendsTo hch]; omega
  rw [exec_store_accepted h hlife hp hle, ← runCall_enter (h.accepted name m.val), forwardActions_of_sendsTo hch,
    State.accepted_cfg]
  rfl

/-- With the lock free the frame of an accepted value runs to its end. -/
theorem exec_store_sends {s : State} {name : Attr} {ch : Channel} {x : Text} {m : Fin 1024} (h : Ready s)
    (hlife : s.life = .operational) (hlock : s.txLock = .free) (hch : sendsTo name = some ch)
    (hp : parseDec x = some (m.val : Int)) :
    ∃ t, exec (storeInstr name x) s = .next t
      ∧ Stored s t (s.ctx s.cur).atRest name m.val (frameEvents s.cfg s.cur (valueBits ch m.val))
      ∧ ∀ q, t.latchAt q = frameLatch s (valueBits ch m.val) q := by
  obtain ⟨t, ht, k⟩ := runFrame_next (i := storeInstr name x) (bits := valueBits ch m.val) (h.accepted name m.val)
    (by simpa using hlock)
  refine ⟨t, (exec_store_frame h hlife hch hp).trans ht, ?_, fun q => ?_⟩
  · simpa using Stored.of_forwarded k.returns k.fsel k.control k.draws
  · exact (k.latches q).trans (frameLatch_congr (by simp) (by simp) _ q)

/-- A frame called while the lock is held waits before its first step (R144). -/
theorem runFrame_waits {s : State} (h : Ready s) (hlock : s.txLock ≠ .free) (i : Instr) (bits : List Bool) :
    runFrame i bits s =
      .next (((s.beginCall i).enterFrame s.cur bits).suspend s.cur (frameActions s.cfg bits ++ [.ret])) := by
  rw [runFrame, runCall_idle h.idle, frameActions_eq, List.cons_append]
  exact runWork_wait (perform_acquire_wait hlock)

/-- Settles O38: an accepted value is stored and its frame to channel A runs to its end; the one action of a rejected
call returns at once. -/
theorem storeVolumeStoresAndSends : Obligations.StoreVolumeStoresAndSends := by
  intro s x
  refine ⟨fun m hready hcfg hlife hlock hp => ?accepted, fun hready hlife hx => ?rejected, fun hlife => ?refused⟩
  case accepted =>
    obtain ⟨t, ht, k, hlatch⟩ := exec_store_sends (name := .volume) hready hlife hlock rfl hp
    exact ⟨t, ht, k.returns, frameLatches_of_frameLatch hcfg hlatch, k.stored, k.others .bass (by decide),
      k.others .on (by decide), k.fsel, k.life, k.txLock, k.surface, k.draws⟩
  case rejected =>
    obtain ⟨t, ht, k⟩ := exec_store_rejected (name := .volume) hready hlife hx
    exact ⟨t, ht, k.returns, k.registers, k.control, k.draws⟩
  case refused => exact exec_storeInstr_refused hlife .volume x

/-- Settles O39, as O38 with channel B. -/
theorem storeBassStoresAndSends : Obligations.StoreBassStoresAndSends := by
  intro s x
  refine ⟨fun m hready hcfg hlife hlock hp => ?accepted, fun hready hlife hx => ?rejected, fun hlife => ?refused⟩
  case accepted =>
    obtain ⟨t, ht, k, hlatch⟩ := exec_store_sends (name := .bass) hready hlife hlock rfl hp
    exact ⟨t, ht, k.returns, frameLatches_of_frameLatch hcfg hlatch, k.stored, k.others .volume (by decide),
      k.others .on (by decide), k.fsel, k.life, k.txLock, k.surface, k.draws⟩
  case rejected =>
    obtain ⟨t, ht, k⟩ := exec_store_rejected (name := .bass) hready hlife hx
    exact ⟨t, ht, k.returns, k.registers, k.control, k.draws⟩
  case refused => exact exec_storeInstr_refused hlife .bass x

/-- Settles O40: the value is stored before the call of its frame, which waits. -/
theorem valueIsStoredBeforeTheLockIsTaken : Obligations.ValueIsStoredBeforeTheLockIsTaken := by
  intro s x m i name ch hready hlife hlock hp hi
  have hstore : i = storeInstr name x ∧ sendsTo name = some ch := by
    obtain ⟨rfl, rfl, rfl⟩ | ⟨rfl, rfl, rfl⟩ := hi <;> exact ⟨rfl, rfl⟩
  obtain ⟨rfl, hch⟩ := hstore
  have hwaits := runFrame_waits (hready.accepted name m.val) (by simpa using hlock) (storeInstr name x)
    (valueBits ch m.val)
  rw [State.accepted_cur] at hwaits
  have hcaller := (s.accepted name m.val).beginCall_ctx_same (storeInstr name x)
  rw [State.accepted_cur] at hcaller
  refine ⟨_, (exec_store_frame hready hlife hch hp).trans hwaits, ?trace, ?stored, fun other ho => ?kept, ?call, ?seq,
    ?frame, fun d hd => ?others, ⟨?fsel, ?latch⟩, ?lock, ?life⟩
  case stored => exact s.accepted_stored name m.val
  case kept => exact s.accepted_stored_other name m.val ho
  case call => simp [hcaller]
  case seq => simp
  case frame => simp [valueBits]
  case others =>
    have hd' : d ≠ (s.accepted name m.val).cur := by simpa using hd
    rw [State.suspend_ctx_other _ _ hd, State.enterFrame_ctx_other _ _ hd, State.beginCall_ctx_other _ _ hd',
      State.accepted_ctx]
  all_goals simp

/-! ### On: the enable pin (R134) -/

/-- An accepted `on` is stored, and drives the enable pin in one write. -/
theorem exec_store_drives {s : State} {x : Text} {v : Nat} (h : Ready s) (hlife : s.life = .operational)
    (hp : parseDec x = some (v : Int)) (hv : v ≤ s.cfg.onMax) :
    ∃ t, exec (.storeOn x) s = .next t
      ∧ Stored s t (s.ctx s.cur) .on v [setLevelEvent s.cur (enPin s.cfg) (levelOfNat v)]
      ∧ ∀ q, t.latchAt q = if q = enPin s.cfg then levelOfNat v else s.latchAt q := by
  have hexec := exec_store_accepted (name := .on) h hlife hp hv
  obtain ⟨u, hu, hdrives, hlatch⟩ := doAll_setLevel_drives s.cur (enPin s.cfg) (levelOfNat v)
    ((s.accepted .on v).beginCall (.storeOn x))
  obtain ⟨t, ht, k⟩ := runCall_drives (h.accepted .on v) hu hdrives
  refine ⟨t, hexec.trans ht, Stored.of_forwarded k.returns k.fsel k.control k.draws, fun q => ?_⟩
  rw [State.latchAt_congr k.latch, hlatch]
  rfl

/-- Settles O41: the value is stored, and the one action left before the return is the write. -/
theorem storeOnSetsTheEnablePin : Obligations.StoreOnSetsTheEnablePin := by
  intro s x
  refine ⟨fun v hready hlife hp hv => ?accepted, fun hready hlife hx => ?rejected, fun hlife => ?refused⟩
  case accepted =>
    obtain ⟨t, ht, k, hlatch⟩ := exec_store_drives hready hlife hp hv
    exact ⟨t, ht, k.returns, (hlatch _).trans (if_pos rfl), fun p hne => (hlatch p).trans (if_neg hne), k.stored,
      k.others .volume (by decide), k.others .bass (by decide), k.fsel, k.life, k.txLock, k.surface, k.draws⟩
  case rejected =>
    obtain ⟨t, ht, k⟩ := exec_store_rejected (name := .on) hready hlife hx
    exact ⟨t, ht, k.returns, k.registers, k.control, k.draws⟩
  case refused => exact exec_storeInstr_refused hlife .on x

/-! ### Every value out of range, every value in range (R138) -/

/-- Settles O42: the decimal string of an integer out of range is unacceptable. -/
theorem valueOutOfRangeIsRejected : Obligations.ValueOutOfRangeIsRejected := by
  intro s m i name hready hlife hi
  have hstore : i = storeInstr name (decimalInt m) ∧ (m < 0 ∨ (attrMax s.cfg name : Int) < m) := by
    obtain ⟨hm, ⟨rfl, rfl⟩ | ⟨rfl, rfl⟩⟩ | ⟨hm, rfl, rfl⟩ := hi <;> exact ⟨rfl, hm⟩
  obtain ⟨rfl, hm⟩ := hstore
  obtain ⟨t, ht, k⟩ := exec_store_rejected hready hlife (unacceptable_decimalInt hm)
  exact ⟨t, ht, k.returns, k.registers, k.control, k.draws⟩

/-- Settles O43: the one action of the call returns the text of the stored value. -/
theorem showReturnsTheStoredValue : Obligations.ShowReturnsTheStoredValue := by
  intro s i v hi
  have hshow : ∃ name, i = showInstr name ∧ v = s.stored name := by
    rcases hi with hvol | hbas | honv
    · exact ⟨.volume, hvol⟩
    · exact ⟨.bass, hbas⟩
    · exact ⟨.on, honv⟩
  obtain ⟨name, rfl, rfl⟩ := hshow
  refine ⟨fun hready hlife => ?shown, fun hlife => exec_showInstr_refused hlife name⟩
  obtain ⟨t, ht, k⟩ := exec_show hready hlife name
  exact ⟨t, ht, k.returns, k.registers, k.control, k.draws⟩

/-- A context whose call returned outside every frame is ready for the next. -/
theorem Returns.ready {s t : State} {x : Ctx} {r : Result} {es : List Event} (k : Returns s t x r es) (h : Ready s)
    (hframe : x.frame = none) : Ready t where
  idle := by rw [k.cur, k.caller]; rfl
  noFrame := by rw [k.cur, k.caller]; exact hframe
  whole := k.quantum.trans h.whole

/-- A value stored by its decimal string is shown by that string and a line feed. -/
theorem store_then_show {s : State} {name : Attr} {ch : Channel} (m : Fin 1024) (h : Ready s)
    (hlife : s.life = .operational) (hlock : s.txLock = .free) (hch : sendsTo name = some ch) :
    ∃ t, andThen (exec (storeInstr name (decimal m.val)) s) (exec (showInstr name)) = .next t
      ∧ (t.ctx s.cur).result = .text (shownText m.val) := by
  obtain ⟨t, ht, k, _⟩ := exec_store_sends h hlife hlock hch (parseDec_decimal m.val)
  obtain ⟨u, hu, kshow⟩ := exec_show (k.returns.ready h rfl) (k.life.trans hlife) name
  refine ⟨u, by rw [ht]; exact hu, ?_⟩
  rw [← k.returns.cur, kshow.returns.caller, k.stored]
  rfl

/-- Settles O44, for the two parameters that are sent in a frame. -/
theorem storedValueIsShown : Obligations.StoredValueIsShown := fun _ m hready _ hlife hlock =>
  ⟨store_then_show (name := .volume) m hready hlife hlock rfl, store_then_show (name := .bass) m hready hlife hlock rfl⟩

/-! ### What the receiver gets (R82, R117, R118) -/

theorem numberOf_append_bit (bits : List Bool) (b : Bool) : numberOf (bits ++ [b]) = 2 * numberOf bits + b.toNat := by
  simp [numberOf]

/-- The first `k` bits of a field are the number without its other bits. -/
theorem numberOf_take {n : Nat} (v : BitVec n) (k : Nat) (hk : k ≤ n) :
    numberOf ((List.range k).map v.getMsbD) = v.toNat / 2 ^ (n - k) := by
  induction k with
  | zero => simp [numberOf, Nat.div_eq_of_lt v.isLt]
  | succ k ih =>
    have hbit : (v.getMsbD k).toNat = v.toNat / 2 ^ (n - (k + 1)) % 2 := by
      have hk' : k < n := hk
      rw [BitVec.getMsbD, decide_eq_true hk', Bool.true_and, BitVec.getLsbD, Nat.toNat_testBit, Nat.sub_sub,
        Nat.add_comm 1 k]
    have hshift : v.toNat / 2 ^ (n - k) = v.toNat / 2 ^ (n - (k + 1)) / 2 := by
      rw [Nat.div_div_eq_div_mul, ← pow_succ, show n - (k + 1) + 1 = n - k by omega]
    rw [List.range_succ, List.map_append, List.map_singleton, numberOf_append_bit, ih (by omega), hbit, hshift]
    omega

/-- A field's bits read back as the field (R12, R82). -/
theorem numberOf_bitsMsb {n : Nat} (v : BitVec n) : numberOf (bitsMsb v) = v.toNat := by
  rw [bitsMsb, numberOf_take v n le_rfl, Nat.sub_self, pow_zero, Nat.div_one]

/-- R82: the samples of a frame read back as its command, its magnitude and the padding. -/
theorem frameFields_frameBits (ch : Channel) (m : BitVec 10) :
    frameFields (frameBits ch m) =
      some { command := (command ch).toNat, magnitude := m.toNat, pad := (false, false) } := by
  have hcommand : (frameBits ch m).take 4 = bitsMsb (command ch) := by
    rw [frameBits, List.append_assoc]
    exact List.take_left' (bitsMsb_length _)
  have hmagnitude : ((frameBits ch m).drop 4).take 10 = bitsMsb m := by
    rw [frameBits, List.append_assoc, List.drop_left' (bitsMsb_length _)]
    exact List.take_left' (bitsMsb_length _)
  rw [frameFields, if_pos (frameBits_length ch m), hcommand, hmagnitude, numberOf_bitsMsb, numberOf_bitsMsb]
  rfl

/-- The `Accept` event is not seen on the lines, so the receiver gets the frame behind it and no other. -/
theorem received_accepted {s : State} (h : Started s) (hcfg : s.cfg.wf = true) (c : Nat) (name : Attr) (v : Nat)
    (bits : List Bool) :
    (received s (.accept c name v :: frameEvents s.cfg c bits)).deliveries = [deliver bits] := by
  have kaccept := Leads.unseen h.shows_levels (e := .accept c name v) rfl (Receiver.start s.trace.length)
  obtain ⟨u, b, kframe⟩ := leads_frame hcfg kaccept.shows_end c bits (Receiver.start s.trace.length)
  have hover := (kaccept.trans kframe).watched []
  rw [List.append_nil] at hover
  exact congrArg Receiver.deliveries hover

/-- Settles O45: the frame of the accepted value is the only one the receiver gets, and it reads back as the channel's
command and the value. -/
theorem acceptedValueReachesTheReceiver : Obligations.AcceptedValueReachesTheReceiver := by
  intro s x m i n hready hcfg hstarted hlock hp hi
  have hstore : ∃ name ch, i = storeInstr name x ∧ sendsTo name = some ch ∧ (command ch).toNat = n := by
    obtain ⟨rfl, rfl⟩ | ⟨rfl, rfl⟩ := hi
    · exact ⟨.volume, .A, rfl, rfl, rfl⟩
    · exact ⟨.bass, .B, rfl, rfl, rfl⟩
  obtain ⟨name, ch, rfl, hch, rfl⟩ := hstore
  obtain ⟨t, ht, k, _⟩ := exec_store_sends hready hstarted.life hlock hch hp
  refine ⟨t, _, valueBits ch m.val, ht, k.returns.trace, ?delivered, ?fields⟩
  case delivered =>
    have hlength : (valueBits ch m.val).length = 16 := frameBits_length ch _
    rw [received_accepted hstarted hcfg, deliver, if_pos hlength]
  case fields =>
    have hm : (BitVec.ofNat 10 m.val).toNat = m.val := Nat.mod_eq_of_lt m.isLt
    rw [valueBits, frameFields_frameBits, hm]

end Sys2Proof.Machine

/-! Proofs about the lifecycle (O58, O48, O33, O34, O46, O47, O49, O50, O51, O52): whose actions change the lifetime
state and which calls it refuses, what a call that waits leaves, what `start` leaves for each outcome of its
registration, and what `stop` and the two lock steps leave. -/

namespace Sys2Proof.Machine

/-! ### Whose actions change the lifetime state (R143, R159) -/

/-- Actions that stand in the sequence of a call other than `start` and `stop` leave the lifetime state alone. -/
theorem runWork_life {i : Instr} (hstart : i ≠ .start) (hstop : i ≠ .stop) {c : Nat} {work : List Action}
    {q : Option Nat} {s t : State} (hwork : CalledBy i work) (hrun : runWork c work q s = .next t) :
    t.life = s.life := by
  induction work generalizing q s with
  | nil =>
    cases hrun
    rfl
  | cons a rest ih =>
    obtain ⟨ha, hrest⟩ := List.forall_mem_cons.mp hwork
    have hpins : a ≠ .pinsConfigured := by rintro rfl; exact hstart ha
    have hregister : a ≠ .register := by rintro rfl; exact hstart ha
    have hdown : a ≠ .teardown := by rintro rfl; exact hstop ha
    have hlife {s' : State} (hp : perform c a s = .did s' ∨ perform c a s = .ended s') : s'.life = s.life :=
      perform_life hpins hregister hdown hp
    rcases runWork_next hrun with ⟨rfl, _⟩ | ⟨_, s', hp, hrun'⟩ | ⟨_, hp⟩
    · rfl
    · exact (ih hrest hrun').trans (hlife (.inl hp))
    · exact hlife (.inr hp)

/-- No call but `start` and `stop` changes the lifetime state. -/
theorem exec_life {i : Instr} {s t : State} (hstart : i ≠ .start) (hstop : i ≠ .stop) (h : exec i s = .next t) :
    t.life = s.life := by
  obtain ⟨_, _, hrun⟩ := exec_next h
  simpa using runWork_life hstart hstop (calledBy_program s.cfg i) hrun

/-- What a context has stored to do stands in the sequence of the call it is inside. -/
theorem Ctx.Ok.calledBy {cfg : Config} {x : Ctx} (h : x.Ok cfg) {i : Instr} (hi : x.call = some i) :
    CalledBy i x.work := fun a ha => calledBy_program cfg i a ((h.inside i hi).subset ha)

/-- Settles O58: a step that is of neither `start` nor `stop` performs another operation, or resumes a call with actions
of another sequence. -/
theorem onlyStartAndStopChangeLife : Obligations.OnlyStartAndStopChangeLife := by
  refine ⟨fun s t i h hstart hstop => exec_life hstart hstop h, fun s t hinv hstep hchanged => ?_⟩
  by_contra hneither
  have hother {i : Instr} (hi : s.acting = some i) : i ≠ .start ∧ i ≠ .stop := by
    constructor <;> rintro rfl
    · exact hneither (.inl hi)
    · exact hneither (.inr hi)
  refine hchanged ?_
  rcases step_next hstep with ⟨rfl, _⟩ | ⟨c, q, rest, i, hacting, hexec⟩ | ⟨c, q, rest, _, hacting, hrun⟩
  · rfl
  · simpa using exec_life (hother hacting).1 (hother hacting).2 hexec
  · cases hcall : (s.ctx c).call with
    | none =>
      rw [((hinv.calls c).between hcall).1] at hrun
      cases hrun
      rfl
    | some i =>
      obtain ⟨hstart, hstop⟩ := hother (hacting.trans hcall)
      exact runWork_life (s := s.taking c q rest) hstart hstop ((hinv.calls c).calledBy hcall) hrun

/-! ### Refusals outside the lifetime state (R141, R143, R152) -/

/-- A context inside a call of a kind is found among the contexts. -/
theorem State.anyCall_of_call {s : State} {kind : Instr → Bool} {c : Nat} {i : Instr} (hi : (s.ctx c).call = some i)
    (hkind : kind i = true) : s.anyCall kind = true := by
  by_contra hnone
  have hnot : kind i = false := State.kind_of_anyCall (by simpa using hnone) hi
  rw [hkind] at hnot
  cases hnot

/-- A direct transmission, or a `send_bit`, outside `Operational`: each first asks for that lifetime state (log 23). -/
theorem exec_transmission_refused {s : State} (h : s.life ≠ .operational) {i : Instr}
    (hi : (∃ v, i = .sendBit v) ∨ (∃ bits, i = .sendFrame bits) ∨ (∃ ch m, i = .write ch m)
      ∨ ∃ ch m, i = frameCommand ch m) : exec i s = .refused .badLifecycle := by
  have hnot : ¬ s.operational = true := mt operational_iff.mp h
  obtain ⟨v, rfl⟩ | ⟨bits, rfl⟩ | ⟨ch, m, rfl⟩ | ⟨ch, m, rfl⟩ := hi
  · exact if_neg hnot
  · exact if_neg hnot
  · exact if_neg hnot
  · cases ch <;> exact if_neg hnot

/-- A call of none of the transmissions or the acquire does nothing before its first action. -/
theorem callEntry_eq_id {i : Instr} (hframe : frameOf i = none) (hacquire : i ≠ .lockAcquire) : callEntry i = id := by
  funext s
  simp [callEntry, hframe, hacquire]

theorem exec_stop (s : State) : exec .stop s = runCall .stop (callEntry .stop) [.teardown, .ret] s := by
  rw [callEntry_eq_id rfl (by simp)]
  rfl

theorem perform_teardown_refused {c : Nat} {s : State} (h : s.life ≠ .operational) :
    perform c .teardown s = .refuse .badLifecycle :=
  if_pos (Bool.eq_false_iff.mpr (mt operational_iff.mp h))

/-- Settles O48: every one of these calls first asks for its lifetime state. -/
theorem lifetimeStateGuardsTheCalls : Obligations.LifetimeStateGuardsTheCalls := by
  intro s
  refine ⟨fun hlife => ?outside, fun c hcall => ?second, fun hlife => ⟨fun v => ?bit, fun bits => ?frame,
    fun ch m => ?write, fun m => ⟨?loadA, ?loadB, ?loadAB⟩, fun hready => ?stop⟩⟩
  case outside => exact exec_start_of_not_startable (s.startable_eq_false_iff.mpr (.inl hlife))
  case second =>
    have hany : s.anyCall isStart = true := State.anyCall_of_call hcall rfl
    exact exec_start_of_not_startable (s.startable_eq_false_iff.mpr (.inr hany))
  case bit => exact exec_transmission_refused hlife (.inl ⟨v, rfl⟩)
  case frame => exact exec_transmission_refused hlife (.inr (.inl ⟨bits, rfl⟩))
  case write => exact exec_transmission_refused hlife (.inr (.inr (.inl ⟨ch, m, rfl⟩)))
  case loadA => exact exec_transmission_refused hlife (.inr (.inr (.inr ⟨.A, m, rfl⟩)))
  case loadB => exact exec_transmission_refused hlife (.inr (.inr (.inr ⟨.B, m, rfl⟩)))
  case loadAB => exact exec_transmission_refused hlife (.inr (.inr (.inr ⟨.AB, m, rfl⟩)))
  case stop =>
    rw [exec_stop, runCall_idle hready.idle, hready.whole]
    exact runWork_refuse (by simp) (perform_teardown_refused hlife)

/-! ### Calls that wait at their first action (R142, R144) -/

/-- The call `i` of the running context was taken and waits, with `work` to do; nothing else of the block changed. -/
structure Waits (s t : State) (i : Instr) (work : List Action) : Prop where
  caller : t.ctx s.cur = ((callEntry i (s.beginCall i)).ctx s.cur).withWork work
  others : ∀ d, d ≠ s.cur → t.ctx d = s.ctx d
  trace : t.trace = s.trace
  registers : SameRegisters s t
  control : SameControl s t
  draws : t.draws = s.draws

/-- A call whose first action has to wait stops there with all its work. -/
theorem runCall_waits {s : State} {i : Instr} {a : Action} {rest : List Action} (h : Ready s)
    (hp : perform s.cur a (callEntry i (s.beginCall i)) = .wait) :
    ∃ t, runCall i (callEntry i) (a :: rest) s = .next t ∧ Waits s t i (a :: rest) := by
  refine ⟨_, (runCall_idle h.idle).trans (runWork_wait hp), ?_⟩
  constructor
  case caller => exact State.suspend_ctx_same _ _ _
  case others =>
    intro d hd
    rw [State.suspend_ctx_other _ _ hd, callEntry_ctx_other i (s.beginCall i) hd, State.beginCall_ctx_other _ _ hd]
  case registers => constructor <;> simp
  case control => constructor <;> simp
  all_goals simp

/-- A direct transmission of an operational block is the call of its frame (R113, R121). -/
theorem exec_of_frame {s : State} (h : s.life = .operational) {i : Instr} {bits : List Bool}
    (hi : frameOf i = some bits) :
    exec i s = runCall i (callEntry i) (frameActions s.cfg bits ++ [.ret]) s := by
  have hentry : callEntry i = fun t => t.enterFrame t.cur bits := funext (callEntry_of_frame hi)
  rw [hentry]
  cases i with
  | sendFrame bits' => cases hi; exact exec_sendFrame h bits
  | loadA m => cases hi; exact exec_frameCommand h .A m
  | loadB m => cases hi; exact exec_frameCommand h .B m
  | loadAB m => cases hi; exact exec_frameCommand h .AB m
  | write ch m =>
    obtain ⟨mag, hm, rfl⟩ := Option.map_eq_some_iff.mp hi
    exact exec_write_of_some h ch hm
  | _ => cases hi

/-- Settles O33: the first step of every frame is the acquire, and it waits. -/
theorem transmissionWaitsForTheLock : Obligations.TransmissionWaitsForTheLock := by
  intro s i bits hready hlife hlock hi
  have hframe : frameOf i = some bits := by
    rcases hi with rfl | ⟨ch, m, rfl, rfl⟩ | ⟨m, rfl, rfl⟩ | ⟨m, rfl, rfl⟩ | ⟨m, rfl, rfl⟩
    · rfl
    · simp [frameOf, magnitudeOf_fin]
    · exact congrArg some (bitsMsb_frameWord .A m)
    · exact congrArg some (bitsMsb_frameWord .B m)
    · exact congrArg some (bitsMsb_frameWord .AB m)
  have hwait : perform s.cur .acquire (callEntry i (s.beginCall i)) = .wait :=
    perform_acquire_wait (by simpa using hlock)
  rw [exec_of_frame hlife hframe, frameActions_eq, List.cons_append]
  obtain ⟨t, ht, k⟩ := runCall_waits hready hwait
  refine ⟨t, ht, ?caller, k.others, k.trace, k.registers, k.control, k.draws⟩
  rw [k.caller, callEntry_of_frame hframe, State.beginCall_cur, State.enterFrame_ctx_same, State.beginCall_ctx_same]
  rfl

/-! ### A waiting frame once the lock is free (R113, R144) -/

/-- A context before the first step of its frame has the whole frame to do, and then its return (R31). -/
theorem Ctx.Ok.whole_frame_at_zero {cfg : Config} {x : Ctx} {bits : List Bool} (h : x.Ok cfg)
    (hf : x.frame = some bits) (hseq : x.seq = .at 0) : x.work = frameActions cfg bits ++ [.ret] := by
  obtain ⟨k, hk, _, hwork⟩ := h.position bits hf
  obtain rfl : 0 = k := Seq.at.inj (hseq.symm.trans hk)
  rwa [List.drop_zero] at hwork

/-- Settles O34: what the context has stored is a whole frame, and with the lock free that runs to its end. -/
theorem waitingFrameIsSentOnceTheLockIsFree : Obligations.WaitingFrameIsSentOnceTheLockIsFree := by
  intro s d rest bits h hcfg hin hframe hseq hlock
  have hwork : (s.ctx d).work = frameActions s.cfg bits ++ [.ret] := (h.calls d).whole_frame_at_zero hframe hseq
  obtain ⟨u, hu, k⟩ := doAll_frame d bits (s.taking d none rest) hframe hlock
  have hstep : step s = .next (u.finish d .done) := by
    calc step s = runWork d (s.ctx d).work none (s.taking d none rest) := step_of_resume hin
      _ = runWork d (frameActions s.cfg bits ++ [.ret]) none (s.taking d none rest) := by rw [hwork]
      _ = runWork d [.ret] none u := runWork_doAll hu
      _ = .next (u.finish d .done) := runWork_ended (by simp) (perform_ret d u)
  refine ⟨_, hstep, k.trace, frameLatches_of_frameLatch hcfg k.latchAt, ?caller, fun c hc => ?others, k.fsel,
    ⟨k.life, k.txLock.trans hlock.symm, k.vol, k.bas, k.onv, k.surface⟩, k.draws⟩
  case caller => rw [State.finish_ctx_same, k.caller, State.taking_ctx]
  case others => rw [State.finish_ctx_other _ _ hc, k.others c hc, State.taking_ctx]

/-! ### `start` (R140, R143, R146) -/

/-- The end of a `start` by context `c`: the registration outcome is used up, and the call returns `r` in the lifetime
state `l`. -/
def State.registered (s : State) (c : Nat) (l : Life) (r : Result) : State :=
  ((s.putLife l).putSurface s.surface.tail).finish c r

theorem perform_register_succeeds {s : State} (h : s.surface.head? ≠ some false) (c : Nat) :
    perform c .register s = .ended (s.registered c .operational .done) := if_neg h

theorem perform_register_fails {s : State} (h : s.surface.head? = some false) (c : Nat) :
    perform c .register s = .ended (s.registered c .uninitialized (.failed .initFailure)) := if_pos h

/-- What a whole `start` leaves that ends in the lifetime state `l` and returns `r`. -/
structure StartCalled (s t : State) (l : Life) (r : Result) (es : List Event) : Prop where
  returns : Returns s t (s.ctx s.cur) r es
  life : t.life = l
  rolePins : ∀ p, p = csPin s.cfg ∨ p = clkPin s.cfg ∨ p = dataPin s.cfg ∨ p = enPin s.cfg → t.fn p = s.cfg.codeOutput
  otherPins : ∀ p, p ≠ csPin s.cfg → p ≠ clkPin s.cfg → p ≠ dataPin s.cfg → p ≠ enPin s.cfg → t.fn p = s.fn p
  top : ∀ k : Fin 6, (t.fsel[k.val]).extractLsb' 30 2 = (s.fsel[k.val]).extractLsb' 30 2
  csHigh : t.latchAt (csPin s.cfg) = .high
  clkLow : t.latchAt (clkPin s.cfg) = .low
  otherLatches : ∀ p, p ≠ csPin s.cfg → p ≠ clkPin s.cfg → t.latchAt p = s.latchAt p
  settles : es.countP isSettle = 0
  locks : ∀ c, Event.acq c ∉ es ∧ Event.rel c ∉ es
  accesses : s.cfg.configureSplit = false → es.countP isRead = 4 ∧ es.countP isWrite = 6
  txLock : t.txLock = s.txLock
  vol : t.vol = s.vol
  bas : t.bas = s.bas
  onv : t.onv = s.onv
  surface : t.surface = s.surface.tail
  draws : t.draws = s.draws

/-- What the pins are set to is what the whole `start` leaves: the registration touches no register. -/
theorem StartCalled.of_pinsSet {s u : State} {es : List Event} (hcfg : s.cfg.wf = true)
    (k : PinsSet s.cur (s.beginCall .start) u es) (l : Life) (r : Result) :
    StartCalled s (u.registered s.cur l r) l r es := by
  obtain ⟨hcsClk, _⟩ := Config.rolePins_distinct hcfg
  constructor
  case returns =>
    constructor
    case caller =>
      obtain ⟨v, hv⟩ := k.caller
      rw [State.registered, State.finish_ctx_same, State.putSurface_ctx, State.putLife_ctx, hv,
        State.beginCall_ctx_same]
      rfl
    case others =>
      intro d hd
      rw [State.registered, State.finish_ctx_other _ _ hd, State.putSurface_ctx, State.putLife_ctx, k.others d hd,
        State.beginCall_ctx_other _ _ hd]
    case trace => exact k.trace
    case cfg => exact k.cfg
    case cur => exact k.cur
    case quantum => exact k.quantum
    case inputs => exact k.inputs
  case life => rfl
  case rolePins => exact fun p hp => (k.fn p).trans (if_pos hp)
  case otherPins =>
    intro p hcs hclk hdata hen
    exact (k.fn p).trans (if_neg (by simp [hcs, hclk, hdata, hen]))
  case top => exact k.top
  case csHigh => exact (k.latchAt _).trans ((if_neg hcsClk).trans (if_pos rfl))
  case clkLow => exact (k.latchAt _).trans (if_pos rfl)
  case otherLatches => exact fun p hcs hclk => (k.latchAt p).trans ((if_neg hclk).trans (if_neg hcs))
  case settles => exact k.settles
  case locks => exact k.locks
  case accesses => exact k.accesses
  case txLock => exact k.txLock
  case vol => exact k.vol
  case bas => exact k.bas
  case onv => exact k.onv
  case surface => exact congrArg List.tail k.surface
  case draws => exact k.draws

/-- An accepted `start` sets the pins and ends as its registration does. -/
theorem exec_start_ends {s : State} {l : Life} {r : Result} (h : Ready s) (hcfg : s.cfg.wf = true)
    (hs : s.startable = true)
    (hregister : ∀ u : State, u.surface = s.surface → perform s.cur .register u = .ended (u.registered s.cur l r)) :
    ∃ t es, exec .start s = .next t ∧ StartCalled s t l r es := by
  obtain ⟨u, es, hu, k⟩ := doAll_startPins s.cur (s.beginCall .start) (h.beginCall .start).2
  have hexec : exec .start s = .next (u.registered s.cur l r) := by
    calc exec .start s = runCall .start id (startPinActions s.cfg ++ [.register]) s := by
          rw [← startActions_eq]; exact if_pos hs
      _ = runWork s.cur [.register] none u := runCall_doAll h hu
      _ = .next (u.registered s.cur l r) := runWork_ended (by simp) (hregister u k.surface)
  exact ⟨_, es, hexec, .of_pinsSet hcfg k l r⟩

/-- Settles O46: with the registration that succeeds, `start` ends in the operational block. -/
theorem startMakesTheBlockOperational : Obligations.StartMakesTheBlockOperational := by
  intro s hready hcfg hlife hcall hsurface
  obtain ⟨t, es, ht, k⟩ := exec_start_ends (l := .operational) (r := .done) hready hcfg
    (s.startable_iff.mpr ⟨hlife, hcall⟩) fun u hu => perform_register_succeeds (by rwa [hu]) s.cur
  have hstarted : Started t := by
    refine ⟨k.life, ?cs, ?clk, ?data, ?en, ?csHigh, ?clkLow⟩ <;> rw [k.returns.cfg]
    case cs => exact k.rolePins _ (.inl rfl)
    case clk => exact k.rolePins _ (.inr (.inl rfl))
    case data => exact k.rolePins _ (.inr (.inr (.inl rfl)))
    case en => exact k.rolePins _ (.inr (.inr (.inr rfl)))
    case csHigh => exact k.csHigh
    case clkLow => exact k.clkLow
  exact ⟨t, es, ht, k.returns, hstarted, k.otherLatches, k.otherPins, k.top, k.settles, k.locks, k.accesses, k.txLock,
    k.vol, k.bas, k.onv, k.surface, k.draws⟩

/-- Settles O47: the registration that fails comes after the pins are set, and only takes the lifetime state back. -/
theorem failedRegistrationEndsTheStart : Obligations.FailedRegistrationEndsTheStart := by
  intro s hready hcfg hlife hcall hsurface
  obtain ⟨t, es, ht, k⟩ := exec_start_ends (l := .uninitialized) (r := .failed .initFailure) hready hcfg
    (s.startable_iff.mpr ⟨hlife, hcall⟩) fun u hu => perform_register_fails (by rwa [hu]) s.cur
  exact ⟨t, es, ht, k.returns, k.life, k.rolePins _ (.inl rfl), k.rolePins _ (.inr (.inl rfl)),
    k.rolePins _ (.inr (.inr (.inl rfl))), k.rolePins _ (.inr (.inr (.inr rfl))), k.csHigh, k.clkLow, k.otherLatches,
    k.otherPins, k.top, k.vol, k.bas, k.onv, k.txLock, k.surface, k.draws⟩

/-! ### `stop` (R142) -/

/-- What keeps `stop` waiting, context by context (R142). -/
def Busy (s : State) : Prop :=
  s.txLock ≠ .free ∨ (∃ c, (s.ctx c).seq ≠ .idle) ∨ ∃ c i, (s.ctx c).call = some i ∧ isBoundary i = true

/-- A busy block is in flight, in canonical form or not. -/
theorem Busy.inFlight {s : State} (h : Busy s) : s.inFlight = true := by
  unfold State.inFlight
  obtain hlock | ⟨c, hseq⟩ | ⟨c, i, hcall, hboundary⟩ := h
  · simp [hlock]
  · have hany : s.ctxs.any (fun e => decide (e.2.seq ≠ .idle)) = true := by
      rcases Contexts.mem_of_get s.ctxs c with hfresh | hmem
      · exact absurd (congrArg Ctx.seq hfresh) hseq
      · exact List.any_eq_true.mpr ⟨_, hmem, decide_eq_true hseq⟩
    rw [hany, Bool.or_true, Bool.true_or]
  · rw [State.anyCall_of_call hcall hboundary, Bool.or_true]

/-- In canonical form, nothing but a busy block is in flight. -/
theorem inFlight_eq_false_of_not_busy {s : State} (hwf : s.ctxs.wf = true) (h : ¬ Busy s) : s.inFlight = false := by
  by_contra hflight
  refine h ?_
  simp only [State.inFlight, Bool.not_eq_false, Bool.or_eq_true, decide_eq_true_eq] at hflight
  obtain (hlock | hseq) | hcall := hflight
  · exact .inl hlock
  · obtain ⟨c, hc⟩ := (Contexts.any_iff hwf fun _ => rfl).mp hseq
    exact .inr (.inl ⟨c, of_decide_eq_true hc⟩)
  · obtain ⟨c, hc⟩ := (Contexts.any_iff hwf fun _ => rfl).mp hcall
    refine .inr (.inr ⟨c, ?_⟩)
    change (match (s.ctx c).call with | some i => isBoundary i | none => false) = true at hc
    split at hc
    · exact ⟨_, ‹_›, hc⟩
    · cases hc

theorem perform_teardown {s : State} (h : s.life = .operational) (hfree : s.inFlight = false) (c : Nat) :
    perform c .teardown s = .did (s.putLife .uninitialized) := by
  have hop : ¬ s.operational = false := by simp [operational_iff.mpr h]
  exact (if_neg hop).trans (if_neg (by simp [hfree]))

theorem perform_teardown_wait {s : State} (h : s.life = .operational) (hflight : s.inFlight = true) (c : Nat) :
    perform c .teardown s = .wait := by
  have hop : ¬ s.operational = false := by simp [operational_iff.mpr h]
  exact (if_neg hop).trans (if_pos hflight)

/-- What a call of one action and a return gives its caller, from what the action leaves. -/
theorem Returns.of_did {s u : State} {i : Instr} {a : Action} {x : Ctx} {es : List Event}
    (hp : perform s.cur a (callEntry i (s.beginCall i)) = .did u)
    (hcaller : (u.ctx s.cur).returned .done = x.returned .done) (htrace : u.trace = s.trace ++ es)
    (hcur : u.cur = s.cur) (hquantum : u.quantum = s.quantum) (hinputs : u.inputs = s.inputs) :
    Returns s (u.finish s.cur .done) x .done es where
  caller := (State.finish_ctx_same u s.cur .done).trans hcaller
  others d hd := by
    rw [State.finish_ctx_other _ _ hd, perform_ctx_other hd (.inl hp), callEntry_ctx_other i (s.beginCall i) hd,
      State.beginCall_ctx_other _ _ hd]
  trace := htrace
  cfg := by simpa using perform_cfg (.inl hp)
  cur := hcur
  quantum := hquantum
  inputs := hinputs

/-- A call moves no sequencer by being made. -/
theorem State.beginCall_seq (s : State) (i : Instr) (d : Nat) : ((s.beginCall i).ctx d).seq = (s.ctx d).seq := by
  by_cases hd : d = s.cur
  · subst hd
    rw [State.beginCall_ctx_same]
  · rw [State.beginCall_ctx_other s i hd]

/-- The call of a `stop` is itself nothing that keeps it waiting. -/
theorem busy_beginCall_stop_iff {s : State} (h : Ready s) : Busy (s.beginCall .stop) ↔ Busy s := by
  have hcall (d : Nat) : (∃ i, ((s.beginCall .stop).ctx d).call = some i ∧ isBoundary i = true)
      ↔ ∃ i, (s.ctx d).call = some i ∧ isBoundary i = true := by
    by_cases hd : d = s.cur
    · subst hd
      simp [h.idle, isBoundary]
    · rw [State.beginCall_ctx_other s .stop hd]
  simp only [Busy, State.beginCall_txLock, State.beginCall_seq, hcall]

/-- Settles O49: nothing is in flight, so the one action of `stop` is done, and it changes the lifetime state alone. -/
theorem stopEndsTheLifetime : Obligations.StopEndsTheLifetime := by
  intro s hready hwf hlife hlock hidle hcalls
  have hbusy : ¬ Busy (s.beginCall .stop) := by
    rw [busy_beginCall_stop_iff hready]
    rintro (hheld | ⟨c, hseq⟩ | ⟨c, i, hcall, hboundary⟩)
    · exact hheld hlock
    · exact hseq (hidle c)
    · rw [hcalls c i hcall] at hboundary
      cases hboundary
  have hfree : (s.beginCall .stop).inFlight = false := inFlight_eq_false_of_not_busy (State.mapCtx_wf hwf _ _) hbusy
  have hp : perform s.cur .teardown (s.beginCall .stop) = .did ((s.beginCall .stop).putLife .uninitialized) :=
    perform_teardown (s := s.beginCall .stop) hlife hfree s.cur
  have hexec : exec .stop s = .next (((s.beginCall .stop).putLife .uninitialized).finish s.cur .done) :=
    (exec_stop s).trans (runCall_ret (as := [.teardown]) hready (doAll_cons hp []))
  refine ⟨_, hexec, Returns.of_did (i := .stop) hp ?_ (List.append_nil _).symm rfl rfl rfl, rfl, ⟨rfl, rfl⟩, hlock, rfl,
    rfl, rfl, rfl, rfl⟩
  rw [State.putLife_ctx, State.beginCall_ctx_same]
  rfl

/-- Settles O50: with something in flight the first action of `stop` waits. -/
theorem stopWaitsForTheFrame : Obligations.StopWaitsForTheFrame := by
  intro s hready hlife hbusy
  have hflight : (s.beginCall .stop).inFlight = true := ((busy_beginCall_stop_iff hready).mpr hbusy).inFlight
  have hwait : perform s.cur .teardown (s.beginCall .stop) = .wait :=
    perform_teardown_wait (s := s.beginCall .stop) hlife hflight s.cur
  obtain ⟨t, ht, k⟩ := runCall_waits (i := .stop) (rest := [.ret]) hready hwait
  have hcaller : t.ctx s.cur = ((s.beginCall .stop).ctx s.cur).withWork [.teardown, .ret] := k.caller
  rw [State.beginCall_ctx_same] at hcaller
  refine ⟨t, (exec_stop s).trans ht, ?call, ?work, fun c => ?frames, k.others, k.trace, k.registers, k.control, k.draws⟩
  case call => rw [hcaller]; rfl
  case work => rw [hcaller]; rfl
  case frames =>
    by_cases hc : c = s.cur
    · subst hc
      rw [hcaller]
      exact ⟨rfl, rfl⟩
    · rw [k.others c hc]
      exact ⟨rfl, rfl⟩

/-! ### The two lock steps on their own (R144, R145) -/

/-- What a direct lock step leaves that puts the lock at `l` and records `e`; `x` is its caller's record. -/
structure LockCalled (s t : State) (x : Ctx) (l : Lock) (e : Event) : Prop where
  returns : Returns s t x .done [e]
  txLock : t.txLock = l
  registers : SameRegisters s t
  life : t.life = s.life
  vol : t.vol = s.vol
  bas : t.bas = s.bas
  onv : t.onv = s.onv
  surface : t.surface = s.surface
  draws : t.draws = s.draws

/-- A call of one lock step that is done runs to its return; `f` is what the step does to the record of its context. -/
theorem runCall_lock {s : State} {i : Instr} {a : Action} {l : Lock} {e : Event} {f : Ctx → Ctx} {x : Ctx}
    (h : Ready s)
    (hp : perform s.cur a (callEntry i (s.beginCall i)) =
      .did ((((callEntry i (s.beginCall i)).putLock l).emit e).mapCtx s.cur f))
    (hx : (f ((callEntry i (s.beginCall i)).ctx s.cur)).returned .done = x.returned .done) :
    ∃ t, runCall i (callEntry i) [a, .ret] s = .next t ∧ LockCalled s t x l e := by
  refine ⟨_, runCall_ret (as := [a]) h (doAll_cons hp []), ?_⟩
  constructor
  case returns =>
    refine Returns.of_did hp ?_ (by simp) (by simp) (by simp) (by simp)
    rw [State.mapCtx_ctx_same, State.emit_ctx, State.putLock_ctx]
    exact hx
  case registers => constructor <;> simp
  all_goals simp

theorem exec_lockAcquire (s : State) :
    exec .lockAcquire s = runCall .lockAcquire (callEntry .lockAcquire) [.acquire, .ret] s := rfl

theorem exec_lockRelease (s : State) :
    exec .lockRelease s = runCall .lockRelease (callEntry .lockRelease) [.release, .ret] s := by
  rw [callEntry_eq_id rfl (by simp)]
  rfl

/-- The caller of a direct acquire stands before step 0 (R62). -/
theorem callEntry_lockAcquire_ctx (s : State) :
    (callEntry .lockAcquire (s.beginCall .lockAcquire)).ctx s.cur =
      { s.ctx s.cur with seq := .at 0, call := some .lockAcquire, result := .pending } := by
  change ((s.beginCall .lockAcquire).await s.cur).ctx s.cur = _
  rw [State.await_ctx_same, State.beginCall_ctx_same]

/-- Settles O51: the one action of the call is the acquire, which takes a free lock and waits for a held one. -/
theorem lockAcquireTakesOrWaits : Obligations.LockAcquireTakesOrWaits := by
  intro s hready
  refine ⟨fun hfree => ?takes, fun hheld => ?waits⟩
  case takes =>
    obtain ⟨t, ht, k⟩ := runCall_lock (i := .lockAcquire) (x := { s.ctx s.cur with seq := .at 1 }) hready
      (perform_acquire hfree) (by rw [callEntry_lockAcquire_ctx]; rfl)
    exact ⟨t, (exec_lockAcquire s).trans ht, k.returns, k.txLock, k.registers, k.life, k.vol, k.bas, k.onv, k.surface,
      k.draws⟩
  case waits =>
    obtain ⟨t, ht, k⟩ := runCall_waits (i := .lockAcquire) (rest := [.ret]) hready (perform_acquire_wait hheld)
    have hcaller := k.caller
    rw [callEntry_lockAcquire_ctx] at hcaller
    refine ⟨t, (exec_lockAcquire s).trans ht, ?seq, ?work, k.trace, k.others, k.registers, k.control, k.draws⟩
    case seq => rw [hcaller]; rfl
    case work => rw [hcaller]; rfl

theorem perform_release_refused {c : Nat} {s : State} (h : s.txLock ≠ .held c) :
    perform c .release s = .refuse .notHolder := if_neg h

/-- Settles O52: the one action of the call is the release, which asks for the caller's own lock. -/
theorem lockReleaseFreesTheHoldersLock : Obligations.LockReleaseFreesTheHoldersLock := by
  intro s hready
  refine ⟨fun hheld => ?frees, fun hother => ?refused⟩
  case frees =>
    obtain ⟨t, ht, k⟩ := runCall_lock (i := .lockRelease) (x := (s.ctx s.cur).atRest) hready
      (perform_release hheld) (by rw [callEntry_eq_id rfl (by simp), id_eq, State.beginCall_ctx_same]; rfl)
    exact ⟨t, (exec_lockRelease s).trans ht, k.returns, k.txLock, k.registers, k.life, k.vol, k.bas, k.onv, k.surface,
      k.draws⟩
  case refused =>
    rw [exec_lockRelease, runCall_idle hready.idle, hready.whole]
    exact runWork_refuse (by simp) (perform_release_refused hother)

end Sys2Proof.Machine

/-! Proofs about the frame encoding and the function-select registers (O6, O12, O14): the frame that 16 samples are, the
word that a read of such a register returns, and what a write of one leaves of every pin's function. -/

namespace Sys2Proof.Machine

/-! ### Bits and the number they form (R12, R82) -/

/-- The number of a bit sequence has no more bits than the sequence. -/
theorem numberOf_lt (bits : List Bool) : numberOf bits < 2 ^ bits.length := by
  induction bits using List.reverseRecOn with
  | nil => decide
  | append_singleton bits b ih =>
    have hb : b.toNat ≤ 1 := Bool.toNat_le b
    rw [numberOf_append_bit, List.length_append, List.length_singleton, pow_succ]
    omega

@[simp] theorem bitsMsb_ofBool (b : Bool) : bitsMsb (BitVec.ofBool b) = [b] := by cases b <;> rfl

/-- R12: a bit sequence is the field of its length that holds its number. -/
theorem bitsMsb_numberOf (bits : List Bool) : bitsMsb (BitVec.ofNat bits.length (numberOf bits)) = bits := by
  induction bits using List.reverseRecOn with
  | nil => rfl
  | append_singleton bits b ih =>
    have hlast : BitVec.ofNat (bits.length + 1) (numberOf (bits ++ [b]))
        = BitVec.ofNat bits.length (numberOf bits) ++ BitVec.ofBool b := by
      have hlt := numberOf_lt (bits ++ [b])
      rw [List.length_append, List.length_singleton] at hlt
      refine BitVec.eq_of_toNat_eq ?_
      rw [toNat_append_eq, BitVec.toNat_ofNat, BitVec.toNat_ofNat, BitVec.toNat_ofBool, Nat.mod_eq_of_lt hlt,
        Nat.mod_eq_of_lt (numberOf_lt bits), numberOf_append_bit]
      omega
    rw [List.length_append, List.length_singleton, hlast, bitsMsb_append, ih, bitsMsb_ofBool]

theorem bitsMsb_ofNat_numberOf {bits : List Bool} {n : Nat} (h : bits.length = n) :
    bitsMsb (BitVec.ofNat n (numberOf bits)) = bits := by
  subst h
  exact bitsMsb_numberOf bits

/-! ### The frame that 16 samples are (R77, R82) -/

/-- The last two of 16 samples are the padding. -/
theorem drop_fourteen_of_length {bits : List Bool} (h : bits.length = 16) :
    bits.drop 14 = [bits.getD 14 false, bits.getD 15 false] := by
  rw [List.drop_eq_getElem_cons (by omega), List.drop_eq_getElem_cons (by omega), List.drop_of_length_le (by omega)]
  simp [h]

/-- R77, R82: samples that have fields are those fields, most significant bit first, then the padding. -/
theorem frameFields_some {bits : List Bool} {f : FrameFields} (h : frameFields bits = some f) :
    f.magnitude < 1024
      ∧ bits = bitsMsb (BitVec.ofNat 4 f.command) ++ bitsMsb (BitVec.ofNat 10 f.magnitude) ++ [f.pad.1, f.pad.2] := by
  unfold frameFields at h
  split at h
  case isFalse => cases h
  case isTrue hlen =>
    cases h
    have hcommand : (bits.take 4).length = 4 := by simp [hlen]
    have hmagnitude : ((bits.drop 4).take 10).length = 10 := by simp [hlen]
    have hlt := numberOf_lt ((bits.drop 4).take 10)
    rw [hmagnitude] at hlt
    refine ⟨hlt, ?_⟩
    calc bits = bits.take 4 ++ ((bits.drop 4).take 10 ++ (bits.drop 4).drop 10) := by
          rw [List.take_append_drop, List.take_append_drop]
      _ = _ := by
          rw [List.drop_drop, drop_fourteen_of_length hlen, bitsMsb_ofNat_numberOf hcommand,
            bitsMsb_ofNat_numberOf hmagnitude, List.append_assoc]

/-- The encoder has a channel for each command it can emit, and pads with two zeros (R78, R79). -/
theorem emittable_iff (f : FrameFields) :
    f.emittable = true ↔ (∃ ch, (command ch).toNat = f.command) ∧ f.pad = (false, false) := by
  have hchannel : (∃ ch, (command ch).toNat = f.command) ↔ f.command = 9 ∨ f.command = 10 ∨ f.command = 15 := by
    constructor
    · rintro ⟨ch, hch⟩
      cases ch <;> simp [← hch, command]
    · rintro (h | h | h) <;> rw [h]
      · exact ⟨.A, rfl⟩
      · exact ⟨.B, rfl⟩
      · exact ⟨.AB, rfl⟩
  rw [hchannel]
  simp [FrameFields.emittable, or_assoc]

/-- Settles O6: a frame's samples read back as its fields, and samples are the fields they read back as. -/
theorem samplesReadBackAsTheirFrame : Obligations.SamplesReadBackAsTheirFrame := by
  refine ⟨frameFields_frameBits, fun bits f hf hemit => ?_⟩
  obtain ⟨⟨ch, hch⟩, hpad⟩ := (emittable_iff f).mp hemit
  obtain ⟨hlt, hbits⟩ := frameFields_some hf
  refine ⟨ch, hch, hlt, ?_⟩
  have hcommand : BitVec.ofNat 4 f.command = command ch := by rw [← hch, BitVec.ofNat_toNat, BitVec.setWidth_eq]
  rw [hbits, hcommand, hpad, frameBits]

/-! ### A read of a function-select register (R90) -/

/-- The word that a call of one read of `FSEL[k]` returns, and the whole state it leaves. -/
theorem runCall_readFsel {s : State} (h : Ready s) (i : Instr) (k : Fin 6) :
    runCall i id [.read (.fsel k), .retWord] s
      = .next (((s.beginCall i).regRead s.cur (.fsel k)).finish s.cur (.word s.fsel[k.val])) := by
  have hread : doAll s.cur [.read (.fsel k)] (s.beginCall i) = some ((s.beginCall i).regRead s.cur (.fsel k)) :=
    doAll_cons (perform_read _ _ _) []
  have htemp : (((s.beginCall i).regRead s.cur (.fsel k)).ctx s.cur).temp = s.fsel[k.val] := by
    rw [State.regRead, State.keep_ctx_same]
    rfl
  refine (runCall_doAll (as := [.read (.fsel k)]) h hread).trans (runWork_ended (by simp) ?_)
  rw [perform, htemp]

/-- Settles O12: both operations are a call of one read, which returns some word and writes nothing; of `FSEL[k]` it
returns the stored word, and no word is drawn. -/
theorem fselReadReturnsTheStoredWord : Obligations.FselReadReturnsTheStoredWord := by
  intro s k i hready hi
  have hexec : exec i s = runCall i id [.read (.fsel k), .retWord] s := by
    obtain rfl | rfl := hi
    · rfl
    · exact exec_regRead_of_some (regOfIndex_fsel k) s
  obtain ⟨t, v, ht, hreturns, hregisters, hcontrol⟩ := runCall_read hready i (.fsel k)
  cases ht.symm.trans (runCall_readFsel hready i k)
  have hv : s.fsel[k.val] = v := by
    have hresult := congrArg Ctx.result hreturns.caller
    rw [State.finish_ctx_same] at hresult
    exact Result.word.inj hresult
  subst hv
  exact ⟨_, hexec.trans ht, hreturns, hregisters, hcontrol, rfl⟩

/-! ### A write of a function-select register (R92) -/

/-- The function of pin `10k + j` is bits `3j+2 : 3j` of `FSEL[k]` (R22, R24). -/
theorem State.fn_eq_extract (s : State) (k : Fin 6) (j : Fin 10) :
    s.fn ⟨10 * k.val + j.val, by omega⟩ = (s.fsel[k.val]).extractLsb' (3 * j.val) 3 := by
  have hdiv : (10 * k.val + j.val) / 10 = k.val := by omega
  have hmod : (10 * k.val + j.val) % 10 * 3 = 3 * j.val := by omega
  simp only [State.fn, fieldOf, fselIndex, fselOffset, hdiv, hmod]

/-- A pin's function depends on the word of its own register. -/
theorem State.fn_congr_word {s t : State} {p : Pin} (h : t.fsel[(fselIndex p).val] = s.fsel[(fselIndex p).val]) :
    t.fn p = s.fn p := by
  rw [State.fn, State.fn, h]

/-- Settles O14: both operations are a call of one write, which stores the word, and a pin's function is a field of its
register's word. -/
theorem fselWriteReplacesTheWord : Obligations.FselWriteReplacesTheWord := by
  intro s k v i hready hi
  have hexec : exec i s = runCall i id [.write (.fsel k) v, .ret] s := by
    obtain rfl | rfl := hi
    · rfl
    · exact exec_regWrite_of_some (regOfIndex_fsel k) v s
  obtain ⟨t, ht, w⟩ := runCall_write hready i (reservedWrite_fsel k v)
  have hsame : t.fsel[k.val] = v := by simp [w.fsel]
  have hother (j : Fin 6) (hj : j ≠ k) : t.fsel[j.val] = s.fsel[j.val] := by
    have hne : k.val ≠ j.val := fun e => hj (Fin.ext e.symm)
    simp [w.fsel, hne]
  refine ⟨t, hexec.trans ht, w.returns, hsame, hother, fun j => ?field, fun p hp => ?otherPin, w.latch, w.control,
    w.draws⟩
  case field => rw [State.fn_eq_extract, hsame]
  case otherPin => exact State.fn_congr_word (hother (fselIndex p) fun e => hp (congrArg Fin.val e))

end Sys2Proof.Machine

/-! Proofs about calls of several contexts (O23, O24): two `configure` calls that overlap, and two `set_level` calls in
either order. -/

namespace Sys2Proof.Machine

/-! ### A `configure` preempted between its read and its write (R17, R100) -/

/-- A `configure` of one read and one write, preempted after its read, has the word it read and its write still to
do. -/
structure ConfigureRead (s t : State) (p : Pin) (d : Direction) : Prop where
  work : (t.ctx s.cur).work = [.writeField p d, .ret]
  temp : (t.ctx s.cur).temp = s.fsel[(fselIndex p).val]
  others : ∀ e, e ≠ s.cur → t.ctx e = s.ctx e
  fsel : t.fsel = s.fsel
  cfg : t.cfg = s.cfg

theorem exec_configure_preempted {s : State} (hs : s.cfg.configureSplit = false) (hidle : (s.ctx s.cur).call = none)
    (hquantum : s.quantum = some 1) (p : Pin) (d : Direction) :
    ∃ t, exec (.configure p.val d) s = .next t ∧ ConfigureRead s t p d := by
  have hactions : configureActions s.cfg p d ++ [.ret] = .read (.fsel (fselIndex p)) :: [.writeField p d, .ret] := by
    simp [configureActions, hs]
  rw [exec_configure_pin, runCall_idle hidle, hquantum, hactions, runWork_did (by simp) (perform_read _ _ _)]
  refine ⟨_, runWork_preempted _ _ _ _, ?_⟩
  constructor
  case work => rw [State.suspend_ctx_same]
  case temp =>
    rw [State.suspend_ctx_same, State.regRead, State.keep_ctx_same]
    rfl
  case others =>
    intro e he
    rw [State.suspend_ctx_other _ _ he, State.regRead_ctx_other _ _ he]
    exact State.beginCall_ctx_other _ _ he
  case fsel => simp
  case cfg => simp

/-- What a `configure` that is let go on writes: the word it had read, with the pin's field replaced (R75). -/
theorem resumeCall_configure {s : State} {p : Pin} {d : Direction} (hquantum : s.quantum = none)
    (hwork : (s.ctx s.cur).work = [.writeField p d, .ret]) :
    ∃ t, resumeCall s = .next t
      ∧ t.fsel = s.fsel.set (fselIndex p).val (updatedField (s.ctx s.cur).temp p (code s.cfg d))
      ∧ t.cfg = s.cfg
      ∧ ∀ e, e ≠ s.cur → t.ctx e = s.ctx e := by
  rw [resumeCall, hquantum, hwork, runWork_did (by simp) (perform_writeField _ _ _ _),
    runWork_ended (by simp) (perform_ret _ _)]
  refine ⟨_, rfl, by simp, by simp, fun e he => ?_⟩
  rw [State.finish_ctx_other _ _ he, State.regWrite_ctx_other _ _ _ he]

/-- The function of a pin whose register's word was replaced is its field in the new word (R24). -/
theorem State.fn_of_set {t : State} {words : Vector Word 6} {k : Fin 6} {w : Word} (h : t.fsel = words.set k.val w)
    {p : Pin} (hp : fselIndex p = k) : t.fn p = fieldOf w p := by
  subst hp
  simp [State.fn, h]

/-- Settles O23: the second write is made from the word its context read before the first write, so it puts the first
pin's old field back. -/
theorem unserialisedConfigureLosesAnUpdate : Obligations.UnserialisedConfigureLosesAnUpdate := by
  intro s c d p q a b hs hne hcidle _ hdidle _ hreg hpq
  obtain ⟨t1, ht1, read1⟩ := exec_configure_preempted (s := s.scheduled c (some 1)) hs hcidle rfl p a
  have hdidle1 : (t1.ctx d).call = none := by
    rw [read1.others d hne.symm]
    exact hdidle
  have hs1 : t1.cfg.configureSplit = false := by rw [read1.cfg]; exact hs
  obtain ⟨t2, ht2, read2⟩ := exec_configure_preempted (s := t1.scheduled d (some 1)) hs1 hdidle1 rfl q b
  have hc2 : t2.ctx c = t1.ctx c := read2.others c hne
  obtain ⟨t3, ht3, hfsel3, hcfg3, hothers3⟩ := resumeCall_configure (s := t2.scheduled c none) (p := p) (d := a) rfl
    ((congrArg Ctx.work hc2).trans read1.work)
  have hd3 : t3.ctx d = t2.ctx d := hothers3 d hne.symm
  obtain ⟨t4, ht4, hfsel4, -, -⟩ := resumeCall_configure (s := t3.scheduled d none) (p := q) (d := b) rfl
    ((congrArg Ctx.work hd3).trans read2.work)
  have hcfg2 : t2.cfg = s.cfg := read2.cfg.trans read1.cfg
  have hold : (t3.ctx d).temp = s.fsel[(fselIndex q).val] :=
    calc (t3.ctx d).temp = t1.fsel[(fselIndex q).val] := (congrArg Ctx.temp hd3).trans read2.temp
      _ = s.fsel[(fselIndex q).val] := by rw [read1.fsel]; rfl
  refine ⟨t1, t2, t3, t4, ht1, ht2, ht3, ht4, ?first, ?second, ?lost⟩
  case first =>
    have hcode : code t2.cfg a = code s.cfg a := by rw [hcfg2]
    rw [State.fn_of_set hfsel3 rfl, fieldOf_updatedField_same]
    exact hcode
  case second =>
    have hcode : code t3.cfg b = code s.cfg b := by rw [hcfg3]; exact congrArg (code · b) hcfg2
    rw [State.fn_of_set hfsel4 rfl, fieldOf_updatedField_same]
    exact hcode
  case lost =>
    calc t4.fn p = fieldOf (t3.ctx d).temp p := by
          rw [State.fn_of_set hfsel4 hreg, fieldOf_updatedField_other _ _ hreg.symm hpq]
          rfl
      _ = s.fn p := by simp only [hold, State.fn, hreg]

/-! ### Two `set_level` calls (R60) -/

/-- What a call of `set_level(p, l)` leaves of the registers, and of who may call next. -/
structure LevelSet (s t : State) (p : Pin) (l : Level) : Prop where
  latches : ∀ q, t.latchAt q = if q = p then l else s.latchAt q
  fsel : t.fsel = s.fsel
  idle : ∀ d, (s.ctx d).call = none → (t.ctx d).call = none

/-- A `set_level` by a context inside no call runs to its return, wherever the context stands with a frame. -/
theorem exec_setLevel_of_idle {s : State} (hidle : (s.ctx s.cur).call = none) (hquantum : s.quantum = none) (p : Pin)
    (l : Level) : ∃ t, exec (.setLevel p.val l) s = .next t ∧ LevelSet s t p l := by
  obtain ⟨u, hu, k, hlatch⟩ := doAll_setLevel_drives s.cur p l (s.beginCall (.setLevel p.val l))
  rw [exec_setLevel_pin, runCall_idle hidle, hquantum]
  refine ⟨_, (runWork_doAll hu).trans (runWork_ended (by simp) (perform_ret _ u)), hlatch, k.fsel, fun d hd => ?_⟩
  by_cases hcur : d = s.cur
  · subst hcur
    rw [State.finish_ctx_same]
    rfl
  · rw [State.finish_ctx_other _ _ hcur, k.others d hcur, State.beginCall_ctx_other _ _ hcur, hd]

/-- What two `set_level` calls, one after the other, leave of the registers. -/
theorem two_setLevels {s : State} {c d : Nat} (hc : (s.ctx c).call = none) (hd : (s.ctx d).call = none) (p q : Pin)
    (a b : Level) :
    ∃ t, andThen (exec (.setLevel p.val a) (s.scheduled c none))
            (fun v => exec (.setLevel q.val b) (v.scheduled d none)) = .next t
      ∧ (∀ r, t.latchAt r = if r = q then b else if r = p then a else s.latchAt r)
      ∧ t.fsel = s.fsel := by
  obtain ⟨u, hu, first⟩ := exec_setLevel_of_idle (s := s.scheduled c none) hc rfl p a
  obtain ⟨t, ht, second⟩ := exec_setLevel_of_idle (s := u.scheduled d none) (first.idle d hd) rfl q b
  rw [hu]
  refine ⟨t, ht, fun r => ?_, second.fsel.trans first.fsel⟩
  calc t.latchAt r = if r = q then b else u.latchAt r := second.latches r
    _ = if r = q then b else if r = p then a else s.latchAt r := by rw [first.latches r]; rfl

/-- Settles O24: each call drives its own pin's latch, so the last writer of every latch is the same in both orders. -/
theorem setLevelsOnDifferentPinsCommute : Obligations.SetLevelsOnDifferentPinsCommute := by
  intro s c d p q a b hc hd hpq
  obtain ⟨t, ht, hlatch, hfsel⟩ := two_setLevels hc hd p q a b
  obtain ⟨u, hu, hlatch', hfsel'⟩ := two_setLevels hd hc q p b a
  have hsame : t.latch = u.latch := latch_ext fun r => by
    rw [hlatch, hlatch']
    by_cases hq : r = q
    · simp [hq, hpq.symm]
    · simp [hq]
  refine ⟨t, u, ht, hu, hsame, hfsel.trans hfsel'.symm, hfsel, ?_, ?_, fun r hp hq => ?_⟩
  · rw [hlatch, if_neg hpq, if_pos rfl]
  · rw [hlatch, if_pos rfl]
  · rw [hlatch, if_neg hq, if_neg hp]

end Sys2Proof.Machine

/-! Proofs about the steps of a frame (O28, O29, O30): how many of its events are writes and settle waits, the action at
each position, and where its context stands when it is preempted after some of its steps. -/

namespace Sys2Proof.Machine

/-! ### The counts of a frame's events (R114) -/

/-- Where every bit has `m` events of a kind, a frame has those of its bits and those of its two ends. -/
theorem countP_frameEvents (P : Event → Bool) (cfg : Config) (c : Nat) (bits : List Bool) {m : Nat}
    (hbit : ∀ v, (sendBitEvents cfg c v).countP P = m) :
    (frameEvents cfg c bits).countP P
      = [Event.acq c, setLevelEvent c (csPin cfg) .low, .settle c].countP P + bits.length * m
        + [setLevelEvent c (csPin cfg) .high, .rel c].countP P := by
  have hbits : (bits.flatMap (sendBitEvents cfg c)).countP P = bits.length * m := by
    induction bits with
    | nil => simp
    | cons v rest ih =>
      rw [List.flatMap_cons, List.countP_append, hbit, ih, List.length_cons, Nat.succ_mul, Nat.add_comm]
  rw [frameEvents, List.countP_append, List.countP_append, hbits]

/-- Settles O28: the events of the call are those of the frame, counted part by part. -/
theorem frameCountsWritesAndSettles : Obligations.FrameCountsWritesAndSettles := by
  intro s t bits hready hlife hlock hexec
  obtain ⟨u, hu, k⟩ := runFrame_next (i := .sendFrame bits) (bits := bits) hready hlock
  rw [exec_sendFrame hlife, hu] at hexec
  cases hexec
  have hsettles : (frameEvents s.cfg s.cur bits).countP isSettle = 1 + 3 * bits.length := by
    rw [countP_frameEvents isSettle s.cfg s.cur bits (m := 3) fun _ => rfl]
    change 1 + bits.length * 3 + 0 = _
    omega
  refine ⟨frameEvents s.cfg s.cur bits, k.returns.trace, ?writes, hsettles, ?reads, ?duration⟩
  case writes =>
    rw [countP_frameEvents isWrite s.cfg s.cur bits (m := 3) fun _ => rfl]
    change 1 + bits.length * 3 + 1 = _
    omega
  case reads => exact countP_frameEvents isRead s.cfg s.cur bits (m := 0) fun _ => rfl
  case duration => rw [minDuration, hsettles, Nat.mul_comm]

/-! ### The action at each position (R31) -/

/-- In a concatenation of blocks of one length, entry `j` of block `i` stands at `m * i + j`. -/
theorem getElem?_flatMap_block {α β : Type} {f : α → List β} {m : Nat} (hf : ∀ a, (f a).length = m) (as : List α)
    {i j : Nat} (hi : i < as.length) (hj : j < m) : (as.flatMap f)[m * i + j]? = (f as[i])[j]? := by
  induction as generalizing i with
  | nil => cases hi
  | cons a rest ih =>
    rw [List.flatMap_cons]
    cases i with
    | zero => rw [Nat.mul_zero, Nat.zero_add, List.getElem?_append_left (by rwa [hf])]; rfl
    | succ i =>
      rw [List.getElem?_append_right (by rw [hf, Nat.mul_succ]; omega), hf,
        show m * (i + 1) + j - m = m * i + j by rw [Nat.mul_succ]; omega, ih (Nat.lt_of_succ_lt_succ hi)]
      rfl

theorem sendBitActions_length (cfg : Config) (v : Bool) : (sendBitActions cfg v).length = 6 := rfl

theorem flatMap_sendBitActions_length (cfg : Config) (bits : List Bool) :
    (bits.flatMap (sendBitActions cfg)).length = 6 * bits.length := by
  simp [List.length_flatMap, sendBitActions_length, Nat.mul_comm]

/-- The actions of a frame: three before its bits, two after them. -/
theorem frameActions_split (cfg : Config) (bits : List Bool) :
    frameActions cfg bits =
      [.acquire, .write (levelTarget (csPin cfg) .low) (levelWord (csPin cfg)), .settle]
        ++ (bits.flatMap (sendBitActions cfg)
          ++ [.write (levelTarget (csPin cfg) .high) (levelWord (csPin cfg)), .release]) := by
  simp [frameActions, setLevelActions]

theorem frameActions_length (cfg : Config) (bits : List Bool) :
    (frameActions cfg bits).length = 5 + 6 * bits.length := by
  simp only [frameActions_split, List.length_append, flatMap_sendBitActions_length, List.length_cons, List.length_nil]
  omega

/-- R31: action `j` of bit `i` is step `3 + 6i + j` of the frame. -/
theorem frameActions_bit (cfg : Config) {bits : List Bool} {i j : Nat} (hi : i < bits.length) (hj : j < 6) :
    (frameActions cfg bits)[3 + 6 * i + j]? = (sendBitActions cfg bits[i])[j]? := by
  have hlen := flatMap_sendBitActions_length cfg bits
  rw [frameActions_split, Nat.add_assoc, List.getElem?_append_right (Nat.le_add_right 3 _)]
  change (_ ++ _)[3 + (6 * i + j) - 3]? = _
  rw [Nat.add_sub_cancel_left, List.getElem?_append_left (by omega),
    getElem?_flatMap_block (sendBitActions_length cfg) bits hi hj]

/-- R31: behind the bits, step `3 + 6n + j` of the frame is action `j` of its end. -/
theorem frameActions_end (cfg : Config) (bits : List Bool) (j : Nat) :
    (frameActions cfg bits)[3 + 6 * bits.length + j]?
      = [Action.write (levelTarget (csPin cfg) .high) (levelWord (csPin cfg)), .release][j]? := by
  have hlen := flatMap_sendBitActions_length cfg bits
  rw [frameActions_split, Nat.add_assoc, List.getElem?_append_right (Nat.le_add_right 3 _)]
  change (_ ++ _)[3 + (6 * bits.length + j) - 3]? = _
  rw [Nat.add_sub_cancel_left, List.getElem?_append_right (by omega), hlen, Nat.add_sub_cancel_left]

/-- Settles O29: the first three steps are before the bits, each bit has six, and the last two are behind them. -/
theorem frameStepsAreTheTable : Obligations.FrameStepsAreTheTable := by
  intro cfg bits n steps
  refine ⟨frameActions_length cfg bits, rfl, rfl, rfl, fun i h => ?bit, frameActions_end cfg bits 0, ?release⟩
  case bit =>
    have hstep {j : Nat} (hj : j < 6) {k : Nat} (hk : k = 3 + 6 * i + j) :
        steps[k]? = (sendBitActions cfg bits[i])[j]? := hk ▸ frameActions_bit cfg h hj
    exact ⟨hstep (j := 0) (by omega) (by omega), hstep (j := 1) (by omega) (by omega),
      hstep (j := 2) (by omega) (by omega), hstep (j := 3) (by omega) (by omega),
      hstep (j := 4) (by omega) (by omega), hstep (j := 5) (by omega) (by omega)⟩
  case release =>
    rw [show 4 + 6 * n = 3 + 6 * bits.length + 1 by omega]
    exact frameActions_end cfg bits 1

/-! ### A frame preempted after some of its steps (R17, R31) -/

/-- Actions that are all done use up one of the quantum each. -/
theorem runWork_doAll_spend {c : Nat} {as bs : List Action} {n : Nat} {s t : State} (h : doAll c as s = some t) :
    runWork c (as ++ bs) (some (as.length + n)) s = runWork c bs (some n) t := by
  induction as generalizing s with
  | nil =>
    cases h
    rw [List.nil_append, List.length_nil, Nat.zero_add]
  | cons a rest ih =>
    rw [doAll] at h
    split at h
    case h_1 s' hp =>
      rw [List.cons_append, runWork_did (by simp) hp, List.length_cons, Nat.add_right_comm, spend_succ]
      exact ih h
    case h_2 => cases h

/-- A bit is sent by setting levels and waiting (R111). -/
theorem mem_sendBitActions {cfg : Config} {v : Bool} {a : Action} (h : a ∈ sendBitActions cfg v) :
    a = .settle ∨ ∃ p l, a = .write (levelTarget p l) (levelWord p) := by
  simp only [sendBitActions, setLevelActions, List.mem_append, List.mem_singleton] at h
  obtain ((((rfl | rfl) | rfl) | rfl) | rfl) | rfl := h
  · exact .inr ⟨_, _, rfl⟩
  · exact .inl rfl
  · exact .inr ⟨_, _, rfl⟩
  · exact .inl rfl
  · exact .inr ⟨_, _, rfl⟩
  · exact .inl rfl

/-- Between its acquire and its release a frame sets levels and waits. -/
theorem mem_frameBody {cfg : Config} {bits : List Bool} {a : Action} (h : a ∈ frameBody cfg bits) :
    a = .settle ∨ ∃ p l, a = .write (levelTarget p l) (levelWord p) := by
  simp only [frameBody, setLevelActions, List.mem_append, List.mem_singleton, List.mem_flatMap] at h
  obtain ((rfl | rfl) | ⟨v, -, hv⟩) | rfl := h
  · exact .inr ⟨_, _, rfl⟩
  · exact .inl rfl
  · exact mem_sendBitActions hv
  · exact .inr ⟨_, _, rfl⟩

/-- Each of them is done at once, and moves its context by one position. -/
theorem doAll_of_mem_frameBody {cfg : Config} {bits : List Bool} (c : Nat) {as : List Action}
    (h : ∀ a ∈ as, a ∈ frameBody cfg bits) (s : State) : ∃ t es, doAll c as s = some t ∧ Drives c as.length s t es := by
  induction as generalizing s with
  | nil => exact ⟨s, [], rfl, .refl c s⟩
  | cons a rest ih =>
    obtain ⟨ha, hrest⟩ := List.forall_mem_cons.mp h
    have hfirst : ∃ u es, perform c a s = .did u ∧ Drives c 1 s u es := by
      obtain rfl | ⟨p, l, rfl⟩ := mem_frameBody ha
      · exact ⟨_, _, perform_settle c s, drives_settle c s⟩
      · exact ⟨_, _, perform_setLevel c p l s, drives_setLevel c p l s⟩
    obtain ⟨u, es, hu, first⟩ := hfirst
    obtain ⟨t, fs, ht, later⟩ := ih hrest u
    have hboth := first.trans later
    rw [Nat.add_comm] at hboth
    exact ⟨t, es ++ fs, (doAll_cons hu rest).trans ht, hboth⟩

/-- R31, R144: the first `k` steps of a frame that starts with the lock free take its context to `At(k)`, with the lock
once the acquire is done. -/
theorem doAll_frame_steps {c k : Nat} {bits : List Bool} {s : State} (hseq : (s.ctx c).seq = .at 0)
    (hframe : (s.ctx c).frame = some bits) (hlock : s.txLock = .free) (hk : k ≤ 4 + 6 * bits.length) :
    ∃ t, doAll c ((frameActions s.cfg bits).take k) s = some t
      ∧ t.ctx c = { s.ctx c with seq := .at k }
      ∧ t.txLock = if k = 0 then .free else .held c := by
  cases k with
  | zero => exact ⟨s, rfl, by rw [← hseq], hlock⟩
  | succ k =>
    have hacquire : perform c .acquire s = .did _ := perform_acquire hlock
    generalize hs1 : (((s.putLock (.held c)).emit (.acq c)).mapCtx c fun x => { x with seq := .at 1 }) = s1 at hacquire
    have hctx1 : s1.ctx c = { s.ctx c with seq := .at 1 } := by rw [← hs1]; simp
    have hlock1 : s1.txLock = .held c := by rw [← hs1]; rfl
    obtain ⟨t, es, ht, drove⟩ := doAll_of_mem_frameBody (cfg := s.cfg) (bits := bits) c
      (as := (frameBody s.cfg bits).take k) (fun _ => List.mem_of_mem_take) s1
    have hlen : ((frameBody s.cfg bits).take k).length = k := by
      rw [List.length_take, frameBody_length]
      omega
    have htake : (frameActions s.cfg bits).take (k + 1) = .acquire :: (frameBody s.cfg bits).take k := by
      rw [frameActions_eq, List.take_succ_cons, List.take_append_of_le_length (by rw [frameBody_length]; omega)]
    refine ⟨t, ?done, ?position, drove.txLock.trans hlock1⟩
    case done => rw [htake, doAll_cons hacquire, ht]
    case position =>
      rw [drove.caller, hlen, Ctx.advance_iterate_of_frame (bits := bits) (k := 0) k (by rw [hctx1]; exact hframe)
        (by rw [hctx1]), hctx1, Nat.add_comm]

/-- A run with its quantum used up is put aside with the work it has left. -/
theorem runWork_exhausted {work : List Action} (h : work ≠ []) (c : Nat) (s : State) :
    runWork c work (some 0) s = .next (s.suspend c work) := by
  obtain ⟨a, rest, rfl⟩ := List.exists_cons_of_ne_nil h
  exact runWork_preempted c a rest s

/-- R31: a frame preempted after `k` of its steps has those from `k` on still to do. -/
theorem runWork_frame_preempted {c k : Nat} {bits : List Bool} {s t : State} {cfg : Config}
    (hdone : doAll c ((frameActions cfg bits).take k) s = some t) (hk : k ≤ (frameActions cfg bits).length) :
    runWork c (frameActions cfg bits ++ [.ret]) (some k) s
      = .next (t.suspend c ((frameActions cfg bits).drop k ++ [.ret])) := by
  have hspent := runWork_doAll_spend (bs := (frameActions cfg bits).drop k ++ [.ret]) (n := 0) hdone
  rw [List.length_take, Nat.min_eq_left hk, ← List.append_assoc, List.take_append_drop] at hspent
  exact hspent.trans (runWork_exhausted (by simp) c t)

/-- Settles O30: the call enters its frame with the lock free, and its quantum is the steps it does. -/
theorem sequencerCountsTheStepsDone : Obligations.SequencerCountsTheStepsDone := by
  intro s bits k hidle hlife hlock hquantum hk
  have hlen : k ≤ (frameActions s.cfg bits).length := by
    rw [frameActions_length]
    omega
  obtain ⟨t, hdone, hctx, hheld⟩ := doAll_frame_steps (c := s.cur) (k := k) (bits := bits)
    (s := (s.beginCall (.sendFrame bits)).enterFrame s.cur bits) (by simp) (by simp) (by simpa using hlock) hk
  have hexec : exec (.sendFrame bits) s
      = .next (t.suspend s.cur ((frameActions s.cfg bits).drop k ++ [.ret])) := by
    rw [exec_sendFrame hlife, runFrame, runCall_idle hidle, hquantum]
    exact runWork_frame_preempted hdone hlen
  refine ⟨_, hexec, ?_, ?_, ?_, hheld⟩
  all_goals rw [State.suspend_ctx_same, hctx]
  rw [State.enterFrame_ctx_same]

end Sys2Proof.Machine

/-! Proof that operations keep to the state their row of the access matrix gives them (O59): what each action may write,
that the actions of a call write no more than its row, and that the sequencer moves inside frames only. -/

namespace Sys2Proof.Machine

/-! ### Rows of the matrix, larger and smaller -/

/-- Every column that `v` lets be written, `w` does too. -/
def Writes.covers (w v : Writes) : Bool :=
  (!v.fsel || w.fsel) && (!v.latch || w.latch) && (!v.life || w.life) && (!v.txLock || w.txLock)
    && (!v.frames || w.frames) && (!v.vol || w.vol) && (!v.bas || w.bas) && (!v.onv || w.onv)

theorem Writes.covers_iff {w v : Writes} :
    w.covers v = true ↔ (v.fsel = true → w.fsel = true) ∧ (v.latch = true → w.latch = true)
      ∧ (v.life = true → w.life = true) ∧ (v.txLock = true → w.txLock = true) ∧ (v.frames = true → w.frames = true)
      ∧ (v.vol = true → w.vol = true) ∧ (v.bas = true → w.bas = true) ∧ (v.onv = true → w.onv = true) := by
  simp only [Writes.covers, Bool.and_eq_true, Bool.or_eq_true, Bool.not_eq_true', ← Bool.not_eq_true, ← imp_iff_not_or,
    and_assoc]

theorem Writes.covers_trans {w v u : Writes} (hw : w.covers v = true) (hv : v.covers u = true) : w.covers u = true := by
  obtain ⟨hfsel, hlatch, hlife, hlock, hframes, hvol, hbas, honv⟩ := Writes.covers_iff.mp hw
  obtain ⟨kfsel, klatch, klife, klock, kframes, kvol, kbas, konv⟩ := Writes.covers_iff.mp hv
  exact Writes.covers_iff.mpr ⟨hfsel ∘ kfsel, hlatch ∘ klatch, hlife ∘ klife, hlock ∘ klock, hframes ∘ kframes,
    hvol ∘ kvol, hbas ∘ kbas, honv ∘ konv⟩

/-- A row that writes nothing is the smallest. -/
theorem Writes.covers_empty (w : Writes) : w.covers {} = true := by simp [Writes.covers]

theorem Keeps.refl (w : Writes) (s : State) : Keeps w s s := by constructor <;> exact fun _ => rfl

theorem Keeps.trans {w : Writes} {s t u : State} (h : Keeps w s t) (k : Keeps w t u) : Keeps w s u where
  fsel e := (k.fsel e).trans (h.fsel e)
  latch e := (k.latch e).trans (h.latch e)
  life e := (k.life e).trans (h.life e)
  txLock e := (k.txLock e).trans (h.txLock e)
  vol e := (k.vol e).trans (h.vol e)
  bas e := (k.bas e).trans (h.bas e)
  onv e := (k.onv e).trans (h.onv e)

/-- What keeps to a smaller row keeps to a larger one. -/
theorem Keeps.mono {v w : Writes} {s t : State} (h : Keeps v s t) (hw : w.covers v = true) : Keeps w s t := by
  obtain ⟨hfsel, hlatch, hlife, hlock, -, hvol, hbas, honv⟩ := Writes.covers_iff.mp hw
  have unwritten {x y : Bool} (hxy : x = true → y = true) (hy : y = false) : x = false :=
    Bool.eq_false_iff.mpr fun hx => Bool.eq_false_iff.mp hy (hxy hx)
  constructor
  case fsel => exact fun e => h.fsel (unwritten hfsel e)
  case latch => exact fun e => h.latch (unwritten hlatch e)
  case life => exact fun e => h.life (unwritten hlife e)
  case txLock => exact fun e => h.txLock (unwritten hlock e)
  case vol => exact fun e => h.vol (unwritten hvol e)
  case bas => exact fun e => h.bas (unwritten hbas e)
  case onv => exact fun e => h.onv (unwritten honv e)

/-! ### What an action may write -/

/-- What a register write may write (R92, R93, R94). -/
def Reg.writes : Reg → Writes
  | .fsel _ => { fsel := true }
  | .set _ => { latch := true }
  | .clr _ => { latch := true }

/-- What the store of an accepted value may write (R132, R133, R134). -/
def storeWrites : Attr → Writes
  | .volume => { vol := true }
  | .bass => { bas := true }
  | .on => { onv := true }

/-- What an action may write. Inside a frame a register write or a settle wait moves its context too; outside it does not
(`perform_sameFrames`). -/
def Action.writes : Action → Writes
  | .write r _ => r.writes
  | .writeField _ _ | .clearField _ | .orField _ _ => { fsel := true }
  | .enter _ => { frames := true }
  | .acquire | .release => { txLock := true, frames := true }
  | .accept name _ => storeWrites name
  | .pinsConfigured | .register | .teardown => { life := true }
  | .read _ | .settle | .reject _ | .ret | .retWord | .retText _ => {}

theorem State.regRead_keeps (s : State) (c : Nat) (r : Reg) : Keeps {} s (s.regRead c r) := by
  constructor <;> simp

theorem State.regWrite_keeps (s : State) (c : Nat) (r : Reg) (v : Word) : Keeps r.writes s (s.regWrite c r v) := by
  cases r <;> constructor <;> simp [Reg.writes, State.applyWrite]

theorem State.tryWrite_keeps {s s' : State} {c : Nat} {r : Reg} {v : Word} (h : s.tryWrite c r v = .did s') :
    Keeps r.writes s s' := by
  obtain ⟨-, rfl⟩ := State.tryWrite_did h
  exact s.regWrite_keeps c r v

theorem State.store_keeps (s : State) (name : Attr) (v : Nat) : Keeps (storeWrites name) s (s.store name v) := by
  cases name <;> constructor <;> simp [storeWrites, State.store]

theorem State.emit_keeps (w : Writes) (s : State) (e : Event) : Keeps w s (s.emit e) := by
  constructor <;> exact fun _ => rfl

/-- A change of a context's record touches no column but that of the frames. -/
theorem State.mapCtx_keeps (w : Writes) (s : State) (c : Nat) (f : Ctx → Ctx) : Keeps w s (s.mapCtx c f) := by
  constructor <;> exact fun _ => rfl

theorem State.putLife_keeps (s : State) (l : Life) : Keeps { life := true } s (s.putLife l) := by
  constructor <;> simp

/-- Every action leaves alone what it may not write. -/
theorem perform_keeps {c : Nat} {a : Action} {s s' : State}
    (h : perform c a s = .did s' ∨ perform c a s = .ended s') : Keeps a.writes s s' := by
  rcases h with h | h
  · rcases perform_did h with ⟨r, rfl, rfl⟩ | ⟨r, v, ha, _, rfl⟩ | ⟨rfl, rfl⟩ | ⟨bits, rfl, rfl⟩ | ⟨rfl, _, rfl⟩
      | ⟨rfl, _, rfl⟩ | ⟨name, v, rfl, rfl⟩ | ⟨rfl, rfl⟩ | ⟨rfl, _, _, rfl⟩
    · exact s.regRead_keeps c r
    · rcases ha with rfl | ⟨p, d, rfl⟩ | ⟨p, rfl⟩ | ⟨p, d, rfl⟩ <;> exact State.tryWrite_keeps h
    · exact (s.emit_keeps _ _).trans (State.mapCtx_keeps _ _ c _)
    · exact s.mapCtx_keeps _ c _
    · constructor <;> simp [Action.writes]
    · constructor <;> simp [Action.writes]
    · exact (s.store_keeps name v).trans (State.emit_keeps _ _ _)
    · exact s.putLife_keeps _
    · exact s.putLife_keeps _
  · rcases perform_ended h with ⟨name, rfl, rfl⟩ | ⟨rfl, _, rfl⟩ | ⟨rfl, _, rfl⟩ | ⟨rfl, rfl⟩ | ⟨rfl, rfl⟩
      | ⟨name, rfl, rfl⟩
    · constructor <;> simp
    · constructor <;> simp [Action.writes]
    · constructor <;> simp [Action.writes]
    all_goals exact s.mapCtx_keeps _ c _

/-! ### The actions of a call write no more than its row -/

/-- Every action of the list writes columns of the row only. -/
def WritesOnly (w : Writes) (as : List Action) : Prop := ∀ a ∈ as, w.covers a.writes = true

theorem WritesOnly.nil (w : Writes) : WritesOnly w [] := fun _ h => by cases h

theorem WritesOnly.cons {w : Writes} {a : Action} {as : List Action} (ha : w.covers a.writes = true)
    (has : WritesOnly w as) : WritesOnly w (a :: as) := List.forall_mem_cons.mpr ⟨ha, has⟩

theorem WritesOnly.append {w : Writes} {as bs : List Action} (has : WritesOnly w as) (hbs : WritesOnly w bs) :
    WritesOnly w (as ++ bs) := List.forall_mem_append.mpr ⟨has, hbs⟩

theorem WritesOnly.mono {w v : Writes} {as : List Action} (h : WritesOnly v as) (hw : w.covers v = true) :
    WritesOnly w as := fun a ha => Writes.covers_trans hw (h a ha)

theorem WritesOnly.append_ret {w : Writes} {as : List Action} (h : WritesOnly w as) : WritesOnly w (as ++ [.ret]) :=
  h.append (.cons w.covers_empty (.nil w))

theorem writesOnly_setLevel (p : Pin) (l : Level) : WritesOnly { latch := true } (setLevelActions p l) := by
  cases l <;> exact .cons rfl (.nil _)

theorem writesOnly_configure (cfg : Config) (p : Pin) (d : Direction) :
    WritesOnly { fsel := true } (configureActions cfg p d) := by
  unfold configureActions
  split
  · exact .cons rfl (.cons rfl (.cons rfl (.cons rfl (.nil _))))
  · exact .cons rfl (.cons rfl (.nil _))

theorem writesOnly_sendBit (cfg : Config) (v : Bool) : WritesOnly { latch := true } (sendBitActions cfg v) := by
  have hsettle : WritesOnly { latch := true } [.settle] := .cons rfl (.nil _)
  have hlevel := writesOnly_setLevel
  exact (((((hlevel _ _).append hsettle).append (hlevel _ _)).append hsettle).append (hlevel _ _)).append hsettle

theorem writesOnly_frame (cfg : Config) (bits : List Bool) : WritesOnly writesOfFrame (frameActions cfg bits) := by
  have hlevel (p : Pin) (l : Level) : WritesOnly writesOfFrame (setLevelActions p l) :=
    (writesOnly_setLevel p l).mono rfl
  have hbits : WritesOnly writesOfFrame (bits.flatMap (sendBitActions cfg)) := by
    intro a ha
    obtain ⟨v, -, hv⟩ := List.mem_flatMap.mp ha
    exact (writesOnly_sendBit cfg v).mono rfl a hv
  have hone {a : Action} (ha : writesOfFrame.covers a.writes = true) : WritesOnly writesOfFrame [a] := .cons ha (.nil _)
  exact (((((hone rfl).append (hlevel _ _)).append (hone rfl)).append hbits).append (hlevel _ _)).append (hone rfl)

/-- What the forwarding of an accepted value writes: a frame's columns, or the enable pin's latch (R132, R133, R134). -/
def forwardWrites : Attr → Writes
  | .volume => writesOfFrame
  | .bass => writesOfFrame
  | .on => { latch := true }

theorem writesOnly_forward (cfg : Config) (name : Attr) (v : Nat) :
    WritesOnly (forwardWrites name) (forwardActions cfg name v) := by
  cases name with
  | volume => exact .cons rfl (writesOnly_frame cfg _)
  | bass => exact .cons rfl (writesOnly_frame cfg _)
  | on => exact writesOnly_setLevel _ _

theorem writesOnly_store {w : Writes} {name : Attr} (hstore : w.covers (storeWrites name) = true)
    (hforward : w.covers (forwardWrites name) = true) (cfg : Config) (t : Text) :
    WritesOnly w (storeActions cfg name t) := by
  unfold storeActions
  split
  · exact .cons hstore ((writesOnly_forward cfg name _).mono hforward).append_ret
  · exact .cons w.covers_empty (.nil w)

theorem writesOnly_start (cfg : Config) : WritesOnly (writes .start) (startActions cfg) := by
  have hconfigure (p : Pin) : WritesOnly (writes .start) (configureActions cfg p .output) :=
    (writesOnly_configure cfg p .output).mono rfl
  have hlevel (p : Pin) (l : Level) : WritesOnly (writes .start) (setLevelActions p l) :=
    (writesOnly_setLevel p l).mono rfl
  have hend : WritesOnly (writes .start) [.pinsConfigured, .register] := .cons rfl (.cons rfl (.nil _))
  exact ((((((hconfigure _).append (hconfigure _)).append (hconfigure _)).append (hconfigure _)).append
    (hlevel _ _)).append (hlevel _ _)).append hend

/-- The row of `reg_write` is that of the register it reaches (R38). -/
theorem writes_regWrite {n : Nat} {r : Reg} (h : regOfIndex n = some r) (v : Word) :
    writes (.regWrite n v) = r.writes := by
  obtain rfl := index_of_regOfIndex h
  cases r with
  | fsel k => exact if_pos k.isLt
  | set k => exact if_neg (Nat.not_lt.mpr (Nat.le_add_right 6 _))
  | clr k => exact if_neg (Nat.not_lt.mpr (Nat.le_add_right_of_le (by decide)))

/-- The sequence of a call writes columns of its row only (R38). -/
theorem writesOnly_program (cfg : Config) (i : Instr) : WritesOnly (writes i) (program cfg i) := by
  cases i with
  | loadA m => exact (writesOnly_frame cfg _).append_ret
  | loadB m => exact (writesOnly_frame cfg _).append_ret
  | loadAB m => exact (writesOnly_frame cfg _).append_ret
  | sendFrame bits => exact (writesOnly_frame cfg bits).append_ret
  | write ch m =>
    simp only [program]
    split
    · exact (writesOnly_frame cfg _).append_ret
    · exact .nil _
  | fselInput pin | fselOutput pin | configure pin d =>
    simp only [program]
    split
    · exact (writesOnly_configure cfg _ _).append_ret
    · exact .nil _
  | setLevel pin l =>
    simp only [program]
    split
    · exact (writesOnly_setLevel _ _).append_ret
    · exact .nil _
  | sendBit v => exact (writesOnly_sendBit cfg v).append_ret
  | storeVolume t => exact writesOnly_store rfl rfl cfg t
  | storeBass t => exact writesOnly_store rfl rfl cfg t
  | storeOn t => exact writesOnly_store rfl rfl cfg t
  | start => exact writesOnly_start cfg
  | regRead n =>
    simp only [program]
    split
    · exact .cons rfl (.cons rfl (.nil _))
    · exact .nil _
  | regWrite n v =>
    simp only [program]
    split
    · rename_i r hr
      rw [writes_regWrite hr]
      exact WritesOnly.append_ret (as := [.write r v]) (.cons (by cases r <;> rfl) (.nil _))
    · exact .nil _
  | stop => exact .cons rfl (.cons rfl (.nil _))
  | showVolume | showBass | showOn => exact .cons rfl (.nil _)
  | fselRead | fselWrite | setWrite | clrWrite | setclrRead | settle | lockAcquire | lockRelease =>
    exact .cons rfl (.cons rfl (.nil _))

/-- A run of actions that write columns of a row only keeps to the row, wherever it stops. -/
theorem runWork_keeps_row {w : Writes} {c : Nat} {work : List Action} {q : Option Nat} {s t : State}
    (hwork : WritesOnly w work) (hrun : runWork c work q s = .next t) : Keeps w s t := by
  induction work generalizing q s with
  | nil =>
    cases hrun
    exact .refl w _
  | cons a rest ih =>
    obtain ⟨ha, hrest⟩ := List.forall_mem_cons.mp hwork
    rcases runWork_next hrun with ⟨rfl, _⟩ | ⟨_, s', hp, hrun'⟩ | ⟨_, hp⟩
    · exact State.mapCtx_keeps w _ c _
    · exact ((perform_keeps (.inl hp)).mono ha).trans (ih hrest hrun')
    · exact (perform_keeps (.inr hp)).mono ha

/-- Every call keeps to its row. -/
theorem exec_keeps_row {i : Instr} {s t : State} (h : exec i s = .next t) : Keeps (writes i) s t := by
  obtain ⟨_, _, hrun⟩ := exec_next h
  have hentry : Keeps (writes i) s (callEntry i (s.beginCall i)) := by constructor <;> simp
  exact hentry.trans (runWork_keeps_row (writesOnly_program s.cfg i) hrun)

/-! ### The sequencer and the frames (R30, R31) -/

/-- Every context stands where it stood, with the frame it had. -/
def SameFrames (s t : State) : Prop := ∀ c, (t.ctx c).seq = (s.ctx c).seq ∧ (t.ctx c).frame = (s.ctx c).frame

theorem SameFrames.of_ctx {s t : State} (h : ∀ c, t.ctx c = s.ctx c) : SameFrames s t := fun c => by
  rw [h c]
  exact ⟨rfl, rfl⟩

theorem SameFrames.trans {s t u : State} (h : SameFrames s t) (k : SameFrames t u) : SameFrames s u := fun c => by
  obtain ⟨hseq, hframe⟩ := h c
  obtain ⟨kseq, kframe⟩ := k c
  exact ⟨kseq.trans hseq, kframe.trans hframe⟩

/-- A change of one record that leaves its position and frame alone. -/
theorem State.mapCtx_sameFrames (s : State) {c : Nat} {f : Ctx → Ctx} (hseq : (f (s.ctx c)).seq = (s.ctx c).seq)
    (hframe : (f (s.ctx c)).frame = (s.ctx c).frame) : SameFrames s (s.mapCtx c f) := by
  intro d
  by_cases hd : d = c
  · subst hd
    rw [State.mapCtx_ctx_same]
    exact ⟨hseq, hframe⟩
  · rw [State.mapCtx_ctx_other _ _ hd]
    exact ⟨rfl, rfl⟩

/-- Outside every frame only the actions that enter a frame or a region, or leave it, move their context: the sequencer
advances inside frames (R31). -/
theorem perform_sameFrames {c : Nat} {a : Action} {s s' : State} (hnone : (s.ctx c).frame = none)
    (ha : a.writes.frames = false) (h : perform c a s = .did s' ∨ perform c a s = .ended s') : SameFrames s s' := by
  have advances (t : State) (ht : ∀ d, t.ctx d = s.ctx d) : SameFrames s (t.advance c) := by
    refine (SameFrames.of_ctx ht).trans (t.mapCtx_sameFrames ?_ ?_) <;>
      rw [Ctx.advance_of_noFrame (by rw [ht, hnone])]
  rcases h with h | h
  · rcases perform_did h with ⟨r, _, rfl⟩ | ⟨r, v, _, _, rfl⟩ | ⟨_, rfl⟩ | ⟨bits, rfl, _⟩ | ⟨rfl, _⟩ | ⟨rfl, _⟩
      | ⟨name, v, _, rfl⟩ | ⟨_, rfl⟩ | ⟨_, _, _, rfl⟩
    · cases r <;> exact State.mapCtx_sameFrames _ rfl rfl
    · exact advances _ (by simp)
    · exact advances _ (by simp)
    · cases ha
    · cases ha
    · cases ha
    · exact .of_ctx (by simp)
    · exact .of_ctx fun _ => rfl
    · exact .of_ctx fun _ => rfl
  · rcases perform_ended h with ⟨name, _, rfl⟩ | ⟨_, _, rfl⟩ | ⟨_, _, rfl⟩ | ⟨_, rfl⟩ | ⟨_, rfl⟩ | ⟨name, _, rfl⟩
    all_goals exact State.mapCtx_sameFrames _ rfl rfl

theorem Writes.frames_of_covers {w v : Writes} (h : w.covers v = true) (hw : w.frames = false) : v.frames = false := by
  obtain ⟨-, -, -, -, hframes, -⟩ := Writes.covers_iff.mp h
  exact Bool.eq_false_iff.mpr fun hv => Bool.eq_false_iff.mp hw (hframes hv)

/-- A run that begins outside every frame, of actions that do not enter one, moves no context. -/
theorem runWork_sameFrames {w : Writes} (hw : w.frames = false) {c : Nat} {work : List Action} {q : Option Nat}
    {s t : State} (hwork : WritesOnly w work) (hnone : (s.ctx c).frame = none) (hrun : runWork c work q s = .next t) :
    SameFrames s t := by
  induction work generalizing q s with
  | nil =>
    cases hrun
    exact .of_ctx fun _ => rfl
  | cons a rest ih =>
    obtain ⟨ha, hrest⟩ := List.forall_mem_cons.mp hwork
    have hperform {s' : State} (hp : perform c a s = .did s' ∨ perform c a s = .ended s') : SameFrames s s' :=
      perform_sameFrames hnone (Writes.frames_of_covers ha hw) hp
    rcases runWork_next hrun with ⟨rfl, _⟩ | ⟨_, s', hp, hrun'⟩ | ⟨_, hp⟩
    · exact State.mapCtx_sameFrames _ rfl rfl
    · have hsame := hperform (.inl hp)
      exact hsame.trans (ih hrest ((hsame c).2.trans hnone) hrun')
    · exact hperform (.inr hp)

/-- The release of the lock is still to do at every position of a frame (R31). -/
theorem release_mem_frameActions_drop {cfg : Config} {bits : List Bool} {k : Nat} (hk : k ≤ 4 + 6 * bits.length) :
    Action.release ∈ (frameActions cfg bits).drop k := by
  have hlen : k ≤ (Action.acquire :: frameBody cfg bits).length := by
    rw [List.length_cons, frameBody_length]
    omega
  rw [frameActions_eq, ← List.cons_append, List.drop_append_of_le_length hlen]
  exact List.mem_append_right _ List.mem_cons_self

/-- What a context has stored to do writes columns of its call's row only. -/
theorem Ctx.Ok.writesOnly {cfg : Config} {x : Ctx} {i : Instr} (h : x.Ok cfg) (hi : x.call = some i) :
    WritesOnly (writes i) x.work := fun a ha => writesOnly_program cfg i a ((h.inside i hi).subset ha)

/-- A context inside a call whose row writes no frame is outside every frame: it would have the release still to do. -/
theorem Ctx.Ok.noFrame_of_row {cfg : Config} {x : Ctx} {i : Instr} (h : x.Ok cfg) (hi : x.call = some i)
    (hrow : (writes i).frames = false) : x.frame = none := by
  by_contra hsome
  obtain ⟨bits, hf⟩ := Option.ne_none_iff_exists'.mp hsome
  obtain ⟨k, -, hk, hwork⟩ := h.position bits hf
  have hmem : Action.release ∈ x.work := by
    rw [hwork]
    exact List.mem_append_left _ (release_mem_frameActions_drop hk)
  have hframes : Action.release.writes.frames = false := Writes.frames_of_covers (h.writesOnly hi _ hmem) hrow
  cases hframes

/-- An operation whose row writes no frame enters none at its call. -/
theorem callEntry_of_row {i : Instr} (hrow : (writes i).frames = false) : callEntry i = id := by
  refine callEntry_eq_id ?_ ?_
  · cases i with
    | loadA | loadB | loadAB | sendFrame | write => cases hrow
    | _ => rfl
  · rintro rfl
    cases hrow

/-- Every call by a context as calls leave it keeps to the last column of its row. -/
theorem exec_keepsFrames {i : Instr} {s t : State} (hok : (s.ctx s.cur).Ok s.cfg) (h : exec i s = .next t) :
    KeepsFrames (writes i) s t := by
  intro hrow
  obtain ⟨hidle, _, hrun⟩ := exec_next h
  obtain ⟨_, hnone⟩ := hok.between hidle
  rw [callEntry_of_row hrow] at hrun
  have hbegun : SameFrames s (s.beginCall i) := s.mapCtx_sameFrames rfl rfl
  exact hbegun.trans (runWork_sameFrames hrow (writesOnly_program s.cfg i) ((hbegun s.cur).2.trans hnone) hrun)

/-! ### Steps -/

theorem State.taking_keeps (w : Writes) (s : State) (c : Nat) (q : Option Nat) (rest : List Input) :
    Keeps w s (s.taking c q rest) := by constructor <;> exact fun _ => rfl

/-- What R38 asks of a step from `s` to `t`: of an operation, that it keeps to its row, and of no operation, that it
writes nothing. -/
def StepKeepsToRow (s t : State) : Prop :=
  (s.acting = none → Keeps {} s t ∧ KeepsFrames {} s t)
    ∧ ∀ i, s.acting = some i →
        (Keeps (writes i) s t ∨ i = .start ∧ Keeps (writes .start) s.initMirror t) ∧ KeepsFrames (writes i) s t

theorem StepKeepsToRow.of_none {s t : State} (hacting : s.acting = none) (hkeeps : Keeps {} s t)
    (hframes : SameFrames s t) : StepKeepsToRow s t :=
  ⟨fun _ => ⟨hkeeps, fun _ => hframes⟩, fun _ hi => (nomatch hacting.symm.trans hi)⟩

theorem StepKeepsToRow.of_some {s t : State} {i : Instr} (hacting : s.acting = some i)
    (hkeeps : Keeps (writes i) s t ∨ i = .start ∧ Keeps (writes .start) s.initMirror t)
    (hframes : KeepsFrames (writes i) s t) : StepKeepsToRow s t := by
  refine ⟨fun hnone => (nomatch hacting.symm.trans hnone), fun j hj => ?_⟩
  obtain rfl := Option.some.inj (hacting.symm.trans hj)
  exact ⟨hkeeps, hframes⟩

/-- The call of a step keeps to its row, a `start` that begins a lifetime from the mirror it begins with (R36, R38). -/
theorem exec_newLifetime_keeps {s t : State} {c : Nat} {q : Option Nat} {rest : List Input} {i : Instr}
    (h : exec i ((s.taking c q rest).newLifetime i) = .next t) :
    Keeps (writes i) s t ∨ i = .start ∧ Keeps (writes .start) s.initMirror t := by
  rcases (s.taking c q rest).newLifetime_cases i with ⟨rfl, _, hnew⟩ | ⟨_, hsame⟩
  · rw [hnew] at h
    exact .inr ⟨rfl, (s.initMirror.taking_keeps _ c q rest).trans (exec_keeps_row h)⟩
  · rw [hsame] at h
    exact .inl ((s.taking_keeps _ c q rest).trans (exec_keeps_row h))

/-- Settles O59: a step does nothing, performs an operation or resumes a call; the last two are runs of actions of the
operation's sequence, which write columns of its row only. -/
theorem operationsKeepToTheirState : Obligations.OperationsKeepToTheirState := by
  refine ⟨fun s t i => exec_keeps_row, fun s t hinv hstep => ?_⟩
  change StepKeepsToRow s t
  rcases step_next hstep with ⟨rfl, hacting⟩ | ⟨c, q, rest, i, hacting, hexec⟩ | ⟨c, q, rest, _, hacting, hrun⟩
  case inl => exact .of_none hacting (.refl _ t) (.of_ctx fun _ => rfl)
  case inr.inl =>
    have hbegun : SameFrames s ((s.taking c q rest).newLifetime i) := .of_ctx (by simp)
    have hok := ((hinv.taking c q rest).newLifetime i).calls
    exact .of_some hacting (exec_newLifetime_keeps hexec) fun hrow => hbegun.trans (exec_keepsFrames (hok _) hexec hrow)
  case inr.inr =>
    have hok := hinv.calls c
    cases hcall : (s.ctx c).call with
    | none =>
      obtain ⟨hwork, _⟩ := hok.between hcall
      rw [hwork] at hrun
      cases hrun
      exact .of_none (hacting.trans hcall) (s.taking_keeps _ c q rest) (.of_ctx fun _ => rfl)
    | some i =>
      have hwork := hok.writesOnly hcall
      have hkeeps := (s.taking_keeps _ c q rest).trans (runWork_keeps_row hwork hrun)
      exact .of_some (hacting.trans hcall) (.inl hkeeps) fun hrow =>
        runWork_sameFrames (s := s.taking c q rest) hrow hwork (hok.noFrame_of_row hcall hrow) hrun

end Sys2Proof.Machine
